-- ==== Sys2Proof/Word.lean ====
section
/-! DEFINITION. The widths of the AS-11's values (00_scope.md R7: a word is 16 bits, a byte 8 bits). -/

namespace Sys2Proof

/-- A byte, 8 bits (R7). -/
abbrev Byte := BitVec 8

/-- A word, 16 bits (R7): a register, an address, an instruction word. -/
abbrev Word := BitVec 16

/-- A register pair as MUL, DIV and ASHC see it, 32 bits (R190). -/
abbrev Long := BitVec 32

end Sys2Proof
end

