-- ==== Sys2Proof/Config.lean ====
section
/-! DEFINITION. What an implementation of the AS-11 fixes and the spec leaves as a parameter
(00_scope.md R5, 10_state.md R34, the closing table of 92_eei_decisions.md), and the values nobody
fixes: uninterpreted constants that no proof can see through. -/

namespace Sys2Proof

/-! ## The settings register `reg_mprj_settings` (10_state.md R34) -/

/-- The WEB field: the shape of the WE pulse (R34, R403). No program can see it. -/
inductive Web where
  /-- 0: active for a full clock cycle. -/
  | fullCycle
  /-- 1: only active when the clock is low. -/
  | clockLow
  /-- 2: only active when the clock is high. -/
  | clockHigh
  deriving DecidableEq, Repr, Inhabited

/-- The five fields of `reg_mprj_settings` (R34). The host writes them; no instruction reaches them. -/
structure Settings where
  /-- MPSW: a byte access to 0xFFFE reaches the PSW (20_memory.md R59). -/
  mpsw : Bool
  web : Web
  /-- ILE: an illegal opcode traps (30_encoding.md R100). -/
  ile : Bool
  /-- SADDR: the PC is SADDR * 2 after reset (70_reset_and_hazards.md R392); 15 bits (D11). -/
  saddr : BitVec 15
  /-- TEN: the T bit works (R28). -/
  ten : Bool
  deriving DecidableEq, Repr, Inhabited

/-- "This register is cleared to zero on reset" (R34, R38). -/
def Settings.cleared : Settings :=
  { mpsw := false, web := .fullCycle, ile := false, saddr := 0, ten := false }

/-! ## OPEN parameters -/

/-- The encodings of the four AS-11-only instructions (30_encoding.md R94, D3): whole words for SVB
and TRACE, bits 15:9 for IOR and IOW. -/
structure Encodings where
  svb : Word
  trace : Word
  ior : BitVec 7
  iow : BitVec 7
  deriving DecidableEq, Repr, Inhabited

/-- The six trap vector addresses (60_exceptions.md R311, D4). Each is an even byte address, held as
the number of its word, so that evenness needs no side condition. -/
structure TrapVectors where
  emt : BitVec 15
  trap : BitVec 15
  bpt : BitVec 15
  iot : BitVec 15
  trace : BitVec 15
  illegal : BitVec 15
  deriving DecidableEq, Repr, Inhabited

/-- How many bits the registers of unstated width have (60_exceptions.md R361, R370, R375;
91_not_in_source.md N25). More than 16 counts as 16. -/
structure Widths where
  t0pre : Nat
  t1pre : Nat
  sdiv : Nat
  udiv : Nat
  deriving DecidableEq, Repr, Inhabited

/-! ## Switches (92_eei_decisions.md, closing table) -/

/-- SP_BYTE_STEP: the step of `(SP)+` and `-(SP)` in a byte instruction (R123, D8). -/
inductive SpByteStep where
  | one
  | two
  deriving DecidableEq, Repr, Inhabited

/-- EVENT_ORDER: trace trap against interrupt request at one boundary (R330, D16). -/
inductive EventOrder where
  | traceFirst
  | irqFirst
  deriving DecidableEq, Repr, Inhabited

/-- ASH_C_ON_ZERO: C after a shift by no place (R193, D21). -/
inductive AshCOnZero where
  | cleared
  | unchanged
  deriving DecidableEq, Repr, Inhabited

/-- MARK_RULE: the source's sentence or the PDP-11's (R243, D31). -/
inductive MarkRule where
  | source
  | pdp11
  deriving DecidableEq, Repr, Inhabited

/-- IRQ_LATCH_RESET: the latches after reset (R38, D13). -/
inductive IrqLatchReset where
  | clear
  | unspecified
  deriving DecidableEq, Repr, Inhabited

/-- IO_UNUSED_BITS: what IOR reads above a register's width (47_io.md R290, D24). -/
inductive IoUnusedBits where
  | zero
  | ones
  | any
  deriving DecidableEq, Repr, Inhabited

/-- The rounding of DIV's quotient (43_register_operand.md R192, D20). -/
inductive DivRounding where
  | towardZero
  | towardNegInf
  | towardPosInf
  deriving DecidableEq, Repr, Inhabited

/-- What "the destination registers" are in DIV's V rule (R192, 90_conflicts.md C13). -/
inductive DivVReading where
  /-- The 32-bit pair: the literal reading, the spec's default. -/
  | pair
  /-- Only REG, the high word. -/
  | highWord
  deriving DecidableEq, Repr, Inhabited

/-- The switches. The three `div` fields are the points of DIV_NUMERICS for which R192 names a
default; they hold for the operands that `Config.div` does not list. -/
structure Switches where
  spByteStep : SpByteStep
  eventOrder : EventOrder
  /-- WAIT_WAKE_IGNORES_PRIO (60_exceptions.md R335, D17). -/
  waitWakeIgnoresPrio : Bool
  ashCOnZero : AshCOnZero
  markRule : MarkRule
  /-- SWAB_FLAGS_LOW_BYTE (41_single_operand.md R151, D31). -/
  swabFlagsLowByte : Bool
  irqLatchReset : IrqLatchReset
  ioUnusedBits : IoUnusedBits
  divRounding : DivRounding
  divVReading : DivVReading
  /-- Whether DIV writes the pair when V = 1 and the divisor is not zero (R192). -/
  divWritesOnV : Bool
  deriving DecidableEq, Repr, Inhabited

/-- The spec's defaults (92_eei_decisions.md, closing table; D20 for DIV). -/
def Switches.defaults : Switches :=
  { spByteStep := .two, eventOrder := .traceFirst, waitWakeIgnoresPrio := false,
    ashCOnZero := .cleared, markRule := .source, swabFlagsLowByte := false,
    irqLatchReset := .clear, ioUnusedBits := .any, divRounding := .towardZero,
    divVReading := .pair, divWritesOnV := true }

/-! ## DIV_NUMERICS (43_register_operand.md R192, D20), the OPEN function -/

/-- What DIV_NUMERICS answers for one triple of operands, as far as the four bullets of R192 leave it
open. A divisor that is not zero uses the first three fields, and `pair` for the quotient of -2^31 by
-1, which does not fit; a zero divisor uses the last three (log 18). -/
structure DivRule where
  /-- Which neighbour an inexact quotient is rounded to. -/
  rounding : DivRounding
  /-- What V compares. -/
  vReading : DivVReading
  /-- Whether the pair is written when V = 1. -/
  writesOnV : Bool
  /-- The pair left by a zero divisor (U5), or the quotient of -2^31 by -1 (U6). -/
  pair : Long
  /-- N after a zero divisor (U5). -/
  n : Bool
  /-- Z after a zero divisor (U5). -/
  z : Bool
  deriving DecidableEq, Repr, Inhabited

/-- One row of DIV_NUMERICS: the operands REG, REG+1 and src, and its answer for them. -/
structure DivEntry where
  hi : Word
  lo : Word
  src : Word
  rule : DivRule
  deriving DecidableEq, Repr, Inhabited

/-- Every parameter of R5. A machine carries its own; the host's reset replaces the settings and
nothing else in it ever changes. -/
structure Config where
  settings : Settings
  enc : Encodings
  vec : TrapVectors
  widths : Widths
  sw : Switches
  /-- DIV_NUMERICS as the table of a function, the first row of a triple of operands deciding. The
  triples are finitely many, so every function that meets the bullets of R192 is some table; for
  operands not listed the defaults of D20 hold, with the constants below where D20 has none. -/
  div : List DivEntry
  deriving DecidableEq, Repr, Inhabited

/-! ## Uninterpreted constants

None has a body: Lean can neither evaluate one nor prove which value it has. -/

/-- DESIGN CHOICE (log 4): the lost encodings of the machine that `State.reset` describes. -/
opaque Config.openEncodings : Encodings

/-- DESIGN CHOICE (log 4): the lost trap vector addresses of that machine. -/
opaque Config.openVectors : TrapVectors

/-- DESIGN CHOICE (log 14): the unstated register widths of that machine. -/
opaque Config.openWidths : Widths

/-- A byte the spec leaves unspecified, a fresh one for each draw number (U8, U13; log 11, 15). -/
opaque Config.freeByte : Nat → Byte

/-- A word the spec leaves unspecified, a fresh one for each draw number (U9, U10, U11, U26). -/
opaque Config.freeWord : Nat → Word

/-- Four condition code bits the spec leaves unspecified, N first (U12; log 17). -/
opaque Config.freeCc : Nat → BitVec 4

/-- DIV by zero with operands that `Config.div` does not list (U5; log 18): the pair left behind, as a
function of the operands REG, REG+1, src. -/
opaque Config.divZeroPair : Word → Word → Word → Long

/-- DIV by zero with unlisted operands (U5): N and then Z, as a function of the operands. -/
opaque Config.divZeroNZ : Word → Word → Word → Bool × Bool

/-- The quotient of -2^31 by -1, which does not fit (U6), when `Config.div` does not list it. -/
opaque Config.divOverflowQuotient : Word → Word → Word → Long

/-- The configuration of `State.reset`: the settings at their own reset value, the switches at the
spec's defaults, the OPEN parameters uninterpreted, no row in the table of DIV_NUMERICS. -/
def Config.atReset : Config :=
  { settings := Settings.cleared, enc := Config.openEncodings, vec := Config.openVectors,
    widths := Config.openWidths, sw := Switches.defaults, div := [] }

end Sys2Proof
end

