-- ==== Sys2Proof/Syntax.lean ====
section
/-! DEFINITION. The syntax of the AS-11's instruction words: registers, addressing modes, operand
specifiers, and one constructor of `Instr` for each row of spec/opcode_table.json. Extension words
are no part of an instruction here: they are fetched through the PC while the operand is resolved
(30_encoding.md R102, 40_addressing_modes.md R120). -/

namespace Sys2Proof

/-- The eight general registers (10_state.md R20): R6 is SP, R7 is PC. -/
inductive Reg where
  | r0 | r1 | r2 | r3 | r4 | r5 | sp | pc
  deriving DecidableEq, Repr, Inhabited

/-- The eight addressing modes (40_addressing_modes.md R111 to R118), in the order of MODE. -/
inductive Mode where
  /-- MODE 0, `Rn` (R111). -/
  | register
  /-- MODE 1, `(Rn)` (R112). -/
  | deferred
  /-- MODE 2, `(Rn)+` (R113). -/
  | autoinc
  /-- MODE 3, `@(Rn)+` (R114). -/
  | autoincDeferred
  /-- MODE 4, `-(Rn)` (R115). -/
  | autodec
  /-- MODE 5, `@-(Rn)` (R116). -/
  | autodecDeferred
  /-- MODE 6, `X(Rn)` (R117). -/
  | indexed
  /-- MODE 7, `@X(Rn)` (R118). -/
  | indexedDeferred
  deriving DecidableEq, Repr, Inhabited

/-- An operand specifier: MODE and Rn (R110). Any mode goes with any register. -/
structure Operand where
  mode : Mode
  rn : Reg
  deriving DecidableEq, Repr, Inhabited

/-- Operand sizes (R8): 1 byte or 2 bytes. -/
inductive Size where
  | byte
  | word
  deriving DecidableEq, Repr

/-- The instructions, one constructor per row of spec/opcode_table.json. -/
inductive Instr where
  -- Single operand (41_single_operand.md)
  /-- CLR (R141). -/
  | clr (dst : Operand)
  /-- CLRB (R141). -/
  | clrb (dst : Operand)
  /-- COM (R142). -/
  | com (dst : Operand)
  /-- COMB (R142). -/
  | comb (dst : Operand)
  /-- INC (R143). -/
  | inc (dst : Operand)
  /-- INCB (R143). -/
  | incb (dst : Operand)
  /-- DEC (R144). -/
  | dec (dst : Operand)
  /-- DECB (R144). -/
  | decb (dst : Operand)
  /-- NEG (R145). -/
  | neg (dst : Operand)
  /-- NEGB (R145). -/
  | negb (dst : Operand)
  /-- ADC (R152). -/
  | adc (dst : Operand)
  /-- ADCB (R152). -/
  | adcb (dst : Operand)
  /-- SBC (R153). -/
  | sbc (dst : Operand)
  /-- SBCB (R153). -/
  | sbcb (dst : Operand)
  /-- TST (R146). -/
  | tst (dst : Operand)
  /-- TSTB (R146). -/
  | tstb (dst : Operand)
  /-- ROR (R149). -/
  | ror (dst : Operand)
  /-- RORB (R149). -/
  | rorb (dst : Operand)
  /-- ROL (R150). -/
  | rol (dst : Operand)
  /-- ROLB (R150). -/
  | rolb (dst : Operand)
  /-- ASR (R147). -/
  | asr (dst : Operand)
  /-- ASRB (R147). -/
  | asrb (dst : Operand)
  /-- ASL (R148). -/
  | asl (dst : Operand)
  /-- ASLB (R148). -/
  | aslb (dst : Operand)
  /-- SWAB (R151). -/
  | swab (dst : Operand)
  /-- SXT (R154). -/
  | sxt (dst : Operand)
  -- Double operand (42_double_operand.md)
  /-- MOV (R171). -/
  | mov (src dst : Operand)
  /-- MOVB (R171). -/
  | movb (src dst : Operand)
  /-- CMP (R172). -/
  | cmp (src dst : Operand)
  /-- CMPB (R172). -/
  | cmpb (src dst : Operand)
  /-- BIT (R175). -/
  | bit (src dst : Operand)
  /-- BITB (R175). -/
  | bitb (src dst : Operand)
  /-- BIC (R176). -/
  | bic (src dst : Operand)
  /-- BICB (R176). -/
  | bicb (src dst : Operand)
  /-- BIS (R177). -/
  | bis (src dst : Operand)
  /-- BISB (R177). -/
  | bisb (src dst : Operand)
  /-- ADD (R173). -/
  | add (src dst : Operand)
  /-- SUB (R174). -/
  | sub (src dst : Operand)
  -- Register operand (43_register_operand.md)
  /-- MUL (R191). -/
  | mul (reg : Reg) (src : Operand)
  /-- DIV (R192). -/
  | div (reg : Reg) (src : Operand)
  /-- ASH (R193). -/
  | ash (reg : Reg) (src : Operand)
  /-- ASHC (R194). -/
  | ashc (reg : Reg) (src : Operand)
  /-- XOR (R195). -/
  | xor (reg : Reg) (dst : Operand)
  -- Branches (44_branch.md): the signed 8-bit offset
  /-- BR (R211). -/
  | br (offset : BitVec 8)
  /-- BNE (R212). -/
  | bne (offset : BitVec 8)
  /-- BEQ (R213). -/
  | beq (offset : BitVec 8)
  /-- BGE (R220). -/
  | bge (offset : BitVec 8)
  /-- BLT (R221). -/
  | blt (offset : BitVec 8)
  /-- BGT (R222). -/
  | bgt (offset : BitVec 8)
  /-- BLE (R223). -/
  | ble (offset : BitVec 8)
  /-- BPL (R214). -/
  | bpl (offset : BitVec 8)
  /-- BMI (R215). -/
  | bmi (offset : BitVec 8)
  /-- BHI (R224). -/
  | bhi (offset : BitVec 8)
  /-- BLOS (R225). -/
  | blos (offset : BitVec 8)
  /-- BVC (R216). -/
  | bvc (offset : BitVec 8)
  /-- BVS (R217). -/
  | bvs (offset : BitVec 8)
  /-- BCC (R218). -/
  | bcc (offset : BitVec 8)
  /-- BCS (R219). -/
  | bcs (offset : BitVec 8)
  -- Jump, subroutine, loop (45_jump_subroutine.md)
  /-- JMP (R240). -/
  | jmp (dst : Operand)
  /-- JSR (R241). -/
  | jsr (reg : Reg) (dst : Operand)
  /-- RTS (R242). -/
  | rts (reg : Reg)
  /-- MARK (R243). -/
  | mark (n : BitVec 6)
  /-- SOB (R244). -/
  | sob (reg : Reg) (offset : BitVec 6)
  -- Trap, return, halt, processor status (46_trap_system.md)
  /-- EMT (R260). -/
  | emt (code : BitVec 8)
  /-- TRAP (R261). -/
  | trap (code : BitVec 8)
  /-- HALT (R266). -/
  | halt
  /-- WAIT (R267). -/
  | wait
  /-- RTI (R264). -/
  | rti
  /-- BPT (R262). -/
  | bpt
  /-- IOT (R263). -/
  | iot
  /-- RESET (R268). -/
  | reset
  /-- RTT (R265). -/
  | rtt
  /-- MFTP (R274). -/
  | mftp
  /-- MTPS (R272). -/
  | mtps (src : Operand)
  /-- MFPS (R271). -/
  | mfps (dst : Operand)
  /-- SVB (R269). -/
  | svb
  /-- TRACE (R270). -/
  | trace
  -- Internal I/O (47_io.md)
  /-- IOR (R292). -/
  | ior (reg : Reg) (dst : Operand)
  /-- IOW (R293). -/
  | iow (reg : Reg) (src : Operand)
  -- Condition code operators (48_condition_codes.md)
  /-- CCOP (R300). -/
  | ccop (set n z v c : Bool)
  /-- CLC (R301). -/
  | clc
  /-- CLV (R301). -/
  | clv
  /-- CLZ (R301). -/
  | clz
  /-- CLN (R301). -/
  | cln
  /-- CCC (R301). -/
  | ccc
  /-- SEC (R301). -/
  | sec
  /-- SEV (R301). -/
  | sev
  /-- SEZ (R301). -/
  | sez
  /-- SEN (R301). -/
  | sen
  /-- SCC (R301). -/
  | scc
  /-- NOP (R302). -/
  | nop
  deriving DecidableEq, Repr

end Sys2Proof
end

