-- ==== Sys2Proof/WellFormed.lean ====
section
/-! DEFINITION. Which terms of `Instr` an encoding exists for, and which values of the OPEN encodings
meet the constraints of 30_encoding.md R94. -/

namespace Sys2Proof

/-- The words of the form 0x00A0 | SET<<4 | N<<3 | Z<<2 | V<<1 | C that have a mnemonic of their own
(48_condition_codes.md R301). They are instructions of their own rows, so a `ccop` with these
fields is no well-formed term. -/
def namedCcop (set n z v c : Bool) : Bool :=
  match set, n, z, v, c with
  | false, false, false, false, false => true  -- NOP
  | false, false, false, false, true => true   -- CLC
  | false, false, false, true, false => true   -- CLV
  | false, false, true, false, false => true   -- CLZ
  | false, true, false, false, false => true   -- CLN
  | false, true, true, true, true => true      -- CCC
  | true, false, false, false, true => true    -- SEC
  | true, false, false, true, false => true    -- SEV
  | true, false, true, false, false => true    -- SEZ
  | true, true, false, false, false => true    -- SEN
  | true, true, true, true, true => true       -- SCC
  | _, _, _, _, _ => false

/-- A well-formed instruction. Every field of every other constructor may have any value: no mode,
register, offset, code or count is excluded (40_addressing_modes.md R110, R300). -/
def Instr.wellFormed : Instr → Bool
  | .ccop set n z v c => !namedCcop set n z v c
  | _ => true

/-- The words no row of 30_encoding.md R89 to R93 matches (R100's list, before the OPEN encodings
are taken out of it). -/
def inIllegalSet (w : Word) : Bool :=
  let n := w.toNat
  (0x0008 ≤ n && n ≤ 0x003F) || (0x0088 ≤ n && n ≤ 0x009F) || (0x0D40 ≤ n && n ≤ 0x0DBF) ||
  (0x0E00 ≤ n && n ≤ 0x0FFF) || (0x7A00 ≤ n && n ≤ 0x7DFF) || (0x8D40 ≤ n && n ≤ 0x8DBF) ||
  (0x8E00 ≤ n && n ≤ 0x8FFF) || 0xF000 ≤ n

/-- The values of bits 15:9 whose 512 words all lie in that set (R94). -/
def inIllegalBlock (b : BitVec 7) : Bool :=
  b = 0x07#7 || b = 0x3D#7 || b = 0x3E#7 || b = 0x47#7 || 0x78 ≤ b.toNat

/-- The constraints of R94 on the four OPEN encodings: each lies in the illegal set, and no two of
them share a word. -/
def Encodings.ok (e : Encodings) : Bool :=
  inIllegalSet e.svb && inIllegalSet e.trace && inIllegalBlock e.ior && inIllegalBlock e.iow &&
  e.svb != e.trace && e.ior != e.iow &&
  e.svb.extractLsb' 9 7 != e.ior && e.svb.extractLsb' 9 7 != e.iow &&
  e.trace.extractLsb' 9 7 != e.ior && e.trace.extractLsb' 9 7 != e.iow

end Sys2Proof
end

