-- ==== Sys2Proof/Decode.lean ====
section
/-! DEFINITION. The decoder (30_encoding.md R80 to R102), total on every word and every list of bytes,
and after it the encoder written from the same formats. The PDP-11 opcodes are the spec's rows R89
to R93 (log 30); the four AS-11-only opcodes are parameters (R94). -/

namespace Sys2Proof

/-! ## Fields -/

/-- The register a 3-bit field names (10_state.md R20). -/
def Reg.ofBits (b : BitVec 3) : Reg :=
  match b with
  | 0#3 => .r0
  | 1#3 => .r1
  | 2#3 => .r2
  | 3#3 => .r3
  | 4#3 => .r4
  | 5#3 => .r5
  | 6#3 => .sp
  | _ => .pc

/-- The number of a register. -/
def Reg.bits : Reg → BitVec 3
  | .r0 => 0
  | .r1 => 1
  | .r2 => 2
  | .r3 => 3
  | .r4 => 4
  | .r5 => 5
  | .sp => 6
  | .pc => 7

/-- The mode a MODE field names (40_addressing_modes.md R111 to R118). -/
def Mode.ofBits (b : BitVec 3) : Mode :=
  match b with
  | 0#3 => .register
  | 1#3 => .deferred
  | 2#3 => .autoinc
  | 3#3 => .autoincDeferred
  | 4#3 => .autodec
  | 5#3 => .autodecDeferred
  | 6#3 => .indexed
  | _ => .indexedDeferred

/-- The number of a mode. -/
def Mode.bits : Mode → BitVec 3
  | .register => 0
  | .deferred => 1
  | .autoinc => 2
  | .autoincDeferred => 3
  | .autodec => 4
  | .autodecDeferred => 5
  | .indexed => 6
  | .indexedDeferred => 7

/-- The register field whose lowest bit is bit `lo` of the word. -/
def regAt (lo : Nat) (w : Word) : Reg :=
  Reg.ofBits (w.extractLsb' lo 3)

/-- The operand specifier whose lowest bit is bit `lo`: MODE above Rn (R81). -/
def operandAt (lo : Nat) (w : Word) : Operand :=
  { mode := Mode.ofBits (w.extractLsb' (lo + 3) 3), rn := regAt lo w }

/-- The six bits of an operand specifier. -/
def Operand.bits (o : Operand) : BitVec 6 :=
  o.mode.bits ++ o.rn.bits

/-! ## The decoder -/

/-- Why a word or a list of bytes is no instruction. -/
inductive DecodeReject where
  /-- The word matches no row of R89 to R94: "does not encode a valid opcode" (R100). -/
  | illegalOpcode (w : Word)
  /-- Fewer than two bytes: not a whole instruction word (R80). -/
  | truncated
  deriving DecidableEq, Repr

/-- 0x00A0 to 0x00BF, the condition code operators (48_condition_codes.md R300, R301), by bits 4:0:
the eleven named words are instructions of their own, every other word is the general operator. -/
def decodeCc (b : BitVec 5) : Instr :=
  match b with
  | 0x00#5 => .nop
  | 0x01#5 => .clc
  | 0x02#5 => .clv
  | 0x04#5 => .clz
  | 0x08#5 => .cln
  | 0x0F#5 => .ccc
  | 0x11#5 => .sec
  | 0x12#5 => .sev
  | 0x14#5 => .sez
  | 0x18#5 => .sen
  | 0x1F#5 => .scc
  | _ => .ccop (b.getLsbD 4) (b.getLsbD 3) (b.getLsbD 2) (b.getLsbD 1) (b.getLsbD 0)

/-- 0x0000 to 0x003F: the implied instructions (R89), by bits 5:0. -/
def decodeImplied (b : BitVec 6) : Option Instr :=
  match b with
  | 0x00#6 => some .halt
  | 0x01#6 => some .wait
  | 0x02#6 => some .rti
  | 0x03#6 => some .bpt
  | 0x04#6 => some .iot
  | 0x05#6 => some .reset
  | 0x06#6 => some .rtt
  | 0x07#6 => some .mftp
  | _ => none

/-- 0x0080 to 0x00BF: RTS and the condition code operators (R89), by bits 5:3. -/
def decodeRtsCc (w : Word) : Option Instr :=
  match w.extractLsb' 3 3 with
  | 0#3 => some (.rts (regAt 0 w))
  | 1#3 => none
  | 2#3 => none
  | 3#3 => none
  | _ => some (decodeCc (w.extractLsb' 0 5))

/-- 0x0000 to 0x00FF (R89), by bits 7:6. -/
def decodeZero (w : Word) : Option Instr :=
  match w.extractLsb' 6 2 with
  | 0#2 => decodeImplied (w.extractLsb' 0 6)
  | 1#2 => some (.jmp (operandAt 0 w))
  | 2#2 => decodeRtsCc w
  | _ => some (.swab (operandAt 0 w))

/-- 0x0000 to 0x0FFF (R89, R90), by bits 11:8 and, for the single-operand rows, bits 7:6. -/
def decodeLow (w : Word) : Option Instr :=
  match w.extractLsb' 8 4 with
  | 0x0#4 => decodeZero w
  | 0x1#4 => some (.br (w.extractLsb' 0 8))
  | 0x2#4 => some (.bne (w.extractLsb' 0 8))
  | 0x3#4 => some (.beq (w.extractLsb' 0 8))
  | 0x4#4 => some (.bge (w.extractLsb' 0 8))
  | 0x5#4 => some (.blt (w.extractLsb' 0 8))
  | 0x6#4 => some (.bgt (w.extractLsb' 0 8))
  | 0x7#4 => some (.ble (w.extractLsb' 0 8))
  | 0x8#4 => some (.jsr (regAt 6 w) (operandAt 0 w))
  | 0x9#4 => some (.jsr (regAt 6 w) (operandAt 0 w))
  | 0xA#4 =>
    match w.extractLsb' 6 2 with
    | 0#2 => some (.clr (operandAt 0 w))
    | 1#2 => some (.com (operandAt 0 w))
    | 2#2 => some (.inc (operandAt 0 w))
    | _ => some (.dec (operandAt 0 w))
  | 0xB#4 =>
    match w.extractLsb' 6 2 with
    | 0#2 => some (.neg (operandAt 0 w))
    | 1#2 => some (.adc (operandAt 0 w))
    | 2#2 => some (.sbc (operandAt 0 w))
    | _ => some (.tst (operandAt 0 w))
  | 0xC#4 =>
    match w.extractLsb' 6 2 with
    | 0#2 => some (.ror (operandAt 0 w))
    | 1#2 => some (.rol (operandAt 0 w))
    | 2#2 => some (.asr (operandAt 0 w))
    | _ => some (.asl (operandAt 0 w))
  | 0xD#4 =>
    match w.extractLsb' 6 2 with
    | 0#2 => some (.mark (w.extractLsb' 0 6))
    | 1#2 => none
    | 2#2 => none
    | _ => some (.sxt (operandAt 0 w))
  | _ => none

/-- 0x7000 to 0x7FFF (R92), by bits 11:9. -/
def decodeRegisterGroup (w : Word) : Option Instr :=
  match w.extractLsb' 9 3 with
  | 0#3 => some (.mul (regAt 6 w) (operandAt 0 w))
  | 1#3 => some (.div (regAt 6 w) (operandAt 0 w))
  | 2#3 => some (.ash (regAt 6 w) (operandAt 0 w))
  | 3#3 => some (.ashc (regAt 6 w) (operandAt 0 w))
  | 4#3 => some (.xor (regAt 6 w) (operandAt 0 w))
  | 7#3 => some (.sob (regAt 6 w) (w.extractLsb' 0 6))
  | _ => none

/-- 0x8000 to 0x8FFF (R93), by bits 11:8 and, for the single-operand rows, bits 7:6. -/
def decodeHigh (w : Word) : Option Instr :=
  match w.extractLsb' 8 4 with
  | 0x0#4 => some (.bpl (w.extractLsb' 0 8))
  | 0x1#4 => some (.bmi (w.extractLsb' 0 8))
  | 0x2#4 => some (.bhi (w.extractLsb' 0 8))
  | 0x3#4 => some (.blos (w.extractLsb' 0 8))
  | 0x4#4 => some (.bvc (w.extractLsb' 0 8))
  | 0x5#4 => some (.bvs (w.extractLsb' 0 8))
  | 0x6#4 => some (.bcc (w.extractLsb' 0 8))
  | 0x7#4 => some (.bcs (w.extractLsb' 0 8))
  | 0x8#4 => some (.emt (w.extractLsb' 0 8))
  | 0x9#4 => some (.trap (w.extractLsb' 0 8))
  | 0xA#4 =>
    match w.extractLsb' 6 2 with
    | 0#2 => some (.clrb (operandAt 0 w))
    | 1#2 => some (.comb (operandAt 0 w))
    | 2#2 => some (.incb (operandAt 0 w))
    | _ => some (.decb (operandAt 0 w))
  | 0xB#4 =>
    match w.extractLsb' 6 2 with
    | 0#2 => some (.negb (operandAt 0 w))
    | 1#2 => some (.adcb (operandAt 0 w))
    | 2#2 => some (.sbcb (operandAt 0 w))
    | _ => some (.tstb (operandAt 0 w))
  | 0xC#4 =>
    match w.extractLsb' 6 2 with
    | 0#2 => some (.rorb (operandAt 0 w))
    | 1#2 => some (.rolb (operandAt 0 w))
    | 2#2 => some (.asrb (operandAt 0 w))
    | _ => some (.aslb (operandAt 0 w))
  | 0xD#4 =>
    match w.extractLsb' 6 2 with
    | 0#2 => some (.mtps (operandAt 0 w))
    | 1#2 => none
    | 2#2 => none
    | _ => some (.mfps (operandAt 0 w))
  | _ => none

/-- The rows with a fixed encoding (R89 to R93), by bits 15:12. -/
def decodeFixed (w : Word) : Option Instr :=
  match w.extractLsb' 12 4 with
  | 0x0#4 => decodeLow w
  | 0x1#4 => some (.mov (operandAt 6 w) (operandAt 0 w))
  | 0x2#4 => some (.cmp (operandAt 6 w) (operandAt 0 w))
  | 0x3#4 => some (.bit (operandAt 6 w) (operandAt 0 w))
  | 0x4#4 => some (.bic (operandAt 6 w) (operandAt 0 w))
  | 0x5#4 => some (.bis (operandAt 6 w) (operandAt 0 w))
  | 0x6#4 => some (.add (operandAt 6 w) (operandAt 0 w))
  | 0x7#4 => decodeRegisterGroup w
  | 0x8#4 => decodeHigh w
  | 0x9#4 => some (.movb (operandAt 6 w) (operandAt 0 w))
  | 0xA#4 => some (.cmpb (operandAt 6 w) (operandAt 0 w))
  | 0xB#4 => some (.bitb (operandAt 6 w) (operandAt 0 w))
  | 0xC#4 => some (.bicb (operandAt 6 w) (operandAt 0 w))
  | 0xD#4 => some (.bisb (operandAt 6 w) (operandAt 0 w))
  | 0xE#4 => some (.sub (operandAt 6 w) (operandAt 0 w))
  | _ => none

/-- The decoder of a machine whose OPEN encodings are `e` (R94, R95). The rows do not overlap when
`e` meets the constraints of R94; a fixed row is tested first, so that where they are not met it is
the fixed row that is decoded (log 5). -/
def decode (e : Encodings) (w : Word) : Except DecodeReject Instr :=
  match decodeFixed w with
  | some i => .ok i
  | none =>
    if w = e.svb then .ok .svb
    else if w = e.trace then .ok .trace
    else if w.extractLsb' 9 7 = e.ior then .ok (.ior (regAt 6 w) (operandAt 0 w))
    else if w.extractLsb' 9 7 = e.iow then .ok (.iow (regAt 6 w) (operandAt 0 w))
    else .error (.illegalOpcode w)

/-- The word whose low byte stands first (20_memory.md R51: little-endian). -/
def wordOfBytes (lo hi : Byte) : Word :=
  hi ++ lo

/-- The byte of a word that stands at the even address (R51). -/
def lowByte (w : Word) : Byte :=
  w.extractLsb' 0 8

/-- The byte of a word that stands at the odd address (R51). -/
def highByte (w : Word) : Byte :=
  w.extractLsb' 8 8

/-- The first instruction of a list of bytes as they stand in memory, and the bytes after its
instruction word. Extension words are not looked at (R102). -/
def decodeBytes (e : Encodings) : List Byte → Except DecodeReject (Instr × List Byte)
  | lo :: hi :: rest =>
    match decode e (wordOfBytes lo hi) with
    | .ok i => .ok (i, rest)
    | .error r => .error r
  | _ => .error .truncated

/-- The instruction the decoder reads from the word numbered as spec/opcode_table.json numbers it:
the low `nbits` bits of `w`, laid out as memory holds them, with operand words of zeros behind. The
OPEN encodings are those of the machine `State.reset` describes. -/
def decodeTableWord (nbits w : Nat) : Option Instr :=
  let v : Word := BitVec.ofNat 16 (w % 2 ^ nbits)
  match decodeBytes Config.openEncodings [lowByte v, highByte v, 0, 0, 0, 0] with
  | .ok (i, _) => some i
  | .error _ => none

/-! ## The encoder -/

/-- Format SO (R82): bits 15:6, then the operand specifier. -/
def encodeSo (op : BitVec 10) (d : Operand) : Word :=
  op ++ d.bits

/-- Format DO (R83): bits 15:12, then the source and the destination specifier. -/
def encodeDo (op : BitVec 4) (s d : Operand) : Word :=
  op ++ s.bits ++ d.bits

/-- Format RO (R84): bits 15:9, then REG and the operand specifier. -/
def encodeRo (op : BitVec 7) (r : Reg) (d : Operand) : Word :=
  op ++ r.bits ++ d.bits

/-- Formats BR and TR (R85): bits 15:8, then the offset or the code. -/
def encodeBr (op : BitVec 8) (x : BitVec 8) : Word :=
  op ++ x

/-- Format SB (R87): bits 15:9, then REG and the offset. -/
def encodeSb (op : BitVec 7) (r : Reg) (x : BitVec 6) : Word :=
  op ++ r.bits ++ x

/-- Format MK (R87): bits 15:6, then n. -/
def encodeMk (op : BitVec 10) (n : BitVec 6) : Word :=
  op ++ n

/-- Format RG (R87): bits 15:3, then Rn. -/
def encodeRg (op : BitVec 13) (r : Reg) : Word :=
  op ++ r.bits

/-- Format CC (R87): bits 15:5, then SET, N, Z, V, C. -/
def encodeCc (set n z v c : Bool) : Word :=
  (0x005#11 : BitVec 11) ++ BitVec.ofBool set ++ BitVec.ofBool n ++ BitVec.ofBool z ++
    BitVec.ofBool v ++ BitVec.ofBool c

/-- The instruction word of an instruction, from the rows R89 to R94. Its extension words are data
the program supplies (R102). -/
def encode (e : Encodings) : Instr → Word
  | .clr d => encodeSo 0x028 d
  | .clrb d => encodeSo 0x228 d
  | .com d => encodeSo 0x029 d
  | .comb d => encodeSo 0x229 d
  | .inc d => encodeSo 0x02A d
  | .incb d => encodeSo 0x22A d
  | .dec d => encodeSo 0x02B d
  | .decb d => encodeSo 0x22B d
  | .neg d => encodeSo 0x02C d
  | .negb d => encodeSo 0x22C d
  | .adc d => encodeSo 0x02D d
  | .adcb d => encodeSo 0x22D d
  | .sbc d => encodeSo 0x02E d
  | .sbcb d => encodeSo 0x22E d
  | .tst d => encodeSo 0x02F d
  | .tstb d => encodeSo 0x22F d
  | .ror d => encodeSo 0x030 d
  | .rorb d => encodeSo 0x230 d
  | .rol d => encodeSo 0x031 d
  | .rolb d => encodeSo 0x231 d
  | .asr d => encodeSo 0x032 d
  | .asrb d => encodeSo 0x232 d
  | .asl d => encodeSo 0x033 d
  | .aslb d => encodeSo 0x233 d
  | .swab d => encodeSo 0x003 d
  | .sxt d => encodeSo 0x037 d
  | .mov s d => encodeDo 0x1 s d
  | .movb s d => encodeDo 0x9 s d
  | .cmp s d => encodeDo 0x2 s d
  | .cmpb s d => encodeDo 0xA s d
  | .bit s d => encodeDo 0x3 s d
  | .bitb s d => encodeDo 0xB s d
  | .bic s d => encodeDo 0x4 s d
  | .bicb s d => encodeDo 0xC s d
  | .bis s d => encodeDo 0x5 s d
  | .bisb s d => encodeDo 0xD s d
  | .add s d => encodeDo 0x6 s d
  | .sub s d => encodeDo 0xE s d
  | .mul r s => encodeRo 0x38 r s
  | .div r s => encodeRo 0x39 r s
  | .ash r s => encodeRo 0x3A r s
  | .ashc r s => encodeRo 0x3B r s
  | .xor r d => encodeRo 0x3C r d
  | .br x => encodeBr 0x01 x
  | .bne x => encodeBr 0x02 x
  | .beq x => encodeBr 0x03 x
  | .bge x => encodeBr 0x04 x
  | .blt x => encodeBr 0x05 x
  | .bgt x => encodeBr 0x06 x
  | .ble x => encodeBr 0x07 x
  | .bpl x => encodeBr 0x80 x
  | .bmi x => encodeBr 0x81 x
  | .bhi x => encodeBr 0x82 x
  | .blos x => encodeBr 0x83 x
  | .bvc x => encodeBr 0x84 x
  | .bvs x => encodeBr 0x85 x
  | .bcc x => encodeBr 0x86 x
  | .bcs x => encodeBr 0x87 x
  | .jmp d => encodeSo 0x001 d
  | .jsr r d => encodeRo 0x04 r d
  | .rts r => encodeRg 0x010 r
  | .mark n => encodeMk 0x034 n
  | .sob r x => encodeSb 0x3F r x
  | .emt x => encodeBr 0x88 x
  | .trap x => encodeBr 0x89 x
  | .halt => 0x0000
  | .wait => 0x0001
  | .rti => 0x0002
  | .bpt => 0x0003
  | .iot => 0x0004
  | .reset => 0x0005
  | .rtt => 0x0006
  | .mftp => 0x0007
  | .mtps s => encodeSo 0x234 s
  | .mfps d => encodeSo 0x237 d
  | .svb => e.svb
  | .trace => e.trace
  | .ior r d => encodeRo e.ior r d
  | .iow r s => encodeRo e.iow r s
  | .ccop set n z v c => encodeCc set n z v c
  | .clc => 0x00A1
  | .clv => 0x00A2
  | .clz => 0x00A4
  | .cln => 0x00A8
  | .ccc => 0x00AF
  | .sec => 0x00B1
  | .sev => 0x00B2
  | .sez => 0x00B4
  | .sen => 0x00B8
  | .scc => 0x00BF
  | .nop => 0x00A0

end Sys2Proof
end

