-- ==== Sys2Proof/Machine/State.lean ====
section
/-! DEFINITION. The state of the AS-11 (10_state.md), as plain data, the reasons a step can stop, and
the state right after reset (R38). -/

namespace Sys2Proof.Machine

open Sys2Proof

/-! ## The CPU -/

/-- The four condition codes (10_state.md R24 to R27). -/
structure Cc where
  n : Bool
  z : Bool
  v : Bool
  c : Bool
  deriving DecidableEq, Repr, Inhabited

/-- The processor status word (R23): prio (R29), T (R28) and the condition codes. All eight bits are
fields and none is reserved, so nothing is lost by holding them apart; `Psw.toByte` gives the byte
that software sees. -/
structure Psw where
  prio : BitVec 3
  t : Bool
  cc : Cc
  deriving DecidableEq, Repr, Inhabited

/-- The eight general registers (R20), 16 bits each. -/
structure Regs where
  r0 : Word
  r1 : Word
  r2 : Word
  r3 : Word
  r4 : Word
  r5 : Word
  sp : Word
  pc : Word
  deriving DecidableEq, Repr, Inhabited

/-- The interrupt request lines IRQ1 to IRQ7 (R32). -/
inductive Irq where
  | irq1 | irq2 | irq3 | irq4 | irq5 | irq6 | irq7
  deriving DecidableEq, Repr, Inhabited

/-- The interrupt request latches (R32), one bit for each line. -/
structure IrqLatches where
  l1 : Bool
  l2 : Bool
  l3 : Bool
  l4 : Bool
  l5 : Bool
  l6 : Bool
  l7 : Bool
  deriving DecidableEq, Repr, Inhabited

/-- The run state (R33). -/
inductive RunState where
  | running
  | waiting
  | halted
  deriving DecidableEq, Repr, Inhabited

/-! ## Memory -/

/-- Memory (20_memory.md R50) as the list of the bytes that differ from what an unlisted address
reads as, by rising address (`Memory.wf`, in Machine/Ops.lean). -/
abbrev Memory := List Host.Cell

/-! ## The peripherals -/

/-- The two timers (60_exceptions.md R360). -/
inductive Timer where
  | timer0
  | timer1
  deriving DecidableEq, Repr, Inhabited

/-- The registers of one timer (R361 to R363) and its hidden prescaler counter (R36, R360). -/
structure TimerRegs where
  /-- TnPRE (R361). -/
  pre : Word
  /-- TTOPn (R362). -/
  top : Word
  /-- TMRn (R363). -/
  count : Word
  /-- The prescaler counter: CPU clock periods since the prescaler last expired (log 8). -/
  presc : Word
  deriving DecidableEq, Repr, Inhabited

/-- The peripherals (R36, R350 to R377). -/
structure Periph where
  /-- DDRA (R351). -/
  ddra : BitVec 7
  /-- PORTA (R352). -/
  porta : BitVec 7
  /-- The levels of PA6 to PA0 as driven from outside: what PINA reads and what an edge is seen
  against (R353, R355). -/
  pins : BitVec 7
  /-- INTA bits 4:1 (R354): bit j here is INTA bit j + 1, the enable of pin PA(j+1). -/
  inta : BitVec 4
  t0 : TimerRegs
  t1 : TimerRegs
  /-- TINT (R364). -/
  tint : BitVec 2
  /-- SDIV (R370). -/
  sdiv : Word
  /-- The SPI shift register's loaded byte, the one the port is sending (R36, R371): `spiBits` of its
  bits have gone, in an order the spec does not state (R370). -/
  spiTx : Byte
  /-- The byte the SPI port received last (R371). -/
  spiRx : Byte
  /-- SBYS (R372). -/
  sbys : Bool
  /-- The SPI clock divider counter (R36, R370): CPU clock periods into the current bit. Its width is
  not stated; 17 bits hold every 2 * SDIV (log 9). -/
  spiDiv : BitVec 17
  /-- The SPI bit counter (R36): bits of the transfer in progress that have passed, 8 at most
  (log 9). -/
  spiBits : BitVec 4
  /-- UDIV (R375). -/
  udiv : Word
  /-- The UART transmit shift register's loaded byte, the one being sent (R36, R376). -/
  uartTx : Byte
  /-- The byte the UART received last (R376). -/
  uartRx : Byte
  /-- UBSY (R377). -/
  ubsy : Bool
  /-- The bit counter of the UART transmit shift register (R36): bits of the frame in progress that
  have passed, 10 at most, start and stop bit among them (R375; log 9). -/
  uartTxBits : BitVec 4
  /-- The UART receive shifter (R36): the data bits of the frame that is arriving (log 9). -/
  uartRxShift : Byte
  /-- The bit counter of the UART receive shifter (R36), 10 at most (R375; log 9). -/
  uartRxBits : BitVec 4
  deriving DecidableEq, Repr, Inhabited

/-! ## The moves of the agents -/

/-- A move of one agent (00_scope.md R10, 60_exceptions.md R349). -/
inductive Event where
  /-- The CPU executes one instruction, or looks for a request while it waits. -/
  | cpu
  /-- One CPU clock period passes for the timers' prescalers (R361; log 8) and for the divider of an
  SPI transfer (R370; log 9). -/
  | clock
  /-- `TimerTick(n)`: the prescaler of a timer expires (R363). -/
  | timerTick (t : Timer)
  /-- `SpiDone`, with the byte the environment put on DI (R371). -/
  | spiDone (received : Byte)
  /-- One bit of the frame that the UART is sending passes (R36, R375; log 9). -/
  | uartTxBit
  /-- `UartTxDone` (R376). -/
  | uartTxDone
  /-- One bit of a frame arrives on RX, with its level (R36, R375; log 9). -/
  | uartRxBit (level : Bool)
  /-- `UartRx(b)`: a frame arrived on RX (R376). -/
  | uartRx (received : Byte)
  /-- `PinChange(i, level)` (R355). -/
  | pinChange (pin : Fin 7) (level : Bool)
  /-- The host sets `reg_mprj_settings`, pulls RSTD low and releases it (R390, R404). R390 says that the
  source tells neither how long RSTD must be held nor whether it is sampled with the clock; DESIGN
  CHOICE (log 44): low and release are this one move, between two instructions. -/
  | reset (settings : Settings)
  deriving DecidableEq, Repr

/-! ## The whole state -/

/-- The state of the machine. `script` and `free` are the model's own. -/
structure State where
  regs : Regs
  psw : Psw
  /-- IVB (R30): bits 4:0 are zero in every state a run reaches. -/
  ivb : Word
  irq : IrqLatches
  run : RunState
  /-- The trace inhibit of RTT (R35). -/
  tinh : Bool
  mem : Memory
  io : Periph
  cfg : Config
  /-- The moves still to come, chosen by the environment (R349; log 7). Empty: the CPU alone. -/
  script : List Event
  /-- How many unspecified values have been drawn so far (log 10). -/
  free : Nat
  deriving DecidableEq, Repr

/-- Why the machine has no next state: the model faults of 93_implementation_defined.md. None is a
trap of the AS-11; the spec gives the machine no behaviour past any of them (70_reset_and_hazards.md
R405). -/
inductive Fault where
  /-- `OddWordAddress` (20_memory.md R52): a word access, other than an instruction fetch, at an odd
  address. Raised by `readWord` and `writeWord`. Safe: the model stops where silicon may go on. -/
  | oddWordAddress (a : Word)
  /-- `OddPC` (R53): an instruction or extension word is fetched with the PC odd. Raised by `fetch`.
  Safe. -/
  | oddPc (a : Word)
  /-- `OddRegisterPair` (43_register_operand.md R192, R194): DIV or ASHC with an odd REG. Raised by
  `execDiv` and `execAshc`. Safe. -/
  | oddRegisterPair (r : Reg)
  /-- `SpiWriteWhileBusy` (60_exceptions.md R371): IOW to SDR with SBYS = 1. Raised by `ioWrite`.
  Safe. -/
  | spiWriteWhileBusy
  /-- `UartWriteWhileBusy` (R376): IOW to UDR with UBSY = 1. Raised by `ioWrite`. Safe. -/
  | uartWriteWhileBusy
  deriving DecidableEq, Repr

/-- Why an instruction has no meaning in the model. -/
inductive Refusal where
  /-- An arm of `exec` that has no meaning yet. No arm uses it. Safe: the model stops. -/
  | notModelled (mnemonic : String)
  deriving DecidableEq, Repr

/-! ## Reset -/

/-- A timer right after reset: the spec states none of the four values (R38); zero is a DESIGN
CHOICE (log 1). -/
def TimerRegs.reset : TimerRegs :=
  { pre := 0, top := 0, count := 0, presc := 0 }

/-- The peripherals right after reset (R38): DDRA, PORTA, INTA, TINT zero and both busy flags idle as
the spec says; the pin levels, SDIV, UDIV, the data bytes, the receive shifter and the counters of the
serial ports zero by DESIGN CHOICE (log 1). -/
def Periph.reset : Periph :=
  { ddra := 0, porta := 0, pins := 0, inta := 0, t0 := TimerRegs.reset, t1 := TimerRegs.reset,
    tint := 0, sdiv := 0, spiTx := 0, spiRx := 0, sbys := false, spiDiv := 0, spiBits := 0, udiv := 0,
    uartTx := 0, uartRx := 0, ubsy := false, uartTxBits := 0, uartRxShift := 0, uartRxBits := 0 }

/-- The machine right after reset with the settings register at its own reset value (R38, R391,
R392): R0 to R6 and the PSW zero, the PC at SADDR * 2 = 0, running, no latch set. IVB zero is a
DESIGN CHOICE (log 1). Memory lists nothing, no move of an agent is scheduled. -/
def State.reset : State :=
  { regs := { r0 := 0, r1 := 0, r2 := 0, r3 := 0, r4 := 0, r5 := 0, sp := 0, pc := 0 },
    psw := { prio := 0, t := false, cc := { n := false, z := false, v := false, c := false } },
    ivb := 0,
    irq := { l1 := false, l2 := false, l3 := false, l4 := false, l5 := false, l6 := false,
             l7 := false },
    run := .running, tinh := false, mem := [], io := Periph.reset, cfg := Config.atReset,
    script := [], free := 0 }

end Sys2Proof.Machine
end

