-- ==== Sys2Proof/Machine/Ops.lean ====
section
/-! DEFINITION. The named operations over registers, the PSW and memory (00_scope.md R8, 20_memory.md
R50 to R61), the stack, instruction fetch, and taking a trap or an interrupt (60_exceptions.md R320)
with the return from one beside it. An operation that can stop answers `Except Fault`. -/

namespace Sys2Proof.Machine

open Sys2Proof

/-- A meaning's answer as an outcome of the host's interface. -/
def toOutcome : Except Fault State → Host.Outcome State Fault Refusal
  | .ok s => .next s
  | .error f => .fault f

/-! ## Registers (R8, R20) -/

/-- `x[r]`. -/
def Regs.get (x : Regs) : Reg → Word
  | .r0 => x.r0
  | .r1 => x.r1
  | .r2 => x.r2
  | .r3 => x.r3
  | .r4 => x.r4
  | .r5 => x.r5
  | .sp => x.sp
  | .pc => x.pc

/-- `x[r] <- v`. -/
def Regs.set (x : Regs) (r : Reg) (v : Word) : Regs :=
  match r with
  | .r0 => { x with r0 := v }
  | .r1 => { x with r1 := v }
  | .r2 => { x with r2 := v }
  | .r3 => { x with r3 := v }
  | .r4 => { x with r4 := v }
  | .r5 => { x with r5 := v }
  | .sp => { x with sp := v }
  | .pc => { x with pc := v }

/-- Read general register `r`. -/
def State.get (s : State) (r : Reg) : Word :=
  s.regs.get r

/-- Write general register `r`. -/
def State.set (s : State) (r : Reg) (v : Word) : State :=
  { s with regs := s.regs.set r v }

/-- The register after `r`, `x[r|1]` for an even `r` (43_register_operand.md R190). -/
def regSucc : Reg → Reg
  | .r0 => .r1
  | .r1 => .r1
  | .r2 => .r3
  | .r3 => .r3
  | .r4 => .r5
  | .r5 => .r5
  | .sp => .pc
  | .pc => .pc

/-- Whether a register has an odd number. -/
def regIsOdd : Reg → Bool
  | .r1 | .r3 | .r5 | .pc => true
  | .r0 | .r2 | .r4 | .sp => false

/-! ## The PSW (10_state.md R23, R28) -/

/-- The PSW as the byte software sees: prio in bits 7:5, T in bit 4, N, Z, V, C in bits 3:0 (R23). -/
def Psw.toByte (p : Psw) : Byte :=
  p.prio ++ BitVec.ofBool p.t ++ BitVec.ofBool p.cc.n ++ BitVec.ofBool p.cc.z ++
    BitVec.ofBool p.cc.v ++ BitVec.ofBool p.cc.c

/-- The condition codes in the low four bits of a value, N in bit 3 (R23). -/
def Cc.ofBits (b : BitVec 4) : Cc :=
  { n := b.getLsbD 3, z := b.getLsbD 2, v := b.getLsbD 1, c := b.getLsbD 0 }

/-- The PSW a byte loads: every bit of it, but T stays 0 unless TEN is set (R28). -/
def Psw.ofByte (ten : Bool) (b : Byte) : Psw :=
  { prio := b.extractLsb' 5 3, t := b.getLsbD 4 && ten, cc := Cc.ofBits (b.extractLsb' 0 4) }

/-- `PSW <- b` (R28). -/
def State.writePsw (s : State) (b : Byte) : State :=
  { s with psw := Psw.ofByte s.cfg.settings.ten b }

/-- Write the four condition codes and leave prio and T alone. -/
def State.setCc (s : State) (cc : Cc) : State :=
  { s with psw := { s.psw with cc := cc } }

/-! ## Bytes of memory -/

/-- What an unlisted address reads as. DESIGN CHOICE (log 2): the spec gives no contents and says
that memory is total (93_implementation_defined.md U21). -/
def Memory.blank : Byte :=
  0

/-- The byte at an address. -/
def Memory.get : Memory → Nat → Byte
  | [], _ => Memory.blank
  | (k, b) :: rest, a => if k = a then b else Memory.get rest a

/-- Write the byte at an address, keeping the canonical form. -/
def Memory.put : Memory → Nat → Byte → Memory
  | [], a, b => if b = Memory.blank then [] else [(a, b)]
  | (k, v) :: rest, a, b =>
    if a < k then
      if b = Memory.blank then (k, v) :: rest else (a, b) :: (k, v) :: rest
    else if a = k then
      if b = Memory.blank then rest else (a, b) :: rest
    else (k, v) :: Memory.put rest a b

/-- Every address listed is above `lo` and below 65,536 and rises, and no byte listed is the blank
one. -/
def Memory.wfFrom (lo : Nat) : Memory → Bool
  | [] => true
  | (k, b) :: rest => decide (lo ≤ k) && decide (k < 65536) && b != Memory.blank &&
      Memory.wfFrom (k + 1) rest

/-- The canonical form of memory: strictly rising addresses of the 64 KiB space (R50), no entry equal
to what an unlisted address reads as. -/
def Memory.wf (m : Memory) : Bool :=
  Memory.wfFrom 0 m

/-- The word at an even address, little-endian (R51). -/
def Memory.word (m : Memory) (a : Word) : Word :=
  wordOfBytes (m.get a.toNat) (m.get (a.toNat + 1))

/-- Store a word at an even address, little-endian (R51). -/
def Memory.putWord (m : Memory) (a v : Word) : Memory :=
  (m.put a.toNat (lowByte v)).put (a.toNat + 1) (highByte v)

/-- Whether an address is odd. -/
def isOdd (a : Word) : Bool :=
  a.getLsbD 0

/-! ## The access primitives (20_memory.md R55 to R59) -/

/-- `MemRead(a, 2)` (R55). -/
def readWord (a : Word) (s : State) : Except Fault Word :=
  if isOdd a then .error (.oddWordAddress a) else .ok (s.mem.word a)

/-- `MemWrite(a, 2, v)` (R57). -/
def writeWord (a v : Word) (s : State) : Except Fault State :=
  if isOdd a then .error (.oddWordAddress a) else .ok { s with mem := s.mem.putWord a v }

/-- Whether a byte access at `a` is diverted to the PSW: MPSW = 1 and exactly 0xFFFE (R59). -/
def inPswWindow (a : Word) (s : State) : Bool :=
  s.cfg.settings.mpsw && a == 0xFFFE

/-- `MemRead(a, 1)` (R56, R59). -/
def readByte (a : Word) (s : State) : Byte :=
  if inPswWindow a s then s.psw.toByte else s.mem.get a.toNat

/-- `MemWrite(a, 1, b)` (R58, R59). -/
def writeByte (a : Word) (b : Byte) (s : State) : State :=
  if inPswWindow a s then s.writePsw b else { s with mem := s.mem.put a.toNat b }

/-! ## Fetch and the stack (R8) -/

/-- `fetch()`: the word at the PC, which is stepped past it (R8, R53). -/
def fetch (s : State) : Except Fault (Word × State) :=
  let a := s.get .pc
  if isOdd a then .error (.oddPc a) else .ok (s.mem.word a, s.set .pc (a + 2))

/-- `push(v)` (R8, R21). -/
def push (v : Word) (s : State) : Except Fault State :=
  let a := s.get .sp - 2
  writeWord a v (s.set .sp a)

/-- `pop()` (R8, R21). -/
def pop (s : State) : Except Fault (Word × State) := do
  let a := s.get .sp
  let v ← readWord a s
  .ok (v, s.set .sp (a + 2))

/-! ## Taking a trap or an interrupt, and returning (60_exceptions.md R320, R326, R328) -/

/-- The byte address of a trap's vector (R311). -/
def vectorAddress (number : BitVec 15) : Word :=
  number ++ (0 : BitVec 1)

/-- `Enter(vec)` (R320): push the PSW, whose upper byte is unspecified (U8, log 11), push the PC, load
both from the vector with T forced to 0 (R326), and run. -/
def enter (vec : Word) (s : State) : Except Fault State := do
  let upper := Config.freeByte s.free
  let s1 ← push (upper ++ s.psw.toByte) { s with free := s.free + 1 }
  let s2 ← push (s1.get .pc) s1
  let newPc ← readWord vec s2
  let newPsw ← readWord (vec + 2) s2
  .ok { s2.set .pc newPc with
        psw := { Psw.ofByte s2.cfg.settings.ten (lowByte newPsw) with t := false }, run := .running }

/-- The return of RTI and RTT (R328, 46_trap_system.md R264): pop the PC, then the PSW. -/
def returnFromInterrupt (s : State) : Except Fault State := do
  let p ← pop s
  let q ← pop (p.2.set .pc p.1)
  .ok (q.2.writePsw (lowByte q.1))

/-- An illegal opcode (30_encoding.md R100, 60_exceptions.md R317), the PC already past the word: the
Illegal Operation trap with ILE = 1, nothing with ILE = 0. -/
def illegalOpcode (s : State) : Except Fault State :=
  if s.cfg.settings.ile then enter (vectorAddress s.cfg.vec.illegal) s else .ok s

end Sys2Proof.Machine
end

