-- ==== Sys2Proof/Machine/Branch.lean ====
section
/-! DEFINITION. The fifteen branches (44_branch.md R210 to R225). -/

namespace Sys2Proof.Machine

open Sys2Proof

/-- The target of a branch (R210): the PC, already past the branch, plus twice the signed offset. -/
def branchTarget (offset : BitVec 8) (s : State) : Word :=
  s.get .pc + 2 * offset.signExtend 16

/-- Branch when the condition holds, else go on; nothing but the PC changes (R210). -/
def branchIf (cond : Bool) (offset : BitVec 8) (s : State) : State :=
  if cond then s.set .pc (branchTarget offset s) else s

/-- BR (R211). -/
def execBr (offset : BitVec 8) (s : State) : Host.Outcome State Fault Refusal :=
  .next (branchIf true offset s)

/-- BNE (R212). -/
def execBne (offset : BitVec 8) (s : State) : Host.Outcome State Fault Refusal :=
  .next (branchIf (!s.psw.cc.z) offset s)

/-- BEQ (R213). -/
def execBeq (offset : BitVec 8) (s : State) : Host.Outcome State Fault Refusal :=
  .next (branchIf s.psw.cc.z offset s)

/-- BGE (R220). -/
def execBge (offset : BitVec 8) (s : State) : Host.Outcome State Fault Refusal :=
  .next (branchIf (!(s.psw.cc.n ^^ s.psw.cc.v)) offset s)

/-- BLT (R221). -/
def execBlt (offset : BitVec 8) (s : State) : Host.Outcome State Fault Refusal :=
  .next (branchIf (s.psw.cc.n ^^ s.psw.cc.v) offset s)

/-- BGT (R222). -/
def execBgt (offset : BitVec 8) (s : State) : Host.Outcome State Fault Refusal :=
  .next (branchIf (!s.psw.cc.z && !(s.psw.cc.n ^^ s.psw.cc.v)) offset s)

/-- BLE (R223). -/
def execBle (offset : BitVec 8) (s : State) : Host.Outcome State Fault Refusal :=
  .next (branchIf (s.psw.cc.z || (s.psw.cc.n ^^ s.psw.cc.v)) offset s)

/-- BPL (R214). -/
def execBpl (offset : BitVec 8) (s : State) : Host.Outcome State Fault Refusal :=
  .next (branchIf (!s.psw.cc.n) offset s)

/-- BMI (R215). -/
def execBmi (offset : BitVec 8) (s : State) : Host.Outcome State Fault Refusal :=
  .next (branchIf s.psw.cc.n offset s)

/-- BHI (R224). -/
def execBhi (offset : BitVec 8) (s : State) : Host.Outcome State Fault Refusal :=
  .next (branchIf (!s.psw.cc.c && !s.psw.cc.z) offset s)

/-- BLOS (R225). -/
def execBlos (offset : BitVec 8) (s : State) : Host.Outcome State Fault Refusal :=
  .next (branchIf (s.psw.cc.c || s.psw.cc.z) offset s)

/-- BVC (R216). -/
def execBvc (offset : BitVec 8) (s : State) : Host.Outcome State Fault Refusal :=
  .next (branchIf (!s.psw.cc.v) offset s)

/-- BVS (R217). -/
def execBvs (offset : BitVec 8) (s : State) : Host.Outcome State Fault Refusal :=
  .next (branchIf s.psw.cc.v offset s)

/-- BCC (R218). -/
def execBcc (offset : BitVec 8) (s : State) : Host.Outcome State Fault Refusal :=
  .next (branchIf (!s.psw.cc.c) offset s)

/-- BCS (R219). -/
def execBcs (offset : BitVec 8) (s : State) : Host.Outcome State Fault Refusal :=
  .next (branchIf s.psw.cc.c offset s)

end Sys2Proof.Machine
end

