-- ==== Sys2Proof/Machine/Flags.lean ====
section
/-! DEFINITION. What the instructions compute: the result and the condition codes, once for both
operand widths (10_state.md R24 to R27 and the rules of 41, 42 and 43). Each function takes the
condition codes before the instruction and gives the result and the condition codes after it. -/

namespace Sys2Proof.Machine

open Sys2Proof

/-- N and Z of a result (R26, R27), with the given V and C. -/
def nzOf {w : Nat} (r : BitVec w) (v c : Bool) : Cc :=
  { n := r.msb, z := r == 0, v := v, c := c }

/-- The carry bit as a number. -/
def carryNat (cc : Cc) : Nat :=
  cc.c.toNat

/-! ## Single operand (41_single_operand.md) -/

/-- CLR (R141). -/
def aluClr {w : Nat} : BitVec w × Cc :=
  (0, { n := false, z := true, v := false, c := false })

/-- COM (R142). -/
def aluCom {w : Nat} (_ : Cc) (d : BitVec w) : BitVec w × Cc :=
  (~~~d, nzOf (~~~d) false true)

/-- INC (R143): V when the destination held the largest positive number, C kept. -/
def aluInc {w : Nat} (cc : Cc) (d : BitVec w) : BitVec w × Cc :=
  (d + 1, nzOf (d + 1) (d.toNat == 2 ^ (w - 1) - 1) cc.c)

/-- DEC (R144): V when the destination held the most negative number, C kept. -/
def aluDec {w : Nat} (cc : Cc) (d : BitVec w) : BitVec w × Cc :=
  (d - 1, nzOf (d - 1) (d.toNat == 2 ^ (w - 1)) cc.c)

/-- NEG (R145): V when the result is the most negative number, C unless the result is zero. -/
def aluNeg {w : Nat} (_ : Cc) (d : BitVec w) : BitVec w × Cc :=
  (-d, nzOf (-d) ((-d).toNat == 2 ^ (w - 1)) (-d != 0))

/-- TST (R146): the condition codes only. -/
def ccTst {w : Nat} (d : BitVec w) : Cc :=
  nzOf d false false

/-- The codes of a shift or rotate by one place (R147 to R150): V is new N xor new C. -/
def ccShift {w : Nat} (r : BitVec w) (c : Bool) : Cc :=
  nzOf r (r.msb ^^ c) c

/-- ASR (R147). -/
def aluAsr {w : Nat} (_ : Cc) (d : BitVec w) : BitVec w × Cc :=
  (d.sshiftRight 1, ccShift (d.sshiftRight 1) (d.getLsbD 0))

/-- ASL (R148). -/
def aluAsl {w : Nat} (_ : Cc) (d : BitVec w) : BitVec w × Cc :=
  (d <<< 1, ccShift (d <<< 1) d.msb)

/-- The result of ROR (R149): the old C above bits W-1:1. -/
def rorResult {w : Nat} (c : Bool) (d : BitVec w) : BitVec w :=
  (d >>> 1) ||| (if c then BitVec.ofNat w (2 ^ (w - 1)) else 0)

/-- The result of ROL (R150): bits W-2:0 above the old C. -/
def rolResult {w : Nat} (c : Bool) (d : BitVec w) : BitVec w :=
  (d <<< 1) ||| (if c then 1 else 0)

/-- ROR (R149). -/
def aluRor {w : Nat} (cc : Cc) (d : BitVec w) : BitVec w × Cc :=
  (rorResult cc.c d, ccShift (rorResult cc.c d) (d.getLsbD 0))

/-- ROL (R150). -/
def aluRol {w : Nat} (cc : Cc) (d : BitVec w) : BitVec w × Cc :=
  (rolResult cc.c d, ccShift (rolResult cc.c d) d.msb)

/-- SWAB (R151): the two bytes exchanged; N and Z from the 16-bit result, or from its low byte when
SWAB_FLAGS_LOW_BYTE is set (log 23). -/
def aluSwab (flagsLowByte : Bool) (_ : Cc) (d : Word) : Word × Cc :=
  let r : Word := d.extractLsb' 0 8 ++ d.extractLsb' 8 8
  (r, if flagsLowByte then nzOf (r.extractLsb' 0 8) false false else nzOf r false false)

/-- ADC (R152). -/
def aluAdc {w : Nat} (cc : Cc) (d : BitVec w) : BitVec w × Cc :=
  let r := d + BitVec.ofNat w (carryNat cc)
  (r, nzOf r (d.toNat == 2 ^ (w - 1) - 1 && cc.c) (decide (2 ^ w ≤ d.toNat + carryNat cc)))

/-- SBC (R153): C is the borrow. -/
def aluSbc {w : Nat} (cc : Cc) (d : BitVec w) : BitVec w × Cc :=
  let r := d - BitVec.ofNat w (carryNat cc)
  (r, nzOf r (d.toNat == 2 ^ (w - 1) && cc.c) (decide (d.toNat < carryNat cc)))

/-- SXT (R154): all ones or zero by N; only Z changes. -/
def aluSxt (cc : Cc) : Word × Cc :=
  let r : Word := if cc.n then 0xFFFF else 0
  (r, { cc with z := r == 0 })

/-! ## Double operand (42_double_operand.md) -/

/-- The codes of MOV, BIT, BIC, BIS, XOR, IOR (R171, R175 to R177, R195, R292): N and Z of the value,
V cleared, C kept. -/
def ccLogic {w : Nat} (cc : Cc) (r : BitVec w) : Cc :=
  nzOf r false cc.c

/-- The codes of the subtraction a - b (R24, R25): C is the borrow. -/
def ccSub {w : Nat} (a b : BitVec w) : Cc :=
  nzOf (a - b) (a.msb != b.msb && (a - b).msb == b.msb) (decide (a.toNat < b.toNat))

/-- The codes of the addition a + b (R24, R25). -/
def ccAdd {w : Nat} (a b : BitVec w) : Cc :=
  nzOf (a + b) (a.msb == b.msb && (a + b).msb != b.msb) (decide (2 ^ w ≤ a.toNat + b.toNat))

/-- ADD (R173): dst + src. -/
def aluAdd (_ : Cc) (s d : Word) : Word × Cc :=
  (d + s, ccAdd s d)

/-- SUB (R174): dst - src. -/
def aluSub (_ : Cc) (s d : Word) : Word × Cc :=
  (d - s, ccSub d s)

/-- CMP (R172): the codes of src - dst. -/
def ccCmp {w : Nat} (_ : Cc) (s d : BitVec w) : Cc :=
  ccSub s d

/-- BIT (R175): the codes of src AND dst. -/
def ccBit {w : Nat} (cc : Cc) (s d : BitVec w) : Cc :=
  ccLogic cc (s &&& d)

/-- BIC (R176). -/
def aluBic {w : Nat} (cc : Cc) (s d : BitVec w) : BitVec w × Cc :=
  (d &&& ~~~s, ccLogic cc (d &&& ~~~s))

/-- BIS (R177). -/
def aluBis {w : Nat} (cc : Cc) (s d : BitVec w) : BitVec w × Cc :=
  (d ||| s, ccLogic cc (d ||| s))

/-- XOR (R195). -/
def aluXor (cc : Cc) (s d : Word) : Word × Cc :=
  (s ^^^ d, ccLogic cc (s ^^^ d))

/-! ## Register pairs (43_register_operand.md) -/

/-- MUL (R191): the exact signed product as 32 bits; C as printed in the source, with 32,767 on the
carrying side (log 22). -/
def aluMul (a b : Word) : Long × Cc :=
  let p : Int := a.toInt * b.toInt
  (BitVec.ofInt 32 p,
    { n := decide (p < 0), z := decide (p = 0), v := false,
      c := decide (p < -32768) || decide (32767 ≤ p) })

/-- The row that the table of DIV_NUMERICS has for these operands (R192, D20; log 18). -/
def divListed (cfg : Config) (hi lo src : Word) : Option DivRule :=
  (cfg.div.find? fun e => e.hi == hi && e.lo == lo && e.src == src).map (·.rule)

/-- DIV_NUMERICS at these operands: the row listed for them, else the switches, and free values where
D20 names no default (U5, U6; log 18). -/
def divRule (cfg : Config) (hi lo src : Word) : DivRule :=
  (divListed cfg hi lo src).getD
    { rounding := cfg.sw.divRounding, vReading := cfg.sw.divVReading,
      writesOnV := cfg.sw.divWritesOnV,
      pair := if src = 0 then Config.divZeroPair hi lo src else Config.divOverflowQuotient hi lo src,
      n := (Config.divZeroNZ hi lo src).1, z := (Config.divZeroNZ hi lo src).2 }

/-- The quotient of D by b under a rounding (R192, D20). -/
def divQuotient (rounding : DivRounding) (dividend divisor : Int) : Int :=
  match rounding with
  | .towardZero => dividend.tdiv divisor
  | .towardNegInf => dividend.fdiv divisor
  | .towardPosInf => -((-dividend).fdiv divisor)

/-- V of DIV for a divisor that is not zero (R192), by either reading of the sentence. -/
def divV (reading : DivVReading) (hi : Word) (dividend divisor : Int) : Bool :=
  match reading with
  | .pair => decide (divisor.natAbs < dividend.natAbs)
  | .highWord => decide (divisor.natAbs < hi.toInt.natAbs)

/-- The quotient of DIV as 32 bits for a divisor that is not zero. The one quotient that does not
fit, -2^31 by -1, is the rule's own (U6, log 18). -/
def divResult (rule : DivRule) (hi lo src : Word) : Long :=
  let dividend : Int := (hi ++ lo : Long).toInt
  if hi = 0x8000 ∧ lo = 0 ∧ src = 0xFFFF then rule.pair
  else BitVec.ofInt 32 (divQuotient rule.rounding dividend src.toInt)

/-- DIV under a rule for its operands (R192): what it writes into the pair, `none` when the pair is
not written, and the condition codes. By zero V and C are set and the rest is the rule's (U5). -/
def aluDiv (rule : DivRule) (hi lo src : Word) : Option Long × Cc :=
  if src = 0 then (some rule.pair, { n := rule.n, z := rule.z, v := true, c := true })
  else
    let q := divResult rule hi lo src
    let v := divV rule.vReading hi (hi ++ lo : Long).toInt src.toInt
    (if v && !rule.writesOnV then none else some q, nzOf q v false)

/-- The shift count of ASH and ASHC: the low six bits as a signed number (R193). -/
def shiftCount (src : Word) : Int :=
  (src.extractLsb' 0 6).toInt

/-- A left shift by `n` places, one at a time (R193, R194): the result, the last bit shifted out, and
whether the sign ever differed from the first one. -/
def shiftLeftBy {w : Nat} (n : Nat) (v : BitVec w) : BitVec w × Bool × Bool :=
  (v <<< n, decide (n ≤ w) && v.getLsbD (w - n),
    (List.range n).any fun i => (v <<< (i + 1)).msb != v.msb)

/-- A right shift by `m` places that copies the sign (R193, R194): the result and the last bit
shifted out. -/
def shiftRightBy {w : Nat} (m : Nat) (v : BitVec w) : BitVec w × Bool :=
  (v.sshiftRight (min m (w - 1)), if m ≤ w then v.getLsbD (m - 1) else v.msb)

/-- ASH and ASHC (R193, R194) on a value of either width. -/
def aluShift {w : Nat} (onZero : AshCOnZero) (cc : Cc) (count : Int) (v : BitVec w) :
    BitVec w × Cc :=
  match count with
  | .ofNat 0 =>
    (v, nzOf v false (match onZero with
      | .cleared => false
      | .unchanged => cc.c))
  | .ofNat (n + 1) =>
    let r := shiftLeftBy (n + 1) v
    (r.1, nzOf r.1 r.2.2 r.2.1)
  | .negSucc m =>
    let r := shiftRightBy (m + 1) v
    (r.1, nzOf r.1 false r.2)

/-! ## Condition code operators (48_condition_codes.md R300) -/

/-- Set or clear the codes that the mask N, Z, V, C selects; leave the others. -/
def ccOperate (set n z v c : Bool) (cc : Cc) : Cc :=
  { n := if n then set else cc.n, z := if z then set else cc.z, v := if v then set else cc.v,
    c := if c then set else cc.c }

end Sys2Proof.Machine
end

