-- ==== Sys2Proof/Machine/ConditionCode.lean ====
section
/-! DEFINITION. The condition code operators (48_condition_codes.md R300 to R302). -/

namespace Sys2Proof.Machine

open Sys2Proof

/-- Apply a condition code operator (R300): nothing else changes. -/
def operateCc (set n z v c : Bool) (s : State) : State :=
  s.setCc (ccOperate set n z v c s.psw.cc)

/-- CCOP, the general operator (R300). -/
def execCcop (set n z v c : Bool) (s : State) : Host.Outcome State Fault Refusal :=
  .next (operateCc set n z v c s)

/-- CLC (R301). -/
def execClc (s : State) : Host.Outcome State Fault Refusal :=
  .next (operateCc false false false false true s)

/-- CLV (R301). -/
def execClv (s : State) : Host.Outcome State Fault Refusal :=
  .next (operateCc false false false true false s)

/-- CLZ (R301). -/
def execClz (s : State) : Host.Outcome State Fault Refusal :=
  .next (operateCc false false true false false s)

/-- CLN (R301). -/
def execCln (s : State) : Host.Outcome State Fault Refusal :=
  .next (operateCc false true false false false s)

/-- CCC (R301). -/
def execCcc (s : State) : Host.Outcome State Fault Refusal :=
  .next (operateCc false true true true true s)

/-- SEC (R301). -/
def execSec (s : State) : Host.Outcome State Fault Refusal :=
  .next (operateCc true false false false true s)

/-- SEV (R301). -/
def execSev (s : State) : Host.Outcome State Fault Refusal :=
  .next (operateCc true false false true false s)

/-- SEZ (R301). -/
def execSez (s : State) : Host.Outcome State Fault Refusal :=
  .next (operateCc true false true false false s)

/-- SEN (R301). -/
def execSen (s : State) : Host.Outcome State Fault Refusal :=
  .next (operateCc true true false false false s)

/-- SCC (R301). -/
def execScc (s : State) : Host.Outcome State Fault Refusal :=
  .next (operateCc true true true true true s)

/-- NOP (R302). -/
def execNop (s : State) : Host.Outcome State Fault Refusal :=
  .next (operateCc false false false false false s)

end Sys2Proof.Machine
end

