-- ==== Sys2Proof/Machine/Operands.lean ====
section
/-! DEFINITION. Operand resolution and access (40_addressing_modes.md R110 to R129), and the templates
that the instruction families share (41_single_operand.md R140, 42_double_operand.md R170). -/

namespace Sys2Proof.Machine

open Sys2Proof

/-- Where an operand is: a register or an address of memory (R120). -/
inductive Loc where
  | reg (r : Reg)
  | mem (a : Word)
  deriving DecidableEq, Repr

/-- The step of modes 2 and 4 (R123): 2 in a word instruction and for the PC, SP_BYTE_STEP for the SP
in a byte instruction, else 1. -/
def stepDelta (sz : Size) (r : Reg) (s : State) : Word :=
  match sz, r with
  | .word, _ => 2
  | .byte, .pc => 2
  | .byte, .sp =>
    match s.cfg.sw.spByteStep with
    | .one => 1
    | .two => 2
  | .byte, _ => 1

/-- `operand(mode, rn, size)` (R120): the location of an operand, with every side effect of its mode
performed once. DESIGN CHOICE (log 43): a byte immediate (mode 2 on R7) is a location of memory like
any other, so that its extension word is accessed as a byte. -/
def operand (o : Operand) (sz : Size) (s : State) : Except Fault (Loc × State) :=
  match o.mode with
  | .register => .ok (.reg o.rn, s)
  | .deferred => .ok (.mem (s.get o.rn), s)
  | .autoinc => .ok (.mem (s.get o.rn), s.set o.rn (s.get o.rn + stepDelta sz o.rn s))
  | .autoincDeferred => do
    let s1 := s.set o.rn (s.get o.rn + 2)
    let a ← readWord (s.get o.rn) s1
    .ok (.mem a, s1)
  | .autodec =>
    let a := s.get o.rn - stepDelta sz o.rn s
    .ok (.mem a, s.set o.rn a)
  | .autodecDeferred => do
    let p := s.get o.rn - 2
    let s1 := s.set o.rn p
    let a ← readWord p s1
    .ok (.mem a, s1)
  | .indexed => do
    let x ← fetch s
    .ok (.mem (x.2.get o.rn + x.1), x.2)
  | .indexedDeferred => do
    let x ← fetch s
    let a ← readWord (x.2.get o.rn + x.1) x.2
    .ok (.mem a, x.2)

/-- `ea(mode, rn)` (R129): the operand's address, or the register's value in mode 0. -/
def effectiveAddress (o : Operand) (s : State) : Except Fault (Word × State) := do
  let p ← operand o .word s
  .ok (match p.1 with
    | .reg r => p.2.get r
    | .mem a => a, p.2)

/-! ## Reading and writing a location (R121, R122, R125) -/

/-- `rd(loc, 2)`. -/
def rdWord (l : Loc) (s : State) : Except Fault Word :=
  match l with
  | .reg r => .ok (s.get r)
  | .mem a => readWord a s

/-- `rd(loc, 1)`: bits 7:0 of a register (R125). DESIGN CHOICE (log 43): a byte immediate is read by
`MemRead(a, 1)` as R121 has it, not as the word access that R62 lists for extension words; at 0xFFFE
with MPSW = 1 it reads the PSW (20_memory.md R59). -/
def rdByte (l : Loc) (s : State) : Byte :=
  match l with
  | .reg r => lowByte (s.get r)
  | .mem a => readByte a s

/-- `wr(loc, 2, v)`. -/
def wrWord (l : Loc) (v : Word) (s : State) : Except Fault State :=
  match l with
  | .reg r => .ok (s.set r v)
  | .mem a => writeWord a v s

/-- `wr(loc, 1, v)`: bits 15:8 of a register are kept (R125). A byte destination in immediate mode is
written by `MemWrite(a, 1, v)`, at 0xFFFE with MPSW = 1 to the PSW (DESIGN CHOICE, log 43). -/
def wrByte (l : Loc) (b : Byte) (s : State) : State :=
  match l with
  | .reg r => s.set r (highByte (s.get r) ++ b)
  | .mem a => writeByte a b s

/-- Whether a byte access at this location is diverted to the PSW (20_memory.md R59). -/
def hitsPswWindow (l : Loc) (s : State) : Bool :=
  match l with
  | .reg _ => false
  | .mem a => inPswWindow a s

/-- Write a word result and the condition codes. -/
def commitWord (l : Loc) (r : Word × Cc) (s : State) : Except Fault State := do
  let s1 ← wrWord l r.1 s
  .ok (s1.setCc r.2)

/-- The condition codes after a write through the PSW window by an instruction that also sets some of
its own: which write lands last is open, so all four are a free value (U12, log 17). -/
def State.freeCcAfterWindow (s : State) : State :=
  { s.setCc (Cc.ofBits (Config.freeCc s.free)) with free := s.free + 1 }

/-- Write a byte result and the condition codes. -/
def commitByte (l : Loc) (r : Byte × Cc) (s : State) : State :=
  let s1 := wrByte l r.1 s
  if hitsPswWindow l s then s1.freeCcAfterWindow else s1.setCc r.2

/-! ## Templates: single operand (R140) -/

/-- Read, compute, write back: a word. -/
def modifyWord (f : Cc → Word → Word × Cc) (d : Operand) (s : State) : Except Fault State := do
  let p ← operand d .word s
  let v ← rdWord p.1 p.2
  commitWord p.1 (f p.2.psw.cc v) p.2

/-- Read, compute, write back: a byte. -/
def modifyByte (f : Cc → Byte → Byte × Cc) (d : Operand) (s : State) : Except Fault State := do
  let p ← operand d .byte s
  .ok (commitByte p.1 (f p.2.psw.cc (rdByte p.1 p.2)) p.2)

/-- Compute and write without reading the destination (CLR, SXT): a word. -/
def produceWord (f : Cc → Word × Cc) (d : Operand) (s : State) : Except Fault State := do
  let p ← operand d .word s
  commitWord p.1 (f p.2.psw.cc) p.2

/-- Compute and write without reading the destination (CLRB): a byte. -/
def produceByte (f : Cc → Byte × Cc) (d : Operand) (s : State) : Except Fault State := do
  let p ← operand d .byte s
  .ok (commitByte p.1 (f p.2.psw.cc) p.2)

/-- Read and set the condition codes (TST): a word. -/
def testWord (f : Word → Cc) (d : Operand) (s : State) : Except Fault State := do
  let p ← operand d .word s
  let v ← rdWord p.1 p.2
  .ok (p.2.setCc (f v))

/-- Read and set the condition codes (TSTB): a byte. -/
def testByte (f : Byte → Cc) (d : Operand) (s : State) : Except Fault State := do
  let p ← operand d .byte s
  .ok (p.2.setCc (f (rdByte p.1 p.2)))

/-! ## Templates: double operand (R170, order of R124) -/

/-- Resolve and read a word source. -/
def sourceWord (o : Operand) (s : State) : Except Fault (Word × State) := do
  let p ← operand o .word s
  let v ← rdWord p.1 p.2
  .ok (v, p.2)

/-- Resolve and read a byte source. -/
def sourceByte (o : Operand) (s : State) : Except Fault (Byte × State) := do
  let p ← operand o .byte s
  .ok (rdByte p.1 p.2, p.2)

/-- Source, then destination, compute, write back: words. -/
def combineWord (f : Cc → Word → Word → Word × Cc) (src dst : Operand) (s : State) :
    Except Fault State := do
  let p ← sourceWord src s
  modifyWord (fun cc d => f cc p.1 d) dst p.2

/-- Source, then destination, compute, write back: bytes. -/
def combineByte (f : Cc → Byte → Byte → Byte × Cc) (src dst : Operand) (s : State) :
    Except Fault State := do
  let p ← sourceByte src s
  modifyByte (fun cc d => f cc p.1 d) dst p.2

/-- Source, then destination, condition codes only (CMP, BIT): words. -/
def compareWord (f : Cc → Word → Word → Cc) (src dst : Operand) (s : State) :
    Except Fault State := do
  let p ← sourceWord src s
  let q ← sourceWord dst p.2
  .ok (q.2.setCc (f q.2.psw.cc p.1 q.1))

/-- Source, then destination, condition codes only (CMPB, BITB): bytes. -/
def compareByte (f : Cc → Byte → Byte → Cc) (src dst : Operand) (s : State) :
    Except Fault State := do
  let p ← sourceByte src s
  let q ← sourceByte dst p.2
  .ok (q.2.setCc (f q.2.psw.cc p.1 q.1))

end Sys2Proof.Machine
end

