-- ==== Sys2Proof/Machine/DoubleOperand.lean ====
section
/-! DEFINITION. The double-operand instructions (42_double_operand.md R170 to R177). -/

namespace Sys2Proof.Machine

open Sys2Proof

/-- What MOVB does with its byte (R171): a register destination takes it sign-extended, with the
condition codes of the byte; memory takes the byte. -/
def moveByte (v : Byte) (dst : Operand) (s : State) : Except Fault State := do
  let p ← operand dst .byte s
  match p.1 with
  | .reg r => .ok ((p.2.set r (v.signExtend 16)).setCc (ccLogic p.2.psw.cc v))
  | .mem a => .ok (commitByte (.mem a) (v, ccLogic p.2.psw.cc v) p.2)

/-- MOV (R171): the destination is not read. -/
def execMov (src dst : Operand) (s : State) : Host.Outcome State Fault Refusal :=
  toOutcome do
    let p ← sourceWord src s
    produceWord (fun cc => (p.1, ccLogic cc p.1)) dst p.2

/-- MOVB (R171). -/
def execMovb (src dst : Operand) (s : State) : Host.Outcome State Fault Refusal :=
  toOutcome do
    let p ← sourceByte src s
    moveByte p.1 dst p.2

/-- CMP (R172): src minus dst. -/
def execCmp (src dst : Operand) (s : State) : Host.Outcome State Fault Refusal :=
  toOutcome (compareWord ccCmp src dst s)

/-- CMPB (R172). -/
def execCmpb (src dst : Operand) (s : State) : Host.Outcome State Fault Refusal :=
  toOutcome (compareByte ccCmp src dst s)

/-- BIT (R175). -/
def execBit (src dst : Operand) (s : State) : Host.Outcome State Fault Refusal :=
  toOutcome (compareWord ccBit src dst s)

/-- BITB (R175). -/
def execBitb (src dst : Operand) (s : State) : Host.Outcome State Fault Refusal :=
  toOutcome (compareByte ccBit src dst s)

/-- BIC (R176). -/
def execBic (src dst : Operand) (s : State) : Host.Outcome State Fault Refusal :=
  toOutcome (combineWord aluBic src dst s)

/-- BICB (R176). -/
def execBicb (src dst : Operand) (s : State) : Host.Outcome State Fault Refusal :=
  toOutcome (combineByte aluBic src dst s)

/-- BIS (R177). -/
def execBis (src dst : Operand) (s : State) : Host.Outcome State Fault Refusal :=
  toOutcome (combineWord aluBis src dst s)

/-- BISB (R177). -/
def execBisb (src dst : Operand) (s : State) : Host.Outcome State Fault Refusal :=
  toOutcome (combineByte aluBis src dst s)

/-- ADD (R173). -/
def execAdd (src dst : Operand) (s : State) : Host.Outcome State Fault Refusal :=
  toOutcome (combineWord aluAdd src dst s)

/-- SUB (R174): dst minus src. -/
def execSub (src dst : Operand) (s : State) : Host.Outcome State Fault Refusal :=
  toOutcome (combineWord aluSub src dst s)

end Sys2Proof.Machine
end

