-- ==== Sys2Proof/Machine/Interrupts.lean ====
section
/-! DEFINITION. Traps and interrupt requests between instructions (60_exceptions.md R310 to R336): the
latches, which request is acceptable, its service, the end-of-instruction check and the wait state. -/

namespace Sys2Proof.Machine

open Sys2Proof

/-! ## The latches (R32, R322) -/

/-- `irq[k]`. -/
def IrqLatches.get (l : IrqLatches) : Irq → Bool
  | .irq1 => l.l1
  | .irq2 => l.l2
  | .irq3 => l.l3
  | .irq4 => l.l4
  | .irq5 => l.l5
  | .irq6 => l.l6
  | .irq7 => l.l7

/-- `irq[k] <- b`. -/
def IrqLatches.set (l : IrqLatches) (k : Irq) (b : Bool) : IrqLatches :=
  match k with
  | .irq1 => { l with l1 := b }
  | .irq2 => { l with l2 := b }
  | .irq3 => { l with l3 := b }
  | .irq4 => { l with l4 := b }
  | .irq5 => { l with l5 := b }
  | .irq6 => { l with l6 := b }
  | .irq7 => { l with l7 := b }

/-- The number of a request line, which is its priority (R321). -/
def Irq.number : Irq → Nat
  | .irq1 => 1
  | .irq2 => 2
  | .irq3 => 3
  | .irq4 => 4
  | .irq5 => 5
  | .irq6 => 6
  | .irq7 => 7

/-- The request lines, the highest priority first (R331). -/
def Irq.byPriority : List Irq :=
  [.irq7, .irq6, .irq5, .irq4, .irq3, .irq2, .irq1]

/-! ## Acceptance and service (R323 to R325) -/

/-- IRQ k is acceptable when its latch is set and k > prio (R323). -/
def acceptable (s : State) (k : Irq) : Bool :=
  s.irq.get k && decide (s.psw.prio.toNat < k.number)

/-- The acceptable request with the highest number, if any (R324, R331). -/
def highestAcceptable (s : State) : Option Irq :=
  Irq.byPriority.find? (acceptable s)

/-- The vector of IRQ k at the byte address IVB + 4*k (R325). -/
def irqVector (s : State) (k : Irq) : Word :=
  s.ivb + BitVec.ofNat 16 (4 * k.number)

/-- `ServeIrq(k)` (R324): enter through the request's vector, then clear its latch. -/
def serveIrq (k : Irq) (s : State) : Except Fault State := do
  let t ← enter (irqVector s k) s
  .ok { t with irq := t.irq.set k false }

/-! ## Traps (R311) -/

/-- The traps raised by an instruction's own effect or by the end-of-instruction check. -/
inductive Trap where
  | emt
  | trap
  | bpt
  | iot
  | trace
  deriving DecidableEq, Repr

/-- `VEC_k` (R311). -/
def trapVector (s : State) : Trap → Word
  | .emt => vectorAddress s.cfg.vec.emt
  | .trap => vectorAddress s.cfg.vec.trap
  | .bpt => vectorAddress s.cfg.vec.bpt
  | .iot => vectorAddress s.cfg.vec.iot
  | .trace => vectorAddress s.cfg.vec.trace

/-- `raise Trap(k)` (R320). -/
def raiseTrap (k : Trap) (s : State) : Except Fault State :=
  enter (trapVector s k) s

/-! ## The end-of-instruction check and the wait state (R330, R333, R335) -/

/-- `EndCheck(tinh)` (R330): at most one event, the trace trap or the highest acceptable request, with
the trace inhibit of RTT consumed (R333). -/
def endCheck (s : State) : Except Fault State :=
  let trace := s.psw.t && !s.tinh
  let s1 := { s with tinh := false }
  match highestAcceptable s1 with
  | none => if trace then raiseTrap .trace s1 else .ok s1
  | some k =>
    if trace && s1.cfg.sw.eventOrder == .traceFirst then raiseTrap .trace s1 else serveIrq k s1

/-- The request that ends a wait (R335): the highest acceptable one, or with WAIT_WAKE_IGNORES_PRIO the
highest one whose latch is set. -/
def wakingIrq (s : State) : Option Irq :=
  if s.cfg.sw.waitWakeIgnoresPrio then Irq.byPriority.find? s.irq.get else highestAcceptable s

/-- The CPU's move in the wait state (R335): serve the waking request, or stay. -/
def waitStep (s : State) : Except Fault State :=
  match wakingIrq s with
  | some k => serveIrq k s
  | none => .ok s

end Sys2Proof.Machine
end

