-- ==== Sys2Proof/Machine/Peripherals.lean ====
section
/-! DEFINITION. The on-chip peripherals (60_exceptions.md R349 to R380): the I/O registers as IOR and
IOW reach them (47_io.md R290, R291), the events that happen between instructions, and the host's
reset (70_reset_and_hazards.md R390 to R392). -/

namespace Sys2Proof.Machine

open Sys2Proof

/-! ## The I/O map (R350) -/

/-- The connected I/O registers. -/
inductive IoReg where
  | ddra | porta | pina | inta | t0pre | t1pre | ttop0 | ttop1 | tmr0 | tmr1 | tint | sdiv | sdr
  | sbys | udiv | udr | ubsy
  deriving DecidableEq, Repr

/-- The register at an I/O address; `none` at the unconnected ones, 0x11 to 0xFF (R350, R380). -/
def ioReg (a : Byte) : Option IoReg :=
  match a.toNat with
  | 0x00 => some .ddra
  | 0x01 => some .porta
  | 0x02 => some .pina
  | 0x03 => some .inta
  | 0x04 => some .t0pre
  | 0x05 => some .t1pre
  | 0x06 => some .ttop0
  | 0x07 => some .ttop1
  | 0x08 => some .tmr0
  | 0x09 => some .tmr1
  | 0x0A => some .tint
  | 0x0B => some .sdiv
  | 0x0C => some .sdr
  | 0x0D => some .sbys
  | 0x0E => some .udiv
  | 0x0F => some .udr
  | 0x10 => some .ubsy
  | _ => none

/-- The low `n` bits of a word, the others zero. -/
def lowBits (n : Nat) (v : Word) : Word :=
  v &&& BitVec.ofNat 16 (2 ^ n - 1)

/-- A register of `n` bits as a word: the bits above its width by IO_UNUSED_BITS, where `any` takes
them from an unspecified word (R290, U11, log 12). -/
def withUnused (policy : IoUnusedBits) (n : Nat) (v unspecified : Word) : Word :=
  let above := ~~~(lowBits n 0xFFFF)
  match policy with
  | .zero => lowBits n v
  | .ones => lowBits n v ||| above
  | .any => lowBits n v ||| (unspecified &&& above)

/-- PINA (R353): the pin levels where the pin is an input; where it is an output the bit is
unspecified (U26, log 16). -/
def pinaBits (io : Periph) (unspecified : Word) : BitVec 7 :=
  (io.pins &&& ~~~io.ddra) ||| (unspecified.extractLsb' 0 7 &&& io.ddra)

/-- INTA (R354): bits 4:1 are the enables; bits 0, 5 and 6 have no function and their value is not
stated (log 13). -/
def intaBits (io : Periph) (unspecified : Word) : BitVec 7 :=
  unspecified.extractLsb' 5 2 ++ io.inta ++ unspecified.extractLsb' 0 1

/-- The byte SDR reads (R371): the byte received, unspecified while a transfer is shifting (U13,
log 15). -/
def sdrByte (io : Periph) (unspecified : Word) : Byte :=
  if io.sbys then lowByte unspecified else io.spiRx

/-- A one-bit flag as SBYS and UBSY read: exactly 0 or 1 (R290). -/
def flagWord (b : Bool) : Word :=
  if b then 1 else 0

/-- The read value of a register (R351 to R377), `unspecified` standing for every bit the spec leaves
open. -/
def ioRegRead (cfg : Config) (io : Periph) (unspecified : Word) : IoReg → Word
  | .ddra => withUnused cfg.sw.ioUnusedBits 7 (io.ddra.zeroExtend 16) unspecified
  | .porta => withUnused cfg.sw.ioUnusedBits 7 (io.porta.zeroExtend 16) unspecified
  | .pina =>
    withUnused cfg.sw.ioUnusedBits 7 ((pinaBits io unspecified).zeroExtend 16) unspecified
  | .inta =>
    withUnused cfg.sw.ioUnusedBits 7 ((intaBits io unspecified).zeroExtend 16) unspecified
  | .t0pre => withUnused cfg.sw.ioUnusedBits cfg.widths.t0pre io.t0.pre unspecified
  | .t1pre => withUnused cfg.sw.ioUnusedBits cfg.widths.t1pre io.t1.pre unspecified
  | .ttop0 => io.t0.top
  | .ttop1 => io.t1.top
  | .tmr0 => io.t0.count
  | .tmr1 => io.t1.count
  | .tint => withUnused cfg.sw.ioUnusedBits 2 (io.tint.zeroExtend 16) unspecified
  | .sdiv => withUnused cfg.sw.ioUnusedBits cfg.widths.sdiv io.sdiv unspecified
  | .sdr =>
    withUnused cfg.sw.ioUnusedBits 8 ((sdrByte io unspecified).zeroExtend 16) unspecified
  | .sbys => flagWord io.sbys
  | .udiv => withUnused cfg.sw.ioUnusedBits cfg.widths.udiv io.udiv unspecified
  | .udr => withUnused cfg.sw.ioUnusedBits 8 (io.uartRx.zeroExtend 16) unspecified
  | .ubsy => flagWord io.ubsy

/-- `IoRead(a)` (R290, R380): one unspecified word is drawn for the bits the spec leaves open. A read
changes no register. -/
def ioRead (a : Byte) (s : State) : Word × State :=
  (match ioReg a with
    | some r => ioRegRead s.cfg s.io (Config.freeWord s.free) r
    | none => 0xFFFF,
   { s with free := s.free + 1 })

/-- Replace the peripheral state. -/
def State.setIo (s : State) (io : Periph) : State :=
  { s with io := io }

/-- `IoWrite(a, v)` (R291): the value cut to the register's width; SDR and UDR start a transfer, its
counters at zero (log 9), which must not happen while the port is busy (R371, R376); a write to PINA, SBYS, UBSY or an unconnected
address has no effect (U15). -/
def ioWrite (a : Byte) (v : Word) (s : State) : Except Fault State :=
  match ioReg a with
  | none => .ok s
  | some .ddra => .ok (s.setIo { s.io with ddra := v.extractLsb' 0 7 })
  | some .porta => .ok (s.setIo { s.io with porta := v.extractLsb' 0 7 })
  | some .pina => .ok s
  | some .inta => .ok (s.setIo { s.io with inta := v.extractLsb' 1 4 })
  | some .t0pre => .ok (s.setIo { s.io with t0 := { s.io.t0 with pre := lowBits s.cfg.widths.t0pre v } })
  | some .t1pre => .ok (s.setIo { s.io with t1 := { s.io.t1 with pre := lowBits s.cfg.widths.t1pre v } })
  | some .ttop0 => .ok (s.setIo { s.io with t0 := { s.io.t0 with top := v } })
  | some .ttop1 => .ok (s.setIo { s.io with t1 := { s.io.t1 with top := v } })
  | some .tmr0 => .ok (s.setIo { s.io with t0 := { s.io.t0 with count := v } })
  | some .tmr1 => .ok (s.setIo { s.io with t1 := { s.io.t1 with count := v } })
  | some .tint => .ok (s.setIo { s.io with tint := v.extractLsb' 0 2 })
  | some .sdiv => .ok (s.setIo { s.io with sdiv := lowBits s.cfg.widths.sdiv v })
  | some .sdr =>
    if s.io.sbys then .error .spiWriteWhileBusy
    else .ok (s.setIo { s.io with spiTx := lowByte v, sbys := true, spiDiv := 0, spiBits := 0 })
  | some .sbys => .ok s
  | some .udiv => .ok (s.setIo { s.io with udiv := lowBits s.cfg.widths.udiv v })
  | some .udr =>
    if s.io.ubsy then .error .uartWriteWhileBusy
    else .ok (s.setIo { s.io with uartTx := lowByte v, ubsy := true, uartTxBits := 0 })
  | some .ubsy => .ok s

/-! ## Events (R349) -/

/-- Set a request latch (R322). -/
def State.latchIrq (s : State) (k : Irq) : State :=
  { s with irq := s.irq.set k true }

/-- The registers of a timer. -/
def Periph.timer (io : Periph) : Timer → TimerRegs
  | .timer0 => io.t0
  | .timer1 => io.t1

/-- Replace the registers of a timer. -/
def Periph.setTimer (io : Periph) (t : Timer) (r : TimerRegs) : Periph :=
  match t with
  | .timer0 => { io with t0 := r }
  | .timer1 => { io with t1 := r }

/-- The request line of a timer (R364): IRQ1 for timer 0, IRQ5 for timer 1. -/
def Timer.irq : Timer → Irq
  | .timer0 => .irq1
  | .timer1 => .irq5

/-- A timer's bit of TINT (R364). -/
def Timer.enabled (io : Periph) : Timer → Bool
  | .timer0 => io.tint.getLsbD 0
  | .timer1 => io.tint.getLsbD 1

/-- `TimerTick(n)` (R363): the prescaler expires; a count at or above TTOPn resets to 0 and, when the
timer's TINT bit is set, latches its request; any other count goes up by one. -/
def timerTick (t : Timer) (s : State) : State :=
  let r := s.io.timer t
  if r.top ≤ r.count then
    let s1 := s.setIo (s.io.setTimer t { r with count := 0, presc := 0 })
    if t.enabled s.io then s1.latchIrq t.irq else s1
  else s.setIo (s.io.setTimer t { r with count := r.count + 1, presc := 0 })

/-- One CPU clock period for a timer's prescaler (R361): it expires once every max(TnPRE, 1)
periods (log 8). -/
def prescale (t : Timer) (s : State) : State :=
  let r := s.io.timer t
  if max r.pre.toNat 1 ≤ r.presc.toNat + 1 then timerTick t s
  else s.setIo (s.io.setTimer t { r with presc := r.presc + 1 })

/-- A bit counter after one more bit of a transfer of `limit` bits. -/
def countBit (limit : Nat) (c : BitVec 4) : BitVec 4 :=
  if c.toNat < limit then c + 1 else c

/-- One CPU clock period for the SPI port (R36, R370): while a transfer is in progress a bit passes
every 2 * SDIV + 1 periods. The transfer ends by `spiDone` alone (R349; log 9). -/
def spiClock (io : Periph) : Periph :=
  if io.sbys then
    if 2 * io.sdiv.toNat + 1 ≤ io.spiDiv.toNat + 1 then
      { io with spiDiv := 0, spiBits := countBit 8 io.spiBits }
    else { io with spiDiv := io.spiDiv + 1 }
  else io

/-- One CPU clock period for both timers and the SPI port. -/
def clockTick (s : State) : State :=
  let s1 := prescale .timer1 (prescale .timer0 s)
  s1.setIo (spiClock s1.io)

/-- `SpiDone` (R371): requires a transfer in progress; in a state without one it is no event and
changes nothing (log 7). The counters of the transfer return to zero (log 9). -/
def spiDone (received : Byte) (s : State) : State :=
  if s.io.sbys then
    s.setIo { s.io with spiRx := received, sbys := false, spiDiv := 0, spiBits := 0 }
  else s

/-- One bit of a transmission in progress has passed (R36, R375; log 9). -/
def uartTxBit (s : State) : State :=
  if s.io.ubsy then s.setIo { s.io with uartTxBits := countBit 10 s.io.uartTxBits } else s

/-- `UartTxDone` (R376): requires a transmission in progress, as above. -/
def uartTxDone (s : State) : State :=
  if s.io.ubsy then s.setIo { s.io with ubsy := false, uartTxBits := 0 } else s

/-- One bit of an arriving frame (R36, R375; log 9): the eight bits after the start bit enter the
receive shifter, least significant first. -/
def uartRxBit (level : Bool) (s : State) : State :=
  let c := s.io.uartRxBits
  let shifted : Byte := BitVec.ofBool level ++ s.io.uartRxShift.extractLsb' 1 7
  s.setIo { s.io with
    uartRxShift := if 1 ≤ c.toNat ∧ c.toNat ≤ 8 then shifted else s.io.uartRxShift,
    uartRxBits := countBit 10 c }

/-- `UartRx(b)` (R376): the frame is complete, its byte in the shifter (log 9), and the latest byte
replaces the one before it. -/
def uartRx (received : Byte) (s : State) : State :=
  s.setIo { s.io with uartRx := received, uartRxShift := received, uartRxBits := 0 }

/-- The request line of a pin (R355): PA1 to PA4 raise IRQ2, IRQ4, IRQ6, IRQ7; the others none. -/
def pinIrq (pin : Fin 7) : Option Irq :=
  match pin.val with
  | 1 => some .irq2
  | 2 => some .irq4
  | 3 => some .irq6
  | 4 => some .irq7
  | _ => none

/-- The bit of a pin in a 7-bit register (R351). -/
def pinMask (pin : Fin 7) : BitVec 7 :=
  1#7 <<< pin.val

/-- The pin levels with one pin at a level. -/
def setPin (pins : BitVec 7) (pin : Fin 7) (level : Bool) : BitVec 7 :=
  (pins &&& ~~~(pinMask pin)) ||| (if level then pinMask pin else 0)

/-- INTA bit i for pin PAi (R354); pins PA0, PA5 and PA6 cannot interrupt. -/
def pinEnabled (io : Periph) (pin : Fin 7) : Bool :=
  decide (1 ≤ pin.val) && io.inta.getLsbD (pin.val - 1)

/-- `PinChange(i, level)` (R355): a low-to-high transition on an enabled input pin latches its
request. -/
def pinChange (pin : Fin 7) (level : Bool) (s : State) : State :=
  let s1 := s.setIo { s.io with pins := setPin s.io.pins pin level }
  match pinIrq pin with
  | none => s1
  | some k =>
    if !s.io.pins.getLsbD pin.val && level && pinEnabled s.io pin && !s.io.ddra.getLsbD pin.val then
      s1.latchIrq k
    else s1

/-! ## Reset by the host (R390 to R392, R404) -/

/-- The latches after reset (R38): clear, or unspecified when IRQ_LATCH_RESET says so (D13). -/
def irqAfterReset (policy : IrqLatchReset) (unspecified : Byte) : IrqLatches :=
  match policy with
  | .clear => State.reset.irq
  | .unspecified =>
    { l1 := unspecified.getLsbD 1, l2 := unspecified.getLsbD 2, l3 := unspecified.getLsbD 3,
      l4 := unspecified.getLsbD 4, l5 := unspecified.getLsbD 5, l6 := unspecified.getLsbD 6,
      l7 := unspecified.getLsbD 7 }

/-- A timer after a reset of a machine that has run: the spec states no value (U10), so TnPRE, TTOPn,
TMRn and the prescaler counter are the unspecified words numbered from `k` on (log 33). -/
def timerAfterReset (width k : Nat) : TimerRegs :=
  { pre := lowBits width (Config.freeWord k), top := Config.freeWord (k + 1),
    count := Config.freeWord (k + 2), presc := Config.freeWord (k + 3) }

/-- The peripherals after such a reset: what R38 states, and unspecified values where it states none,
the counters of the serial ports and the receive shifter among them (log 33); the pins keep the
levels the outside drives. -/
def periphAfterReset (cfg : Config) (pins : BitVec 7) (k : Nat) : Periph :=
  { Periph.reset with
    pins := pins, t0 := timerAfterReset cfg.widths.t0pre k,
    t1 := timerAfterReset cfg.widths.t1pre (k + 4),
    sdiv := lowBits cfg.widths.sdiv (Config.freeWord (k + 8)),
    udiv := lowBits cfg.widths.udiv (Config.freeWord (k + 9)),
    spiTx := lowByte (Config.freeWord (k + 10)), spiRx := lowByte (Config.freeWord (k + 11)),
    uartTx := lowByte (Config.freeWord (k + 12)), uartRx := lowByte (Config.freeWord (k + 13)),
    spiDiv := (Config.freeWord (k + 15)).extractLsb' 0 1 ++ Config.freeWord (k + 14),
    spiBits := (Config.freeWord (k + 15)).extractLsb' 1 4,
    uartTxBits := (Config.freeWord (k + 15)).extractLsb' 5 4,
    uartRxBits := (Config.freeWord (k + 15)).extractLsb' 9 4,
    uartRxShift := lowByte (Config.freeWord (k + 16)) }

/-- The host writes the settings, pulls RSTD low and releases it (R390, R404), as one move with no held
phase in between (DESIGN CHOICE, log 44): R0 to R6 and the PSW
zero, the PC at SADDR * 2 (R392), running, memory untouched (R38). IVB is an unspecified multiple of
32 (U9, log 33). -/
def hostReset (settings : Settings) (s : State) : State :=
  { State.reset with
    regs := { State.reset.regs with pc := settings.saddr ++ (0 : BitVec 1) },
    ivb := Config.freeWord s.free &&& 0xFFE0,
    irq := irqAfterReset s.cfg.sw.irqLatchReset (Config.freeByte s.free),
    io := periphAfterReset s.cfg s.io.pins (s.free + 1),
    mem := s.mem, cfg := { s.cfg with settings := settings }, script := s.script,
    free := s.free + 18 }

/-- The move of an agent other than the CPU. -/
def applyEvent (e : Event) (s : State) : State :=
  match e with
  | .cpu => s
  | .clock => clockTick s
  | .timerTick t => timerTick t s
  | .spiDone b => spiDone b s
  | .uartTxBit => uartTxBit s
  | .uartTxDone => uartTxDone s
  | .uartRxBit level => uartRxBit level s
  | .uartRx b => uartRx b s
  | .pinChange i level => pinChange i level s
  | .reset settings => hostReset settings s

/-! ## What the outside sees -/

/-- The HALTD pin (10_state.md R33): high while waiting or halted. -/
def haltdPin (s : State) : Bool :=
  s.run != .running

/-- The level a pin is driven to (R352): PORTA's bit for an output pin, nothing for an input. -/
def drivenPin (s : State) (pin : Fin 7) : Option Bool :=
  if s.io.ddra.getLsbD pin.val then some (s.io.porta.getLsbD pin.val) else none

end Sys2Proof.Machine
end

