-- ==== Sys2Proof/Machine/Io.lean ====
section
/-! DEFINITION. IOR and IOW (47_io.md R292, R293). -/

namespace Sys2Proof.Machine

open Sys2Proof

/-- IOR (R292): the destination is resolved first; the I/O address is the low byte of REG. -/
def execIor (reg : Reg) (dst : Operand) (s : State) : Host.Outcome State Fault Refusal :=
  toOutcome do
    let p ← operand dst .word s
    let v := ioRead (lowByte (p.2.get reg)) p.2
    commitWord p.1 (v.1, ccLogic v.2.psw.cc v.1) v.2

/-- IOW (R293): the source is resolved and read first; no condition code changes. -/
def execIow (reg : Reg) (src : Operand) (s : State) : Host.Outcome State Fault Refusal :=
  toOutcome do
    let p ← sourceWord src s
    ioWrite (lowByte (p.2.get reg)) p.1 p.2

end Sys2Proof.Machine
end

