-- ==== Sys2Proof/Machine/Jump.lean ====
section
/-! DEFINITION. JMP, JSR, RTS, MARK and SOB (45_jump_subroutine.md R240 to R244). -/

namespace Sys2Proof.Machine

open Sys2Proof

/-- JMP (R240): to the address of the operand, or to the value of the register in mode 0. -/
def execJmp (dst : Operand) (s : State) : Host.Outcome State Fault Refusal :=
  toOutcome do
    let p ← effectiveAddress dst s
    .ok (p.2.set .pc p.1)

/-- JSR (R241): the target first, then the push of REG, the link, the jump. -/
def execJsr (reg : Reg) (dst : Operand) (s : State) : Host.Outcome State Fault Refusal :=
  toOutcome do
    let p ← effectiveAddress dst s
    let s1 ← push (p.2.get reg) p.2
    .ok ((s1.set reg (s1.get .pc)).set .pc p.1)

/-- RTS (R242): the PC from Rn, then Rn from the stack. -/
def execRts (reg : Reg) (s : State) : Host.Outcome State Fault Refusal :=
  toOutcome do
    let p ← pop (s.set .pc (s.get reg))
    .ok (p.2.set reg p.1)

/-- The stack pointer MARK computes (R243), by the source's sentence or by the PDP-11's rule. -/
def markStack (n : BitVec 6) (s : State) : Word :=
  match s.cfg.sw.markRule with
  | .source => s.get .sp + n.zeroExtend 16
  | .pdp11 => s.get .pc + 2 * n.zeroExtend 16

/-- MARK (R243). -/
def execMark (n : BitVec 6) (s : State) : Host.Outcome State Fault Refusal :=
  toOutcome do
    let s1 := s.set .sp (markStack n s)
    let p ← pop (s1.set .pc (s1.get .r5))
    .ok (p.2.set .r5 p.1)

/-- SOB (R244): count REG down and go back by twice the offset unless it is zero. -/
def execSob (reg : Reg) (offset : BitVec 6) (s : State) : Host.Outcome State Fault Refusal :=
  let s1 := s.set reg (s.get reg - 1)
  .next (if s1.get reg = 0 then s1 else s1.set .pc (s1.get .pc - 2 * offset.zeroExtend 16))

end Sys2Proof.Machine
end

