-- ==== Sys2Proof/Machine/RegisterOperand.lean ====
section
/-! DEFINITION. The register-operand instructions: MUL, DIV, ASH, ASHC and XOR (43_register_operand.md R190 to R195). The operand is resolved and read first, REG after it. -/

namespace Sys2Proof.Machine

open Sys2Proof

/-- The pair REG, REG+1 as a 32-bit value, REG in the upper half (R190). -/
def pairValue (r : Reg) (s : State) : Long :=
  s.get r ++ s.get (regSucc r)

/-- Write a 32-bit value into the pair: REG first, then REG+1 (R190, R191). -/
def setPair (r : Reg) (v : Long) (s : State) : State :=
  (s.set r (v.extractLsb' 16 16)).set (regSucc r) (v.extractLsb' 0 16)

/-- MUL (R191): an odd REG takes the low half of the product only. -/
def execMul (reg : Reg) (src : Operand) (s : State) : Host.Outcome State Fault Refusal :=
  toOutcome do
    let p ← sourceWord src s
    let r := aluMul (p.2.get reg) p.1
    .ok ((if regIsOdd reg then p.2.set reg (r.1.extractLsb' 0 16) else setPair reg r.1 p.2).setCc r.2)

/-- DIV (R192): a 32-bit quotient in the pair, no remainder, by the DIV_NUMERICS of the configuration.
An odd REG is a model fault. -/
def execDiv (reg : Reg) (src : Operand) (s : State) : Host.Outcome State Fault Refusal :=
  toOutcome do
    let p ← sourceWord src s
    if regIsOdd reg then .error (.oddRegisterPair reg)
    else
      let hi := p.2.get reg
      let lo := p.2.get (regSucc reg)
      let r := aluDiv (divRule p.2.cfg hi lo p.1) hi lo p.1
      .ok ((match r.1 with
        | some q => setPair reg q p.2
        | none => p.2).setCc r.2)

/-- ASH (R193). -/
def execAsh (reg : Reg) (src : Operand) (s : State) : Host.Outcome State Fault Refusal :=
  toOutcome do
    let p ← sourceWord src s
    let r := aluShift p.2.cfg.sw.ashCOnZero p.2.psw.cc (shiftCount p.1) (p.2.get reg)
    .ok ((p.2.set reg r.1).setCc r.2)

/-- ASHC (R194). An odd REG is a model fault. -/
def execAshc (reg : Reg) (src : Operand) (s : State) : Host.Outcome State Fault Refusal :=
  toOutcome do
    let p ← sourceWord src s
    if regIsOdd reg then .error (.oddRegisterPair reg)
    else
      let r := aluShift p.2.cfg.sw.ashCOnZero p.2.psw.cc (shiftCount p.1) (pairValue reg p.2)
      .ok ((setPair reg r.1 p.2).setCc r.2)

/-- XOR (R195): REG is the source and is read after the destination is resolved. -/
def execXor (reg : Reg) (dst : Operand) (s : State) : Host.Outcome State Fault Refusal :=
  toOutcome do
    let p ← operand dst .word s
    let d ← rdWord p.1 p.2
    commitWord p.1 (aluXor p.2.psw.cc (p.2.get reg) d) p.2

end Sys2Proof.Machine
end

