-- ==== Sys2Proof/Machine/SingleOperand.lean ====
section
/-! DEFINITION. The single-operand instructions (41_single_operand.md R140 to R154). -/

namespace Sys2Proof.Machine

open Sys2Proof

/-- CLR (R141): the destination is not read. -/
def execClr (dst : Operand) (s : State) : Host.Outcome State Fault Refusal :=
  toOutcome (produceWord (fun _ => aluClr) dst s)

/-- CLRB (R141). -/
def execClrb (dst : Operand) (s : State) : Host.Outcome State Fault Refusal :=
  toOutcome (produceByte (fun _ => aluClr) dst s)

/-- COM (R142). -/
def execCom (dst : Operand) (s : State) : Host.Outcome State Fault Refusal :=
  toOutcome (modifyWord aluCom dst s)

/-- COMB (R142). -/
def execComb (dst : Operand) (s : State) : Host.Outcome State Fault Refusal :=
  toOutcome (modifyByte aluCom dst s)

/-- INC (R143). -/
def execInc (dst : Operand) (s : State) : Host.Outcome State Fault Refusal :=
  toOutcome (modifyWord aluInc dst s)

/-- INCB (R143). -/
def execIncb (dst : Operand) (s : State) : Host.Outcome State Fault Refusal :=
  toOutcome (modifyByte aluInc dst s)

/-- DEC (R144). -/
def execDec (dst : Operand) (s : State) : Host.Outcome State Fault Refusal :=
  toOutcome (modifyWord aluDec dst s)

/-- DECB (R144). -/
def execDecb (dst : Operand) (s : State) : Host.Outcome State Fault Refusal :=
  toOutcome (modifyByte aluDec dst s)

/-- NEG (R145). -/
def execNeg (dst : Operand) (s : State) : Host.Outcome State Fault Refusal :=
  toOutcome (modifyWord aluNeg dst s)

/-- NEGB (R145). -/
def execNegb (dst : Operand) (s : State) : Host.Outcome State Fault Refusal :=
  toOutcome (modifyByte aluNeg dst s)

/-- ADC (R152). -/
def execAdc (dst : Operand) (s : State) : Host.Outcome State Fault Refusal :=
  toOutcome (modifyWord aluAdc dst s)

/-- ADCB (R152). -/
def execAdcb (dst : Operand) (s : State) : Host.Outcome State Fault Refusal :=
  toOutcome (modifyByte aluAdc dst s)

/-- SBC (R153). -/
def execSbc (dst : Operand) (s : State) : Host.Outcome State Fault Refusal :=
  toOutcome (modifyWord aluSbc dst s)

/-- SBCB (R153). -/
def execSbcb (dst : Operand) (s : State) : Host.Outcome State Fault Refusal :=
  toOutcome (modifyByte aluSbc dst s)

/-- TST (R146). -/
def execTst (dst : Operand) (s : State) : Host.Outcome State Fault Refusal :=
  toOutcome (testWord ccTst dst s)

/-- TSTB (R146). -/
def execTstb (dst : Operand) (s : State) : Host.Outcome State Fault Refusal :=
  toOutcome (testByte ccTst dst s)

/-- ROR (R149). -/
def execRor (dst : Operand) (s : State) : Host.Outcome State Fault Refusal :=
  toOutcome (modifyWord aluRor dst s)

/-- RORB (R149). -/
def execRorb (dst : Operand) (s : State) : Host.Outcome State Fault Refusal :=
  toOutcome (modifyByte aluRor dst s)

/-- ROL (R150). -/
def execRol (dst : Operand) (s : State) : Host.Outcome State Fault Refusal :=
  toOutcome (modifyWord aluRol dst s)

/-- ROLB (R150). -/
def execRolb (dst : Operand) (s : State) : Host.Outcome State Fault Refusal :=
  toOutcome (modifyByte aluRol dst s)

/-- ASR (R147). -/
def execAsr (dst : Operand) (s : State) : Host.Outcome State Fault Refusal :=
  toOutcome (modifyWord aluAsr dst s)

/-- ASRB (R147). -/
def execAsrb (dst : Operand) (s : State) : Host.Outcome State Fault Refusal :=
  toOutcome (modifyByte aluAsr dst s)

/-- ASL (R148). -/
def execAsl (dst : Operand) (s : State) : Host.Outcome State Fault Refusal :=
  toOutcome (modifyWord aluAsl dst s)

/-- ASLB (R148). -/
def execAslb (dst : Operand) (s : State) : Host.Outcome State Fault Refusal :=
  toOutcome (modifyByte aluAsl dst s)

/-- SWAB (R151). -/
def execSwab (dst : Operand) (s : State) : Host.Outcome State Fault Refusal :=
  toOutcome (modifyWord (aluSwab s.cfg.sw.swabFlagsLowByte) dst s)

/-- SXT (R154): the destination is not read. -/
def execSxt (dst : Operand) (s : State) : Host.Outcome State Fault Refusal :=
  toOutcome (produceWord aluSxt dst s)

end Sys2Proof.Machine
end

