-- ==== Sys2Proof/Machine/TrapSystem.lean ====
section
/-! DEFINITION. Trap, return, halt and processor-status instructions (46_trap_system.md R260 to R274). -/

namespace Sys2Proof.Machine

open Sys2Proof

/-- EMT (R260): the code byte is ignored. -/
def execEmt (s : State) : Host.Outcome State Fault Refusal :=
  toOutcome (raiseTrap .emt s)

/-- TRAP (R261): the code byte is ignored. -/
def execTrap (s : State) : Host.Outcome State Fault Refusal :=
  toOutcome (raiseTrap .trap s)

/-- BPT (R262). -/
def execBpt (s : State) : Host.Outcome State Fault Refusal :=
  toOutcome (raiseTrap .bpt s)

/-- IOT (R263). -/
def execIot (s : State) : Host.Outcome State Fault Refusal :=
  toOutcome (raiseTrap .iot s)

/-- RTI (R264). -/
def execRti (s : State) : Host.Outcome State Fault Refusal :=
  toOutcome (returnFromInterrupt s)

/-- RTT (R265): as RTI, and the trace trap of this instruction's own check is inhibited. -/
def execRtt (s : State) : Host.Outcome State Fault Refusal :=
  toOutcome do
    let t ← returnFromInterrupt s
    .ok { t with tinh := true }

/-- HALT (R266). -/
def execHalt (s : State) : Host.Outcome State Fault Refusal :=
  .next { s with run := .halted }

/-- WAIT (R267): the PC is already at the instruction after it. -/
def execWait (s : State) : Host.Outcome State Fault Refusal :=
  .next { s with run := .waiting }

/-- RESET (R268): "effectively a NOP". -/
def execReset (s : State) : Host.Outcome State Fault Refusal :=
  .next s

/-- SVB (R269): the low five bits are discarded. -/
def execSvb (s : State) : Host.Outcome State Fault Refusal :=
  .next { s with ivb := s.get .r0 &&& 0xFFE0 }

/-- TRACE (R270): T set, unless TEN is clear (R28). -/
def execTrace (s : State) : Host.Outcome State Fault Refusal :=
  .next { s with psw := { s.psw with t := s.cfg.settings.ten } }

/-- The condition codes of MFPS (R271): N and Z of the byte moved, V cleared, C kept. -/
def ccMfps (v : Byte) (cc : Cc) : Cc :=
  ccLogic cc v

/-- MFPS (R271): the PSW before the instruction's own flag update. Through the PSW window the flag
update still comes after the write, as the rule lists them (log 17). -/
def execMfps (dst : Operand) (s : State) : Host.Outcome State Fault Refusal :=
  toOutcome do
    let p ← operand dst .byte s
    let v := p.2.psw.toByte
    let s1 := wrByte p.1 v p.2
    .ok (s1.setCc (ccMfps v s1.psw.cc))

/-- MTPS (R272): all eight bits, T subject to TEN. -/
def execMtps (src : Operand) (s : State) : Host.Outcome State Fault Refusal :=
  toOutcome do
    let p ← sourceByte src s
    .ok (p.2.writePsw p.1)

/-- The processor type word (R274). -/
def processorType : Word :=
  0x026D

/-- MFTP (R274). -/
def execMftp (s : State) : Host.Outcome State Fault Refusal :=
  .next (s.set .r0 processorType)

end Sys2Proof.Machine
end

