-- ==== Sys2Proof/Machine/Dispatch.lean ====
section
/-! DEFINITION. The meaning of every instruction: one arm for each constructor of `Instr`, each a direct
call of that instruction's meaning. -/

namespace Sys2Proof.Machine

open Sys2Proof

def exec (i : Instr) (s : State) : Host.Outcome State Fault Refusal :=
  match i with
  | .clr dst => Sys2Proof.Machine.execClr dst s
  | .clrb dst => Sys2Proof.Machine.execClrb dst s
  | .com dst => Sys2Proof.Machine.execCom dst s
  | .comb dst => Sys2Proof.Machine.execComb dst s
  | .inc dst => Sys2Proof.Machine.execInc dst s
  | .incb dst => Sys2Proof.Machine.execIncb dst s
  | .dec dst => Sys2Proof.Machine.execDec dst s
  | .decb dst => Sys2Proof.Machine.execDecb dst s
  | .neg dst => Sys2Proof.Machine.execNeg dst s
  | .negb dst => Sys2Proof.Machine.execNegb dst s
  | .adc dst => Sys2Proof.Machine.execAdc dst s
  | .adcb dst => Sys2Proof.Machine.execAdcb dst s
  | .sbc dst => Sys2Proof.Machine.execSbc dst s
  | .sbcb dst => Sys2Proof.Machine.execSbcb dst s
  | .tst dst => Sys2Proof.Machine.execTst dst s
  | .tstb dst => Sys2Proof.Machine.execTstb dst s
  | .ror dst => Sys2Proof.Machine.execRor dst s
  | .rorb dst => Sys2Proof.Machine.execRorb dst s
  | .rol dst => Sys2Proof.Machine.execRol dst s
  | .rolb dst => Sys2Proof.Machine.execRolb dst s
  | .asr dst => Sys2Proof.Machine.execAsr dst s
  | .asrb dst => Sys2Proof.Machine.execAsrb dst s
  | .asl dst => Sys2Proof.Machine.execAsl dst s
  | .aslb dst => Sys2Proof.Machine.execAslb dst s
  | .swab dst => Sys2Proof.Machine.execSwab dst s
  | .sxt dst => Sys2Proof.Machine.execSxt dst s
  | .mov src dst => Sys2Proof.Machine.execMov src dst s
  | .movb src dst => Sys2Proof.Machine.execMovb src dst s
  | .cmp src dst => Sys2Proof.Machine.execCmp src dst s
  | .cmpb src dst => Sys2Proof.Machine.execCmpb src dst s
  | .bit src dst => Sys2Proof.Machine.execBit src dst s
  | .bitb src dst => Sys2Proof.Machine.execBitb src dst s
  | .bic src dst => Sys2Proof.Machine.execBic src dst s
  | .bicb src dst => Sys2Proof.Machine.execBicb src dst s
  | .bis src dst => Sys2Proof.Machine.execBis src dst s
  | .bisb src dst => Sys2Proof.Machine.execBisb src dst s
  | .add src dst => Sys2Proof.Machine.execAdd src dst s
  | .sub src dst => Sys2Proof.Machine.execSub src dst s
  | .mul reg src => Sys2Proof.Machine.execMul reg src s
  | .div reg src => Sys2Proof.Machine.execDiv reg src s
  | .ash reg src => Sys2Proof.Machine.execAsh reg src s
  | .ashc reg src => Sys2Proof.Machine.execAshc reg src s
  | .xor reg dst => Sys2Proof.Machine.execXor reg dst s
  | .br offset => Sys2Proof.Machine.execBr offset s
  | .bne offset => Sys2Proof.Machine.execBne offset s
  | .beq offset => Sys2Proof.Machine.execBeq offset s
  | .bge offset => Sys2Proof.Machine.execBge offset s
  | .blt offset => Sys2Proof.Machine.execBlt offset s
  | .bgt offset => Sys2Proof.Machine.execBgt offset s
  | .ble offset => Sys2Proof.Machine.execBle offset s
  | .bpl offset => Sys2Proof.Machine.execBpl offset s
  | .bmi offset => Sys2Proof.Machine.execBmi offset s
  | .bhi offset => Sys2Proof.Machine.execBhi offset s
  | .blos offset => Sys2Proof.Machine.execBlos offset s
  | .bvc offset => Sys2Proof.Machine.execBvc offset s
  | .bvs offset => Sys2Proof.Machine.execBvs offset s
  | .bcc offset => Sys2Proof.Machine.execBcc offset s
  | .bcs offset => Sys2Proof.Machine.execBcs offset s
  | .jmp dst => Sys2Proof.Machine.execJmp dst s
  | .jsr reg dst => Sys2Proof.Machine.execJsr reg dst s
  | .rts reg => Sys2Proof.Machine.execRts reg s
  | .mark n => Sys2Proof.Machine.execMark n s
  | .sob reg offset => Sys2Proof.Machine.execSob reg offset s
  | .emt _ => Sys2Proof.Machine.execEmt s
  | .trap _ => Sys2Proof.Machine.execTrap s
  | .halt => Sys2Proof.Machine.execHalt s
  | .wait => Sys2Proof.Machine.execWait s
  | .rti => Sys2Proof.Machine.execRti s
  | .bpt => Sys2Proof.Machine.execBpt s
  | .iot => Sys2Proof.Machine.execIot s
  | .reset => Sys2Proof.Machine.execReset s
  | .rtt => Sys2Proof.Machine.execRtt s
  | .mftp => Sys2Proof.Machine.execMftp s
  | .mtps src => Sys2Proof.Machine.execMtps src s
  | .mfps dst => Sys2Proof.Machine.execMfps dst s
  | .svb => Sys2Proof.Machine.execSvb s
  | .trace => Sys2Proof.Machine.execTrace s
  | .ior reg dst => Sys2Proof.Machine.execIor reg dst s
  | .iow reg src => Sys2Proof.Machine.execIow reg src s
  | .ccop set n z v c => Sys2Proof.Machine.execCcop set n z v c s
  | .clc => Sys2Proof.Machine.execClc s
  | .clv => Sys2Proof.Machine.execClv s
  | .clz => Sys2Proof.Machine.execClz s
  | .cln => Sys2Proof.Machine.execCln s
  | .ccc => Sys2Proof.Machine.execCcc s
  | .sec => Sys2Proof.Machine.execSec s
  | .sev => Sys2Proof.Machine.execSev s
  | .sez => Sys2Proof.Machine.execSez s
  | .sen => Sys2Proof.Machine.execSen s
  | .scc => Sys2Proof.Machine.execScc s
  | .nop => Sys2Proof.Machine.execNop s

end Sys2Proof.Machine
end

