-- ==== Sys2Proof/Machine/Cycle.lean ====
section
/-! DEFINITION. The instruction cycle (00_scope.md R9): fetch, decode, the instruction's meaning, the
end-of-instruction check; the CPU's move in each run state (10_state.md R33); and whose move comes
next (60_exceptions.md R349). -/

namespace Sys2Proof.Machine

open Sys2Proof

/-- What follows an instruction (R9 step 4, R330): the end-of-instruction check, but none after
HALT (R266, R336). A stop stays a stop. -/
def complete (o : Host.Outcome State Fault Refusal) : Host.Outcome State Fault Refusal :=
  match o with
  | .next t =>
    match t.run with
    | .halted => .next t
    | _ => toOutcome (endCheck t)
  | .fault f => .fault f
  | .refused r => .refused r

/-- Perform the decoded instruction word, the PC already past it (R9 step 3). -/
def perform (w : Word) (s : State) : Host.Outcome State Fault Refusal :=
  match decode s.cfg.enc w with
  | .ok i => exec i s
  | .error _ => toOutcome (illegalOpcode s)

/-- One instruction in the running state (R9 steps 2 to 4). -/
def runInstruction (s : State) : Host.Outcome State Fault Refusal :=
  match fetch s with
  | .error f => .fault f
  | .ok (w, s1) => complete (perform w s1)

/-- The CPU's move (R9 step 1, R33): an instruction, a look at the requests while it waits, nothing
once it is halted. -/
def cpuStep (s : State) : Host.Outcome State Fault Refusal :=
  match s.run with
  | .running => runInstruction s
  | .waiting => toOutcome (waitStep s)
  | .halted => .next s

/-- The next move of the script, or the CPU's when the script is empty (R349, log 7). The
host's reset is such a move, whole and between two instructions; how long RSTD is held and whether it
is sampled with the clock, which R390 finds unsaid, is no part of the model (DESIGN CHOICE, log 44). -/
def nextMove (s : State) : Host.Outcome State Fault Refusal :=
  match s.script with
  | [] => cpuStep s
  | .cpu :: rest => cpuStep { s with script := rest }
  | e :: rest => .next (applyEvent e { s with script := rest })

/-- A word stored at the even address at or below `a`. -/
def State.storeWord (s : State) (a v : Word) : State :=
  { s with mem := s.mem.putWord (a &&& 0xFFFE) v }

/-- The state in which the very next move fetches and runs a given word: the word, and two operand
words of zeros behind it, stored at the PC (made even, since an odd one cannot fetch), the CPU
running and the CPU to move. -/
def placeAtPc (v : Word) (s : State) : State :=
  let a := s.get .pc &&& 0xFFFE
  { (((s.storeWord a v).storeWord (a + 2) 0).storeWord (a + 4) 0).set .pc a with
    run := .running, script := [] }

end Sys2Proof.Machine
end

