-- ==== Sys2Proof/Machine/Step.lean ====
section
/-! DEFINITION. One step of the machine, and the state whose next step runs a given instruction word. -/

namespace Sys2Proof.Machine

open Sys2Proof

/-- One step: the next move of the script (60_exceptions.md R349), the CPU's when none is left. -/
def step (s : State) : Host.Outcome State Fault Refusal :=
  nextMove s

/-- `s` with the instruction whose bits are the low `nbits` of `w` stored where the next step fetches
it, operand words of zeros behind it (log 3). -/
def State.withFetchWord (s : State) (nbits w : Nat) : State :=
  placeAtPc (BitVec.ofNat 16 (w % 2 ^ nbits)) s

end Sys2Proof.Machine
end

