-- ==== Sys2Proof/Safety.lean ====
section
/-! DEFINITION. The terms in which statements about the machine are made: what a safe run is, the
invariant of every step, and the effects of instructions written out over what software sees
(registers, bytes of memory, PSW fields), apart from the functions that compute them. -/

namespace Sys2Proof.Safety

open Sys2Proof Sys2Proof.Machine

/-! ## Safe runs and the invariant -/

/-- A run of `k` steps that reaches no model fault and no refusal (70_reset_and_hazards.md R405). -/
def SafeFor (k : Nat) (s : State) : Prop :=
  ∃ t, Sys2Proof.core.run k s = .next t

/-- A register cut to `n` bits holds nothing above them. -/
def Fits (n : Nat) (v : Word) : Prop :=
  v.toNat < 2 ^ n

/-- The invariant of every step: memory is canonical, IVB bits 4:0 are zero (10_state.md R30), T is
clear unless TEN is set (R28), the trace inhibit is down between steps (R35), and the registers
of unstated width hold no bit above it (47_io.md R291). -/
def Invariant (s : State) : Prop :=
  s.mem.wf = true ∧ s.ivb &&& 0x001F = 0 ∧ (s.psw.t = true → s.cfg.settings.ten = true) ∧
  s.tinh = false ∧ Fits s.cfg.widths.t0pre s.io.t0.pre ∧ Fits s.cfg.widths.t1pre s.io.t1.pre ∧
  Fits s.cfg.widths.sdiv s.io.sdiv ∧ Fits s.cfg.widths.udiv s.io.udiv

/-! ## What an operand does to the registers (40_addressing_modes.md R113 to R118, R123) -/

/-- How far resolving an operand moves register `q`: modes 2 to 5 move Rn, modes 6 and 7 move the PC
past the index word, modes 0 and 1 move nothing. -/
def operandStep (o : Operand) (sz : Size) (s : State) (q : Reg) : Word :=
  match o.mode with
  | .register => 0
  | .deferred => 0
  | .autoinc => if q = o.rn then stepDelta sz o.rn s else 0
  | .autoincDeferred => if q = o.rn then 2 else 0
  | .autodec => if q = o.rn then -(stepDelta sz o.rn s) else 0
  | .autodecDeferred => if q = o.rn then -2 else 0
  | .indexed => if q = .pc then 2 else 0
  | .indexedDeferred => if q = .pc then 2 else 0

/-- How far resolving a source and then a destination moves register `q`. -/
def operandSteps (src dst : Operand) (sz : Size) (s : State) (q : Reg) : Word :=
  operandStep src sz s q + operandStep dst sz s q

/-- Registers moved by `step` and nothing else changed. -/
def Moves (step : Reg → Word) (s t : State) : Prop :=
  (∀ q, t.get q = s.get q + step q) ∧ t = { s with regs := t.regs }

/-- A location a word can be written to: a register or an even address (20_memory.md R52). -/
def Writable (l : Loc) : Prop :=
  match l with
  | .reg _ => True
  | .mem a => a.getLsbD 0 = false

/-! ## Condition codes and the PSW as software sees them (10_state.md R23, R26, R27) -/

/-- N and Z of a result, with the given V and C. -/
def codes {w : Nat} (r : BitVec w) (v c : Bool) : Cc :=
  { n := r.getLsbD (w - 1), z := decide (r = 0), v := v, c := c }

/-- The PSW as a number: prio in bits 7:5, T in bit 4, N, Z, V, C in bits 3 to 0 (R23). -/
def pswByte (p : Psw) : Byte :=
  BitVec.ofNat 8 (32 * p.prio.toNat + 16 * p.t.toNat + 8 * p.cc.n.toNat + 4 * p.cc.z.toNat +
    2 * p.cc.v.toNat + p.cc.c.toNat)

/-- `p` is the PSW after `PSW <- b` with the T bit gated by `gate` (R28). -/
def LoadedFrom (b : Byte) (gate : Bool) (p : Psw) : Prop :=
  p.prio.toNat = b.toNat / 32 ∧ p.t = (b.getLsbD 4 && gate) ∧ p.cc.n = b.getLsbD 3 ∧
  p.cc.z = b.getLsbD 2 ∧ p.cc.v = b.getLsbD 1 ∧ p.cc.c = b.getLsbD 0

/-! ## Effects -/

/-- IVB, the latches, the run state, the trace inhibit, the peripherals, the configuration and the
moves to come are as before. -/
def KeepsRest (s t : State) : Prop :=
  t.ivb = s.ivb ∧ t.irq = s.irq ∧ t.run = s.run ∧ t.tinh = s.tinh ∧ t.io = s.io ∧ t.cfg = s.cfg ∧
  t.script = s.script

/-- The PSW is as before but for its condition codes, which are `cc`. -/
def SetsCodes (cc : Cc) (s t : State) : Prop :=
  t.psw.prio = s.psw.prio ∧ t.psw.t = s.psw.t ∧ t.psw.cc = cc

/-- Every byte of memory is as before. -/
def KeepsMemory (s t : State) : Prop :=
  ∀ b : Nat, t.mem.get b = s.mem.get b

/-- The word `v` stands at the address `a`, its low byte first, and every other byte of memory is as
before (20_memory.md R51). -/
def StoresWord (a v : Word) (s t : State) : Prop :=
  t.mem.get a.toNat = v.extractLsb' 0 8 ∧ t.mem.get (a.toNat + 1) = v.extractLsb' 8 8 ∧
  ∀ b : Nat, b ≠ a.toNat → b ≠ a.toNat + 1 → t.mem.get b = s.mem.get b

/-- The byte `v` stands at the address `a`, and every other byte of memory is as before. -/
def StoresByte (a : Word) (v : Byte) (s t : State) : Prop :=
  t.mem.get a.toNat = v ∧ ∀ b : Nat, b ≠ a.toNat → t.mem.get b = s.mem.get b

/-- An instruction that stores nothing: the registers only move by `step`, memory is as before, and
the condition codes are `cc`. -/
def CodesOnly (cc : Cc) (step : Reg → Word) (s t : State) : Prop :=
  (∀ q, t.get q = s.get q + step q) ∧ KeepsMemory s t ∧ SetsCodes cc s t ∧ KeepsRest s t

/-- An instruction that writes the word `v` to a location and the condition codes `cc`; the registers
else move by `step`. -/
def WordEffect (l : Loc) (v : Word) (cc : Cc) (step : Reg → Word) (s t : State) : Prop :=
  match l with
  | .reg r =>
    (∀ q, t.get q = if q = r then v else s.get q + step q) ∧ KeepsMemory s t ∧
      SetsCodes cc s t ∧ KeepsRest s t
  | .mem a =>
    (∀ q, t.get q = s.get q + step q) ∧ StoresWord a v s t ∧ SetsCodes cc s t ∧ KeepsRest s t

/-- The address at which a byte access reaches the PSW, with MPSW = 1 (20_memory.md R59). -/
def AtWindow (a : Word) (s : State) : Prop :=
  s.cfg.settings.mpsw = true ∧ a = 0xFFFE

/-- An instruction that writes the byte `v` to a location and the condition codes `cc`: bits 15:8 of a
register are kept (40_addressing_modes.md R125). Through the PSW window prio and T take the byte's
bits and nothing is said of the condition codes (93_implementation_defined.md U12). -/
def ByteEffect (l : Loc) (v : Byte) (cc : Cc) (step : Reg → Word) (s t : State) : Prop :=
  KeepsRest s t ∧
  match l with
  | .reg r =>
    (∀ q, t.get q = if q = r then (s.get q + step q).extractLsb' 8 8 ++ v else s.get q + step q) ∧
      KeepsMemory s t ∧ SetsCodes cc s t
  | .mem a =>
    (∀ q, t.get q = s.get q + step q) ∧
    (¬ AtWindow a s → StoresByte a v s t ∧ SetsCodes cc s t) ∧
    (AtWindow a s → KeepsMemory s t ∧ t.psw.prio.toNat = v.toNat / 32 ∧
      t.psw.t = (v.getLsbD 4 && s.cfg.settings.ten))

/-- An instruction that writes registers and condition codes: register `q` holds `regs q`, memory is
as before. -/
def RegisterEffect (regs : Reg → Word) (cc : Cc) (s t : State) : Prop :=
  (∀ q, t.get q = regs q) ∧ KeepsMemory s t ∧ SetsCodes cc s t ∧ KeepsRest s t

/-- An instruction that moves the PC and leaves everything else alone. -/
def JumpsTo (target : Word) (s t : State) : Prop :=
  (∀ q, t.get q = if q = .pc then target else s.get q) ∧ KeepsMemory s t ∧ t.psw = s.psw ∧
  KeepsRest s t

/-- The entry of a trap or an interrupt through the vector at `vec` (60_exceptions.md R320, R326): the
PSW in the low byte of the word pushed first, the PC in the word pushed second, both then loaded
from the vector as memory holds it after the pushes, T clear, the CPU running. The upper byte of
the pushed PSW word is not stated (93_implementation_defined.md U8). -/
def Enters (vec : Word) (s t : State) : Prop :=
  (∀ q, t.get q = if q = .pc then t.mem.word vec else if q = .sp then s.get .sp - 4 else s.get q) ∧
  t.mem.get (s.get .sp - 2).toNat = pswByte s.psw ∧
  t.mem.get (s.get .sp - 4).toNat = (s.get .pc).extractLsb' 0 8 ∧
  t.mem.get ((s.get .sp - 4).toNat + 1) = (s.get .pc).extractLsb' 8 8 ∧
  (∀ b : Nat, b ≠ (s.get .sp - 2).toNat → b ≠ (s.get .sp - 2).toNat + 1 →
    b ≠ (s.get .sp - 4).toNat → b ≠ (s.get .sp - 4).toNat + 1 → t.mem.get b = s.mem.get b) ∧
  LoadedFrom (t.mem.get (vec + 2).toNat) false t.psw ∧
  t.run = .running ∧ t.ivb = s.ivb ∧ t.io = s.io ∧ t.cfg = s.cfg ∧ t.script = s.script

/-! ## Requests (60_exceptions.md R323, R331) -/

/-- IRQ `k` is acceptable: its latch is set and k > prio. -/
def Acceptable (s : State) (k : Irq) : Prop :=
  s.irq.get k = true ∧ s.psw.prio.toNat < k.number

/-- IRQ `k` is the acceptable request with the highest number. -/
def HighestAcceptable (s : State) (k : Irq) : Prop :=
  Acceptable s k ∧ ∀ j, Acceptable s j → j.number ≤ k.number

/-- Only the latch of `k` is cleared. -/
def ClearsLatch (k : Irq) (s t : State) : Prop :=
  t.irq.get k = false ∧ ∀ j, j ≠ k → t.irq.get j = s.irq.get j

/-! ## Instruction words (30_encoding.md R81 to R87) -/

/-- The six bits of an operand specifier as a number: MODE above Rn (R81). -/
def specifier (o : Operand) : Nat :=
  8 * o.mode.bits.toNat + o.rn.bits.toNat

/-- Format SO: `base | MODE<<3 | Rn` is the instruction `i` of that operand, under every OPEN encoding
(R82). -/
def CodedSo (base : Nat) (i : Operand → Instr) : Prop :=
  ∀ (e : Encodings) (d : Operand), decode e (BitVec.ofNat 16 (base + specifier d)) = .ok (i d)

/-- Format DO: `base | SS<<6 | DD` (R83). -/
def CodedDo (base : Nat) (i : Operand → Operand → Instr) : Prop :=
  ∀ (e : Encodings) (s d : Operand),
    decode e (BitVec.ofNat 16 (base + 64 * specifier s + specifier d)) = .ok (i s d)

/-- Format RO: `base | REG<<6 | MODE<<3 | Rn` (R84). -/
def CodedRo (base : Nat) (i : Reg → Operand → Instr) : Prop :=
  ∀ (e : Encodings) (r : Reg) (d : Operand),
    decode e (BitVec.ofNat 16 (base + 64 * r.bits.toNat + specifier d)) = .ok (i r d)

/-- Formats BR and TR: `base | offset` or `base | n` (R85). -/
def CodedBr (base : Nat) (i : BitVec 8 → Instr) : Prop :=
  ∀ (e : Encodings) (x : BitVec 8), decode e (BitVec.ofNat 16 (base + x.toNat)) = .ok (i x)

/-- Format IM: the one word `w` (R86). -/
def CodedIm (w : Word) (i : Instr) : Prop :=
  ∀ e : Encodings, decode e w = .ok i

/-! ## Shapes of instructions

Each says that the instruction completes, and with which effect, for every operand that can be
resolved and accessed, in every state whose memory is canonical. -/

/-- A read-modify-write word instruction (41_single_operand.md R140): `f` gives result and condition
codes from the old condition codes and the operand. -/
def ModifiesWord (i : Operand → Instr) (f : Cc → Word → Word × Cc) : Prop :=
  ∀ (d : Operand) (s s1 : State) (l : Loc) (x : Word), s.mem.wf = true →
    operand d .word s = .ok (l, s1) → rdWord l s1 = .ok x →
    ∃ t, exec (i d) s = .next t ∧
      WordEffect l (f s.psw.cc x).1 (f s.psw.cc x).2 (operandStep d .word s) s t

/-- A read-modify-write byte instruction. -/
def ModifiesByte (i : Operand → Instr) (f : Cc → Byte → Byte × Cc) : Prop :=
  ∀ (d : Operand) (s s1 : State) (l : Loc), s.mem.wf = true →
    operand d .byte s = .ok (l, s1) →
    ∃ t, exec (i d) s = .next t ∧
      ByteEffect l (f s.psw.cc (rdByte l s1)).1 (f s.psw.cc (rdByte l s1)).2
        (operandStep d .byte s) s t

/-- A word form and a byte form of one rule, `f` given for every width. -/
def ModifiesBoth (iw ib : Operand → Instr) (f : (w : Nat) → Cc → BitVec w → BitVec w × Cc) : Prop :=
  ModifiesWord iw (f 16) ∧ ModifiesByte ib (f 8)

/-- A word instruction that writes its destination without reading it. -/
def ProducesWord (i : Operand → Instr) (f : Cc → Word × Cc) : Prop :=
  ∀ (d : Operand) (s s1 : State) (l : Loc), s.mem.wf = true →
    operand d .word s = .ok (l, s1) → Writable l →
    ∃ t, exec (i d) s = .next t ∧
      WordEffect l (f s.psw.cc).1 (f s.psw.cc).2 (operandStep d .word s) s t

/-- A byte instruction that writes its destination without reading it. -/
def ProducesByte (i : Operand → Instr) (f : Cc → Byte × Cc) : Prop :=
  ∀ (d : Operand) (s s1 : State) (l : Loc), s.mem.wf = true →
    operand d .byte s = .ok (l, s1) →
    ∃ t, exec (i d) s = .next t ∧
      ByteEffect l (f s.psw.cc).1 (f s.psw.cc).2 (operandStep d .byte s) s t

/-- A word and a byte instruction that read one operand and set the condition codes. -/
def TestsBoth (iw ib : Operand → Instr) (f : (w : Nat) → BitVec w → Cc) : Prop :=
  (∀ (d : Operand) (s s1 : State) (l : Loc) (x : Word),
    operand d .word s = .ok (l, s1) → rdWord l s1 = .ok x →
    ∃ t, exec (iw d) s = .next t ∧ CodesOnly (f 16 x) (operandStep d .word s) s t) ∧
  (∀ (d : Operand) (s s1 : State) (l : Loc),
    operand d .byte s = .ok (l, s1) →
    ∃ t, exec (ib d) s = .next t ∧
      CodesOnly (f 8 (rdByte l s1)) (operandStep d .byte s) s t)

/-- A double-operand word instruction that reads both operands and writes the destination
(42_double_operand.md R170): `f` takes the source first. -/
def CombinesWord (i : Operand → Operand → Instr) (f : Cc → Word → Word → Word × Cc) : Prop :=
  ∀ (src dst : Operand) (s s1 s2 : State) (x y : Word) (l : Loc), s.mem.wf = true →
    sourceWord src s = .ok (x, s1) → operand dst .word s1 = .ok (l, s2) → rdWord l s2 = .ok y →
    ∃ t, exec (i src dst) s = .next t ∧
      WordEffect l (f s.psw.cc x y).1 (f s.psw.cc x y).2 (operandSteps src dst .word s) s t

/-- Its byte form. -/
def CombinesByte (i : Operand → Operand → Instr) (f : Cc → Byte → Byte → Byte × Cc) : Prop :=
  ∀ (src dst : Operand) (s s1 s2 : State) (x : Byte) (l : Loc), s.mem.wf = true →
    sourceByte src s = .ok (x, s1) → operand dst .byte s1 = .ok (l, s2) →
    ∃ t, exec (i src dst) s = .next t ∧
      ByteEffect l (f s.psw.cc x (rdByte l s2)).1 (f s.psw.cc x (rdByte l s2)).2
        (operandSteps src dst .byte s) s t

/-- A word and a byte instruction that read two operands and set the condition codes. -/
def ComparesBoth (iw ib : Operand → Operand → Instr)
    (f : (w : Nat) → Cc → BitVec w → BitVec w → Cc) : Prop :=
  (∀ (src dst : Operand) (s s1 s2 : State) (x y : Word),
    sourceWord src s = .ok (x, s1) → sourceWord dst s1 = .ok (y, s2) →
    ∃ t, exec (iw src dst) s = .next t ∧
      CodesOnly (f 16 s.psw.cc x y) (operandSteps src dst .word s) s t) ∧
  (∀ (src dst : Operand) (s s1 s2 : State) (x y : Byte),
    sourceByte src s = .ok (x, s1) → sourceByte dst s1 = .ok (y, s2) →
    ∃ t, exec (ib src dst) s = .next t ∧
      CodesOnly (f 8 s.psw.cc x y) (operandSteps src dst .byte s) s t)

/-- A branch with its condition (44_branch.md R210): the target is the PC, already past the branch
word, plus twice the signed offset, modulo 2^16. -/
def BranchesOn (i : BitVec 8 → Instr) (cond : Cc → Prop) : Prop :=
  ∀ (x : BitVec 8) (s : State), ∃ t, exec (i x) s = .next t ∧
    (cond s.psw.cc → JumpsTo (BitVec.ofInt 16 ((s.get .pc).toNat + 2 * x.toInt)) s t) ∧
    (¬ cond s.psw.cc → t = s)

/-- An instruction whose one operand cannot be resolved stops with that fault. -/
def StopsUnresolved (i : Operand → Instr) (sz : Size) : Prop :=
  ∀ (d : Operand) (s : State) (f : Fault), operand d sz s = .error f → exec (i d) s = .fault f

/-- A word instruction whose one operand is at an odd address stops with `OddWordAddress`
(20_memory.md R52). -/
def StopsOdd (i : Operand → Instr) : Prop :=
  ∀ (d : Operand) (s s1 : State) (a : Word), operand d .word s = .ok (.mem a, s1) →
    a.getLsbD 0 = true → exec (i d) s = .fault (.oddWordAddress a)

/-- A double-operand instruction stops with the fault of its source, else with that of its
destination. -/
def StopsUnresolvedBoth (i : Operand → Operand → Instr) (sz : Size) : Prop :=
  (∀ (src dst : Operand) (s : State) (f : Fault), operand src sz s = .error f →
    exec (i src dst) s = .fault f) ∧
  (∀ (src dst : Operand) (s s1 : State) (l : Loc) (f : Fault), operand src sz s = .ok (l, s1) →
    (sz = .word → Writable l) → operand dst sz s1 = .error f → exec (i src dst) s = .fault f)

/-- A double-operand word instruction stops at an odd source address, else at an odd destination
address. -/
def StopsOddBoth (i : Operand → Operand → Instr) : Prop :=
  (∀ (src dst : Operand) (s s1 : State) (a : Word), operand src .word s = .ok (.mem a, s1) →
    a.getLsbD 0 = true → exec (i src dst) s = .fault (.oddWordAddress a)) ∧
  (∀ (src dst : Operand) (s s1 s2 : State) (l : Loc) (a : Word), operand src .word s = .ok (l, s1) →
    Writable l → operand dst .word s1 = .ok (.mem a, s2) → a.getLsbD 0 = true →
    exec (i src dst) s = .fault (.oddWordAddress a))

/-- The word instructions with one operand that they read or write (20_memory.md R62). -/
def wordUnary : List (Operand → Instr) :=
  [.clr, .com, .inc, .dec, .neg, .adc, .sbc, .tst, .ror, .rol, .asr, .asl, .swab, .sxt]

/-- The byte instructions with one operand (R62). -/
def byteUnary : List (Operand → Instr) :=
  [.clrb, .comb, .incb, .decb, .negb, .adcb, .sbcb, .tstb, .rorb, .rolb, .asrb, .aslb, .mtps, .mfps]

/-- The word instructions with one operand and a register field (R62). -/
def wordWithReg : List (Reg → Operand → Instr) :=
  [.mul, .div, .ash, .ashc, .xor, .ior, .iow]

/-- The word instructions with two operands (R62). -/
def wordBinary : List (Operand → Operand → Instr) :=
  [.mov, .cmp, .bit, .bic, .bis, .add, .sub]

/-- The byte instructions with two operands (R62). -/
def byteBinary : List (Operand → Operand → Instr) :=
  [.movb, .cmpb, .bitb, .bicb, .bisb]

/-! ## Arithmetic of the rules -/

/-- A value outside the signed numbers of `w` bits (10_state.md R25). -/
def outOfRange (w : Nat) (v : Int) : Bool :=
  decide (v < -(2 ^ (w - 1) : Int) ∨ (2 ^ (w - 1) : Int) ≤ v)

/-- The shift count of ASH and ASHC: the low six bits as a signed number
(43_register_operand.md R193). -/
def shiftCount6 (x : Word) : Int :=
  if x.toNat % 64 < 32 then (x.toNat % 64 : Nat) else (x.toNat % 64 : Nat) - 64

/-- ASH and ASHC on a value of `w` bits shifted by `n` places (R193, R194), `cZero` being C after a
shift by no place. -/
def shifted (w : Nat) (cZero : Bool) (n : Int) (v : BitVec w) : BitVec w × Cc :=
  if 0 < n then
    let k := n.toNat
    let r := BitVec.ofNat w (v.toNat * 2 ^ k)
    (r, codes r
      (decide (∃ i < k, (BitVec.ofNat w (v.toNat * 2 ^ (i + 1))).getLsbD (w - 1) ≠
        v.getLsbD (w - 1)))
      (decide (k ≤ w) && v.getLsbD (w - k)))
  else if n < 0 then
    let m := (-n).toNat
    let r := BitVec.ofInt w (v.toInt / 2 ^ m)
    (r, codes r false (if m ≤ w then v.getLsbD (m - 1) else v.getLsbD (w - 1)))
  else (v, codes v false cZero)

/-- C after ASH or ASHC by no place (R193). -/
def zeroShiftCarry (s : State) : Bool :=
  match s.cfg.sw.ashCOnZero with
  | .cleared => false
  | .unchanged => s.psw.cc.c

/-- The registers after a 32-bit value went into the pair of the even register `r`: its upper half
into REG, its lower half into `x[REG|1]` (R190); every other register moved by `step`. -/
def pairWritten (r : Reg) (hi lo : Word) (step : Reg → Word) (s : State) (q : Reg) : Word :=
  if q.bits = r.bits ||| 1 then lo else if q = r then hi else s.get q + step q

/-! ## The I/O space (47_io.md R290, R291, 60_exceptions.md R350 to R380) -/

/-- `v` is a register of `n` bits with value `x` as IOR reads it: the bits above by IO_UNUSED_BITS
(R290). -/
def ReadsLow (s : State) (n : Nat) (x v : Word) : Prop :=
  (∀ j, j < n → v.getLsbD j = x.getLsbD j) ∧
  (s.cfg.sw.ioUnusedBits = .zero → ∀ j, n ≤ j → v.getLsbD j = false) ∧
  (s.cfg.sw.ioUnusedBits = .ones → ∀ j, n ≤ j → j < 16 → v.getLsbD j = true)

/-- `v` is a word `IoRead(a)` may return in `s` (R290, R351 to R377, R380). -/
def ReadsAs (s : State) (a : Nat) (v : Word) : Prop :=
  match a with
  | 0x00 => ReadsLow s 7 (s.io.ddra.setWidth 16) v
  | 0x01 => ReadsLow s 7 (s.io.porta.setWidth 16) v
  | 0x02 => (∀ j, j < 7 → s.io.ddra.getLsbD j = false → v.getLsbD j = s.io.pins.getLsbD j) ∧
      (s.cfg.sw.ioUnusedBits = .zero → ∀ j, 7 ≤ j → v.getLsbD j = false) ∧
      (s.cfg.sw.ioUnusedBits = .ones → ∀ j, 7 ≤ j → j < 16 → v.getLsbD j = true)
  | 0x03 => (∀ j, j < 4 → v.getLsbD (j + 1) = s.io.inta.getLsbD j) ∧
      (s.cfg.sw.ioUnusedBits = .zero → ∀ j, 7 ≤ j → v.getLsbD j = false) ∧
      (s.cfg.sw.ioUnusedBits = .ones → ∀ j, 7 ≤ j → j < 16 → v.getLsbD j = true)
  | 0x04 => ReadsLow s s.cfg.widths.t0pre s.io.t0.pre v
  | 0x05 => ReadsLow s s.cfg.widths.t1pre s.io.t1.pre v
  | 0x06 => v = s.io.t0.top
  | 0x07 => v = s.io.t1.top
  | 0x08 => v = s.io.t0.count
  | 0x09 => v = s.io.t1.count
  | 0x0A => ReadsLow s 2 (s.io.tint.setWidth 16) v
  | 0x0B => ReadsLow s s.cfg.widths.sdiv s.io.sdiv v
  | 0x0C => (s.io.sbys = false → ∀ j, j < 8 → v.getLsbD j = s.io.spiRx.getLsbD j) ∧
      (s.cfg.sw.ioUnusedBits = .zero → ∀ j, 8 ≤ j → v.getLsbD j = false) ∧
      (s.cfg.sw.ioUnusedBits = .ones → ∀ j, 8 ≤ j → j < 16 → v.getLsbD j = true)
  | 0x0D => v.toNat = s.io.sbys.toNat
  | 0x0E => ReadsLow s s.cfg.widths.udiv s.io.udiv v
  | 0x0F => ReadsLow s 8 (s.io.uartRx.setWidth 16) v
  | 0x10 => v.toNat = s.io.ubsy.toNat
  | _ => v = 0xFFFF

/-- A word cut to `n` bits. -/
def cut (n : Nat) (v : Word) : Word :=
  BitVec.ofNat 16 (v.toNat % 2 ^ n)

/-- The peripherals after `IoWrite(a, v)` to a port that is not busy (R291, R351 to R377); the counters of
a transfer start at zero (log 9). -/
def afterIoWrite (s : State) (a : Nat) (v : Word) : Periph :=
  match a with
  | 0x00 => { s.io with ddra := v.setWidth 7 }
  | 0x01 => { s.io with porta := v.setWidth 7 }
  | 0x03 => { s.io with inta := v.extractLsb' 1 4 }
  | 0x04 => { s.io with t0 := { s.io.t0 with pre := cut s.cfg.widths.t0pre v } }
  | 0x05 => { s.io with t1 := { s.io.t1 with pre := cut s.cfg.widths.t1pre v } }
  | 0x06 => { s.io with t0 := { s.io.t0 with top := v } }
  | 0x07 => { s.io with t1 := { s.io.t1 with top := v } }
  | 0x08 => { s.io with t0 := { s.io.t0 with count := v } }
  | 0x09 => { s.io with t1 := { s.io.t1 with count := v } }
  | 0x0A => { s.io with tint := v.setWidth 2 }
  | 0x0B => { s.io with sdiv := cut s.cfg.widths.sdiv v }
  | 0x0C => { s.io with spiTx := v.setWidth 8, sbys := true, spiDiv := 0, spiBits := 0 }
  | 0x0E => { s.io with udiv := cut s.cfg.widths.udiv v }
  | 0x0F => { s.io with uartTx := v.setWidth 8, ubsy := true, uartTxBits := 0 }
  | _ => s.io

/-- The port that a write to the I/O address `a` would start is busy (R371, R376). -/
def PortBusy (s : State) (a : Nat) : Prop :=
  (a = 0x0C ∧ s.io.sbys = true) ∨ (a = 0x0F ∧ s.io.ubsy = true)

end Sys2Proof.Safety
end

