-- ==== Sys2Proof/Certificates/Slice0/Obligations.lean ====
section
/-! DEFINITION. The statements about the machine, one `Obligations.<Name> : Prop` each. Their terms are
those of Sys2Proof/Safety.lean. A statement that reads a byte after it was stored has the canonical
form of memory as a premise (`s.mem.wf`), part of the invariant that `StepKeepsInvariant` states. -/

section

open Sys2Proof Sys2Proof.Machine Sys2Proof.Safety

/-! ## Reset -/

/-- 10_state.md R38, 70_reset_and_hazards.md R391, R392: what the host's reset leaves, and what
`State.reset` holds where the spec states a value. -/
def Obligations.ResetValues : Prop :=
  (∀ (s : State) (st : Settings) (rest : List Event), s.script = .reset st :: rest →
    ∃ t, step s = .next t ∧
      (∀ q, t.get q = if q = .pc then BitVec.ofNat 16 (2 * st.saddr.toNat) else 0) ∧
      pswByte t.psw = 0 ∧ t.run = .running ∧ t.tinh = false ∧ t.ivb &&& 0x001F = 0 ∧
      (s.cfg.sw.irqLatchReset = .clear → ∀ k, t.irq.get k = false) ∧
      t.io.ddra = 0 ∧ t.io.porta = 0 ∧ t.io.inta = 0 ∧ t.io.tint = 0 ∧
      t.io.sbys = false ∧ t.io.ubsy = false ∧ t.io.pins = s.io.pins ∧
      KeepsMemory s t ∧ t.cfg = { s.cfg with settings := st } ∧ t.script = rest) ∧
  (∀ q, State.reset.get q = 0) ∧ pswByte State.reset.psw = 0 ∧ State.reset.run = .running ∧
  State.reset.tinh = false ∧ (∀ k, State.reset.irq.get k = false) ∧
  State.reset.io.ddra = 0 ∧ State.reset.io.porta = 0 ∧ State.reset.io.inta = 0 ∧
  State.reset.io.tint = 0 ∧ State.reset.io.sbys = false ∧ State.reset.io.ubsy = false ∧
  State.reset.cfg.settings =
    { mpsw := false, web := .fullCycle, ile := false, saddr := 0, ten := false }

/-! ## Encoding -/

/-- 30_encoding.md R80 to R95: decoding the encoded word of a well-formed instruction gives the
instruction back, with every operand at every value, for every value of the OPEN encodings that
meets the constraints of R94. -/
def Obligations.DecodeOfEncode : Prop :=
  ∀ (e : Encodings) (i : Instr), e.ok = true → i.wellFormed = true →
    decode e (encode e i) = .ok i

/-- 30_encoding.md R95: a word that decodes is the encoding of what it decodes to, which is well
formed: no bit of the word is dropped. -/
def Obligations.EncodeOfDecode : Prop :=
  ∀ (e : Encodings) (w : Word) (i : Instr), decode e w = .ok i →
    encode e i = w ∧ i.wellFormed = true

/-- 30_encoding.md R100: the words that do not encode a valid opcode are the eight ranges, less what
the OPEN encodings occupy. -/
def Obligations.IllegalWords : Prop :=
  ∀ (e : Encodings) (w : Word),
    (∃ r, decode e w = .error r) ↔
      ((0x0008 ≤ w.toNat ∧ w.toNat ≤ 0x003F) ∨ (0x0088 ≤ w.toNat ∧ w.toNat ≤ 0x009F) ∨
        (0x0D40 ≤ w.toNat ∧ w.toNat ≤ 0x0DBF) ∨ (0x0E00 ≤ w.toNat ∧ w.toNat ≤ 0x0FFF) ∨
        (0x7A00 ≤ w.toNat ∧ w.toNat ≤ 0x7DFF) ∨ (0x8D40 ≤ w.toNat ∧ w.toNat ≤ 0x8DBF) ∨
        (0x8E00 ≤ w.toNat ∧ w.toNat ≤ 0x8FFF) ∨ 0xF000 ≤ w.toNat) ∧
      w ≠ e.svb ∧ w ≠ e.trace ∧ w.extractLsb' 9 7 ≠ e.ior ∧ w.extractLsb' 9 7 ≠ e.iow

/-- Words written out from the encodings of R89 to R93 and R301, one of each family. -/
def Obligations.SampleWords : Prop :=
  ∀ e : Encodings,
    decode e 0b1000101000000011 = .ok (.clrb ⟨.register, .r3⟩) ∧
    decode e 0b0001010111000000 = .ok (.mov ⟨.autoinc, .pc⟩ ⟨.register, .r0⟩) ∧
    decode e 0b1110000000000001 = .ok (.sub ⟨.register, .r0⟩ ⟨.register, .r1⟩) ∧
    decode e 0b0111011010000000 = .ok (.ashc .r2 ⟨.register, .r0⟩) ∧
    decode e 0b0000001011111110 = .ok (.bne 0xFE) ∧
    decode e 0b0000100111011111 = .ok (.jsr .pc ⟨.autoincDeferred, .pc⟩) ∧
    decode e 0b0111111000000010 = .ok (.sob .r0 2) ∧
    decode e 0b0000110100000100 = .ok (.mark 4) ∧
    decode e 0b1000100100000111 = .ok (.trap 7) ∧
    decode e 0b1000110111000000 = .ok (.mfps ⟨.register, .r0⟩) ∧
    decode e 0b0000000000000111 = .ok .mftp ∧
    decode e 0b0000000010100101 = .ok (.ccop false false true false true) ∧
    decode e 0b0000000010110001 = .ok .sec

/-! ## Memory -/

/-- 20_memory.md R51, R52, R55, R57: a stored word is read back, byte by byte with the low byte at the
even address, and as an instruction; an odd word address is no access. -/
def Obligations.WordMemory : Prop :=
  ∀ (s : State) (a v : Word), s.mem.wf = true →
    (a.getLsbD 0 = false → readWord a s = .ok (s.mem.get (a.toNat + 1) ++ s.mem.get a.toNat) ∧
      ∃ t, writeWord a v s = .ok t ∧ StoresWord a v s t ∧
      (∀ q, t.get q = s.get q) ∧ t.psw = s.psw ∧ KeepsRest s t ∧
      readWord a t = .ok v ∧
      (¬ AtWindow a s → readByte a t = v.extractLsb' 0 8) ∧
      readByte (a + 1) t = v.extractLsb' 8 8 ∧
      (s.get .pc = a → fetch t = .ok (v, t.set .pc (a + 2)))) ∧
    (a.getLsbD 0 = true → writeWord a v s = .error (.oddWordAddress a) ∧
      readWord a s = .error (.oddWordAddress a))

/-- 20_memory.md R56, R58, R59: a byte access to 0xFFFE with MPSW = 1 is an access to the PSW; every
other byte access, and every word access, is one to memory. -/
def Obligations.PswWindow : Prop :=
  ∀ (s : State) (a : Word) (b : Byte), s.mem.wf = true →
    (∀ q, (writeByte a b s).get q = s.get q) ∧ KeepsRest s (writeByte a b s) ∧
    (s.cfg.settings.mpsw = true → a = 0xFFFE →
      readByte a s = pswByte s.psw ∧ KeepsMemory s (writeByte a b s) ∧
      LoadedFrom b s.cfg.settings.ten (writeByte a b s).psw) ∧
    ((s.cfg.settings.mpsw = false ∨ a ≠ 0xFFFE) →
      readByte a s = s.mem.get a.toNat ∧ StoresByte a b s (writeByte a b s) ∧
      (writeByte a b s).psw = s.psw) ∧
    readWord 0xFFFE s = .ok (s.mem.get 0xFFFF ++ s.mem.get 0xFFFE)

/-! ## Operands -/

/-- 40_addressing_modes.md R111 to R118, R120, R123: the location and the register step of each mode,
and the faults of a mode that reads a word. -/
def Obligations.OperandModes : Prop :=
  ∀ (rn : Reg) (sz : Size) (s : State),
    let x := s.get rn
    let delta : Word :=
      if sz = .word ∨ rn = .pc ∨ (rn = .sp ∧ s.cfg.sw.spByteStep = .two) then 2 else 1
    let word (a : Word) : Word := s.mem.get (a.toNat + 1) ++ s.mem.get a.toNat
    let next := s.get .pc + 2
    let indexed : Word := (if rn = .pc then next else x) + word (s.get .pc)
    operand ⟨.register, rn⟩ sz s = .ok (.reg rn, s) ∧
    operand ⟨.deferred, rn⟩ sz s = .ok (.mem x, s) ∧
    operand ⟨.autoinc, rn⟩ sz s = .ok (.mem x, s.set rn (x + delta)) ∧
    operand ⟨.autodec, rn⟩ sz s = .ok (.mem (x - delta), s.set rn (x - delta)) ∧
    operand ⟨.autoincDeferred, rn⟩ sz s =
      (if x.getLsbD 0 then .error (.oddWordAddress x)
        else .ok (.mem (word x), s.set rn (x + 2))) ∧
    operand ⟨.autodecDeferred, rn⟩ sz s =
      (if (x - 2).getLsbD 0 then .error (.oddWordAddress (x - 2))
        else .ok (.mem (word (x - 2)), s.set rn (x - 2))) ∧
    operand ⟨.indexed, rn⟩ sz s =
      (if (s.get .pc).getLsbD 0 then .error (.oddPc (s.get .pc))
        else .ok (.mem indexed, s.set .pc next)) ∧
    operand ⟨.indexedDeferred, rn⟩ sz s =
      (if (s.get .pc).getLsbD 0 then .error (.oddPc (s.get .pc))
        else if indexed.getLsbD 0 then .error (.oddWordAddress indexed)
        else .ok (.mem (word indexed), s.set .pc next))

/-- 20_memory.md R53: an instruction fetch with an odd PC is the model fault OddPC. -/
def Obligations.OddPcStops : Prop :=
  ∀ s : State, (s.get .pc).getLsbD 0 = true →
    fetch s = .error (.oddPc (s.get .pc)) ∧
    (s.script = [] → s.run = .running → step s = .fault (.oddPc (s.get .pc)))

/-- 20_memory.md R52, 40_addressing_modes.md R120: an operand that cannot be resolved, or a word operand
at an odd address, stops every instruction with that fault. -/
def Obligations.OperandStops : Prop :=
  (∀ i ∈ wordUnary, StopsUnresolved i .word ∧ StopsOdd i) ∧
  (∀ i ∈ byteUnary, StopsUnresolved i .byte) ∧
  (∀ i ∈ wordWithReg, ∀ r, StopsUnresolved (i r) .word ∧ StopsOdd (i r)) ∧
  (∀ i ∈ wordBinary, StopsUnresolvedBoth i .word ∧ StopsOddBoth i) ∧
  (∀ i ∈ byteBinary, StopsUnresolvedBoth i .byte) ∧
  StopsUnresolved .jmp .word ∧ ∀ r, StopsUnresolved (.jsr r) .word

/-- 20_memory.md R52 for the stack: a push or pop with an odd SP is the model fault OddWordAddress. -/
def Obligations.OddStackStops : Prop :=
  ∀ s : State,
    ((s.get .sp).getLsbD 0 = true →
      (∀ c, exec (.emt c) s = .fault (.oddWordAddress (s.get .sp - 2))) ∧
      (∀ c, exec (.trap c) s = .fault (.oddWordAddress (s.get .sp - 2))) ∧
      exec .bpt s = .fault (.oddWordAddress (s.get .sp - 2)) ∧
      exec .iot s = .fault (.oddWordAddress (s.get .sp - 2)) ∧
      exec .rti s = .fault (.oddWordAddress (s.get .sp)) ∧
      exec .rtt s = .fault (.oddWordAddress (s.get .sp)) ∧
      ∀ r, exec (.rts r) s = .fault (.oddWordAddress (s.get .sp))) ∧
    (∀ n : BitVec 6, s.cfg.sw.markRule = .source →
      (s.get .sp + n.setWidth 16).getLsbD 0 = true →
      exec (.mark n) s = .fault (.oddWordAddress (s.get .sp + n.setWidth 16))) ∧
    (∀ r d s1 l, operand d .word s = .ok (l, s1) → (s1.get .sp).getLsbD 0 = true →
      exec (.jsr r d) s = .fault (.oddWordAddress (s1.get .sp - 2)))

/-! ## Single operand (41_single_operand.md) -/

/-- R141, CLR and CLRB. -/
def Obligations.ClrResult : Prop :=
  CodedSo 0x0A00 .clr ∧ CodedSo 0x8A00 .clrb ∧
  ProducesWord .clr (fun _ => (0, { n := false, z := true, v := false, c := false })) ∧
  ProducesByte .clrb (fun _ => (0, { n := false, z := true, v := false, c := false }))

/-- R142, COM and COMB. -/
def Obligations.ComResult : Prop :=
  CodedSo 0x0A40 .com ∧ CodedSo 0x8A40 .comb ∧
  ModifiesBoth .com .comb fun w _ d =>
    let r := BitVec.ofNat w (2 ^ w - 1 - d.toNat)
    (r, codes r false true)

/-- R143, INC and INCB; R144, DEC and DECB: C is kept. -/
def Obligations.IncDecResult : Prop :=
  CodedSo 0x0A80 .inc ∧ CodedSo 0x8A80 .incb ∧
  CodedSo 0x0AC0 .dec ∧ CodedSo 0x8AC0 .decb ∧
  (ModifiesBoth .inc .incb fun w cc d =>
    let r := BitVec.ofNat w (d.toNat + 1)
    (r, codes r (decide (d.toNat = 2 ^ (w - 1) - 1)) cc.c)) ∧
  (ModifiesBoth .dec .decb fun w cc d =>
    let r := BitVec.ofInt w (d.toNat - 1)
    (r, codes r (decide (d.toNat = 2 ^ (w - 1))) cc.c))

/-- R145, NEG and NEGB. -/
def Obligations.NegResult : Prop :=
  CodedSo 0x0B00 .neg ∧ CodedSo 0x8B00 .negb ∧
  ModifiesBoth .neg .negb fun w _ d =>
    let r := BitVec.ofInt w (0 - d.toNat)
    (r, codes r (decide (r.toNat = 2 ^ (w - 1))) (decide (r ≠ 0)))

/-- R146, TST and TSTB. -/
def Obligations.TstResult : Prop :=
  CodedSo 0x0BC0 .tst ∧ CodedSo 0x8BC0 .tstb ∧
  TestsBoth .tst .tstb fun _ d => codes d false false

/-- R147, ASR and ASRB; R148, ASL and ASLB: V is the new N xor the new C. -/
def Obligations.AsrAslResult : Prop :=
  CodedSo 0x0C80 .asr ∧ CodedSo 0x8C80 .asrb ∧
  CodedSo 0x0CC0 .asl ∧ CodedSo 0x8CC0 .aslb ∧
  (ModifiesBoth .asr .asrb fun w _ d =>
    let r := BitVec.ofInt w (d.toInt / 2)
    (r, codes r (r.getLsbD (w - 1) ^^ d.getLsbD 0) (d.getLsbD 0))) ∧
  (ModifiesBoth .asl .aslb fun w _ d =>
    let r := BitVec.ofNat w (2 * d.toNat)
    (r, codes r (r.getLsbD (w - 1) ^^ d.getLsbD (w - 1)) (d.getLsbD (w - 1))))

/-- R149, ROR and RORB; R150, ROL and ROLB: a rotate through C. -/
def Obligations.RorRolResult : Prop :=
  CodedSo 0x0C00 .ror ∧ CodedSo 0x8C00 .rorb ∧
  CodedSo 0x0C40 .rol ∧ CodedSo 0x8C40 .rolb ∧
  (ModifiesBoth .ror .rorb fun w cc d =>
    let r := BitVec.ofNat w (cc.c.toNat * 2 ^ (w - 1) + d.toNat / 2)
    (r, codes r (r.getLsbD (w - 1) ^^ d.getLsbD 0) (d.getLsbD 0))) ∧
  (ModifiesBoth .rol .rolb fun w cc d =>
    let r := BitVec.ofNat w (2 * d.toNat + cc.c.toNat)
    (r, codes r (r.getLsbD (w - 1) ^^ d.getLsbD (w - 1)) (d.getLsbD (w - 1))))

/-- R152, ADC and ADCB; R153, SBC and SBCB, C being the borrow. -/
def Obligations.AdcSbcResult : Prop :=
  CodedSo 0x0B40 .adc ∧ CodedSo 0x8B40 .adcb ∧
  CodedSo 0x0B80 .sbc ∧ CodedSo 0x8B80 .sbcb ∧
  (ModifiesBoth .adc .adcb fun w cc d =>
    let r := BitVec.ofNat w (d.toNat + cc.c.toNat)
    (r, codes r (outOfRange w (d.toInt + cc.c.toNat)) (decide (2 ^ w ≤ d.toNat + cc.c.toNat)))) ∧
  (ModifiesBoth .sbc .sbcb fun w cc d =>
    let r := BitVec.ofInt w (d.toNat - cc.c.toNat)
    (r, codes r (outOfRange w (d.toInt - cc.c.toNat)) (decide (d.toNat < cc.c.toNat))))

/-- R151, SWAB: N and Z from the 16-bit result, or from its low byte with SWAB_FLAGS_LOW_BYTE. -/
def Obligations.SwabResult : Prop :=
  CodedSo 0x00C0 .swab ∧
  ∀ (d : Operand) (s s1 : State) (l : Loc) (x : Word), s.mem.wf = true →
    operand d .word s = .ok (l, s1) → rdWord l s1 = .ok x →
    let r : Word := BitVec.ofNat 16 (x.toNat % 256 * 256 + x.toNat / 256)
    let cc : Cc :=
      if s.cfg.sw.swabFlagsLowByte then
        { n := r.getLsbD 7, z := decide (r.toNat % 256 = 0), v := false, c := false }
      else codes r false false
    ∃ t, exec (.swab d) s = .next t ∧ WordEffect l r cc (operandStep d .word s) s t

/-- R154, SXT: only Z changes. -/
def Obligations.SxtResult : Prop :=
  CodedSo 0x0DC0 .sxt ∧
  ProducesWord .sxt fun cc => (if cc.n then 0xFFFF else 0x0000, { cc with z := !cc.n })

/-! ## Double operand (42_double_operand.md) -/

/-- R171, MOV, and MOVB, which sign-extends into a register. -/
def Obligations.MovResult : Prop :=
  CodedDo 0x1000 .mov ∧ CodedDo 0x9000 .movb ∧
  (∀ (src dst : Operand) (s s1 s2 : State) (x : Word) (l : Loc), s.mem.wf = true →
    sourceWord src s = .ok (x, s1) → operand dst .word s1 = .ok (l, s2) → Writable l →
    ∃ t, exec (.mov src dst) s = .next t ∧
      WordEffect l x (codes x false s.psw.cc.c) (operandSteps src dst .word s) s t) ∧
  (∀ (src dst : Operand) (s s1 s2 : State) (x : Byte) (l : Loc), s.mem.wf = true →
    sourceByte src s = .ok (x, s1) → operand dst .byte s1 = .ok (l, s2) →
    ∃ t, exec (.movb src dst) s = .next t ∧
      match l with
      | .reg _ => WordEffect l (BitVec.ofInt 16 x.toInt) (codes x false s.psw.cc.c)
          (operandSteps src dst .byte s) s t
      | .mem _ => ByteEffect l x (codes x false s.psw.cc.c) (operandSteps src dst .byte s) s t)

/-- R172, CMP and CMPB: the codes of source minus destination. -/
def Obligations.CmpResult : Prop :=
  CodedDo 0x2000 .cmp ∧ CodedDo 0xA000 .cmpb ∧
  ComparesBoth .cmp .cmpb fun w _ x y =>
    codes (BitVec.ofInt w (x.toInt - y.toInt)) (outOfRange w (x.toInt - y.toInt))
      (decide (x.toNat < y.toNat))

/-- R173, ADD; R174, SUB: destination plus or minus source. -/
def Obligations.AddSubResult : Prop :=
  CodedDo 0x6000 .add ∧ CodedDo 0xE000 .sub ∧
  (CombinesWord .add fun _ x y =>
    let r : Word := BitVec.ofNat 16 (y.toNat + x.toNat)
    (r, codes r (outOfRange 16 (y.toInt + x.toInt)) (decide (2 ^ 16 ≤ y.toNat + x.toNat)))) ∧
  (CombinesWord .sub fun _ x y =>
    let r : Word := BitVec.ofInt 16 (y.toInt - x.toInt)
    (r, codes r (outOfRange 16 (y.toInt - x.toInt)) (decide (y.toNat < x.toNat))))

/-- R175, BIT and BITB; R176, BIC and BICB; R177, BIS and BISB: C is kept. -/
def Obligations.BitResult : Prop :=
  CodedDo 0x3000 .bit ∧ CodedDo 0xB000 .bitb ∧
  CodedDo 0x4000 .bic ∧ CodedDo 0xC000 .bicb ∧
  CodedDo 0x5000 .bis ∧ CodedDo 0xD000 .bisb ∧
  (ComparesBoth .bit .bitb fun _ cc x y => codes (x &&& y) false cc.c) ∧
  (CombinesWord .bic fun cc x y => (y &&& ~~~x, codes (y &&& ~~~x) false cc.c)) ∧
  (CombinesByte .bicb fun cc x y => (y &&& ~~~x, codes (y &&& ~~~x) false cc.c)) ∧
  (CombinesWord .bis fun cc x y => (y ||| x, codes (y ||| x) false cc.c)) ∧
  (CombinesByte .bisb fun cc x y => (y ||| x, codes (y ||| x) false cc.c))

/-! ## Register operand (43_register_operand.md) -/

/-- R191, MUL: the 32-bit product into the pair of an even REG, its low half into an odd REG. -/
def Obligations.MulResult : Prop :=
  CodedRo 0x7000 .mul ∧
  ∀ (reg : Reg) (src : Operand) (s s1 : State) (x : Word), sourceWord src s = .ok (x, s1) →
    let step := operandStep src .word s
    let p : Int := (s.get reg + step reg).toInt * x.toInt
    let cc : Cc := { n := decide (p < 0), z := decide (p = 0), v := false,
                     c := decide (p < -32768 ∨ p ≥ 32767) }
    ∃ t, exec (.mul reg src) s = .next t ∧
      (reg.bits.getLsbD 0 = false → RegisterEffect
        (pairWritten reg (BitVec.ofInt 16 (p / 65536)) (BitVec.ofInt 16 p) step s) cc s t) ∧
      (reg.bits.getLsbD 0 = true → RegisterEffect
        (fun q => if q = reg then BitVec.ofInt 16 p else s.get q + step q) cc s t)

/-- R192, DIV with an even REG, for every DIV_NUMERICS a configuration can hold (log 18): what the row
`listed` for the operands says, else the switches. With a divisor that is not zero: the quotient in
the pair unless V = 1 and the pair is kept, C = 0; the quotient of -2^31 by -1 is the row's, else
free. With a zero divisor: V = C = 1; the pair, N and Z are the row's, else free. -/
def Obligations.DivResult : Prop :=
  CodedRo 0x7200 .div ∧
  ∀ (reg : Reg) (src : Operand) (s s1 : State) (x : Word), sourceWord src s = .ok (x, s1) →
    reg.bits.getLsbD 0 = false →
    let step := operandStep src .word s
    let hi := s.get reg + step reg
    let lo := s.get (regSucc reg) + step (regSucc reg)
    let dividend : Int := hi.toInt * 65536 + lo.toNat
    let listed : Option DivRule :=
      (s.cfg.div.find? fun e => e.hi = hi ∧ e.lo = lo ∧ e.src = x).map (·.rule)
    let rounding := (listed.map (·.rounding)).getD s.cfg.sw.divRounding
    let vReading := (listed.map (·.vReading)).getD s.cfg.sw.divVReading
    let writesOnV := (listed.map (·.writesOnV)).getD s.cfg.sw.divWritesOnV
    (x ≠ 0 → ∃ (t : State) (q : Long), exec (.div reg src) s = .next t ∧
      (¬ (dividend = -2147483648 ∧ x.toInt = -1) →
        q = BitVec.ofInt 32 (match rounding with
          | .towardZero => dividend.tdiv x.toInt
          | .towardNegInf => dividend.fdiv x.toInt
          | .towardPosInf => -((-dividend).fdiv x.toInt))) ∧
      (dividend = -2147483648 → x.toInt = -1 → ∀ rule, listed = some rule → q = rule.pair) ∧
      let v : Bool := match vReading with
        | .pair => decide (dividend.natAbs > x.toInt.natAbs)
        | .highWord => decide (hi.toInt.natAbs > x.toInt.natAbs)
      RegisterEffect
        (if v && !writesOnV then fun r => s.get r + step r
          else pairWritten reg (q.extractLsb' 16 16) (q.extractLsb' 0 16) step s)
        (codes q v false) s t) ∧
    (x = 0 → ∃ (t : State) (q : Long) (n z : Bool), exec (.div reg src) s = .next t ∧
      (∀ rule, listed = some rule → q = rule.pair ∧ n = rule.n ∧ z = rule.z) ∧
      RegisterEffect (pairWritten reg (q.extractLsb' 16 16) (q.extractLsb' 0 16) step s)
        { n := n, z := z, v := true, c := true } s t)

/-- R193, ASH. -/
def Obligations.AshResult : Prop :=
  CodedRo 0x7400 .ash ∧
  ∀ (reg : Reg) (src : Operand) (s s1 : State) (x : Word), sourceWord src s = .ok (x, s1) →
    let step := operandStep src .word s
    let r := shifted 16 (zeroShiftCarry s) (shiftCount6 x) (s.get reg + step reg)
    ∃ t, exec (.ash reg src) s = .next t ∧
      RegisterEffect (fun q => if q = reg then r.1 else s.get q + step q) r.2 s t

/-- R194, ASHC with an even REG. -/
def Obligations.AshcResult : Prop :=
  CodedRo 0x7600 .ashc ∧
  ∀ (reg : Reg) (src : Operand) (s s1 : State) (x : Word), sourceWord src s = .ok (x, s1) →
    reg.bits.getLsbD 0 = false →
    let step := operandStep src .word s
    let pair : Long := BitVec.ofNat 32
      ((s.get reg + step reg).toNat * 65536 + (s.get (regSucc reg) + step (regSucc reg)).toNat)
    let r := shifted 32 (zeroShiftCarry s) (shiftCount6 x) pair
    ∃ t, exec (.ashc reg src) s = .next t ∧
      RegisterEffect (pairWritten reg (r.1.extractLsb' 16 16) (r.1.extractLsb' 0 16) step s)
        r.2 s t

/-- R192 and R194: DIV and ASHC with an odd REG are the model fault OddRegisterPair. -/
def Obligations.OddRegisterPairStops : Prop :=
  ∀ (reg : Reg) (src : Operand) (s s1 : State) (x : Word), sourceWord src s = .ok (x, s1) →
    reg.bits.getLsbD 0 = true →
    exec (.div reg src) s = .fault (.oddRegisterPair reg) ∧
    exec (.ashc reg src) s = .fault (.oddRegisterPair reg)

/-- R195, XOR: REG is read after the destination is resolved. -/
def Obligations.XorResult : Prop :=
  CodedRo 0x7800 .xor ∧
  ∀ (reg : Reg) (d : Operand) (s s1 : State) (l : Loc) (x : Word), s.mem.wf = true →
    operand d .word s = .ok (l, s1) → rdWord l s1 = .ok x →
    let r := (s.get reg + operandStep d .word s reg) ^^^ x
    ∃ t, exec (.xor reg d) s = .next t ∧
      WordEffect l r (codes r false s.psw.cc.c) (operandStep d .word s) s t

/-! ## Branches (44_branch.md) -/

/-- R210 to R219: BR and the branches on one condition code. -/
def Obligations.SimpleBranches : Prop :=
  CodedBr 0x0100 .br ∧ CodedBr 0x0200 .bne ∧ CodedBr 0x0300 .beq ∧
  CodedBr 0x8000 .bpl ∧ CodedBr 0x8100 .bmi ∧ CodedBr 0x8400 .bvc ∧
  CodedBr 0x8500 .bvs ∧ CodedBr 0x8600 .bcc ∧ CodedBr 0x8700 .bcs ∧
  BranchesOn .br (fun _ => True) ∧
  BranchesOn .bne (fun cc => cc.z = false) ∧ BranchesOn .beq (fun cc => cc.z = true) ∧
  BranchesOn .bpl (fun cc => cc.n = false) ∧ BranchesOn .bmi (fun cc => cc.n = true) ∧
  BranchesOn .bvc (fun cc => cc.v = false) ∧ BranchesOn .bvs (fun cc => cc.v = true) ∧
  BranchesOn .bcc (fun cc => cc.c = false) ∧ BranchesOn .bcs (fun cc => cc.c = true)

/-- R210, R220 to R225: the signed and unsigned comparisons. -/
def Obligations.ComparisonBranches : Prop :=
  CodedBr 0x0400 .bge ∧ CodedBr 0x0500 .blt ∧ CodedBr 0x0600 .bgt ∧
  CodedBr 0x0700 .ble ∧ CodedBr 0x8200 .bhi ∧ CodedBr 0x8300 .blos ∧
  BranchesOn .bge (fun cc => cc.n = cc.v) ∧
  BranchesOn .blt (fun cc => cc.n ≠ cc.v) ∧
  BranchesOn .bgt (fun cc => cc.z = false ∧ cc.n = cc.v) ∧
  BranchesOn .ble (fun cc => cc.z = true ∨ cc.n ≠ cc.v) ∧
  BranchesOn .bhi (fun cc => cc.c = false ∧ cc.z = false) ∧
  BranchesOn .blos (fun cc => cc.c = true ∨ cc.z = true)

/-! ## Jumps (45_jump_subroutine.md) -/

/-- R240, JMP: to the operand's address, or to the register's value in mode 0. -/
def Obligations.JmpResult : Prop :=
  CodedSo 0x0040 .jmp ∧
  ∀ (d : Operand) (s s1 : State) (l : Loc), operand d .word s = .ok (l, s1) →
    ∃ t, exec (.jmp d) s = .next t ∧
      (∀ q, t.get q = if q = .pc then (match l with | .reg r => s.get r | .mem a => a)
        else s.get q + operandStep d .word s q) ∧
      KeepsMemory s t ∧ t.psw = s.psw ∧ KeepsRest s t

/-- R241, JSR: the target, then the push of REG, the link, the jump. -/
def Obligations.JsrResult : Prop :=
  CodedRo 0x0800 .jsr ∧
  ∀ (reg : Reg) (d : Operand) (s s1 : State) (l : Loc), s.mem.wf = true →
    operand d .word s = .ok (l, s1) →
    let step := operandStep d .word s
    let sp := s.get .sp + step .sp - 2
    sp.getLsbD 0 = false →
    ∃ t, exec (.jsr reg d) s = .next t ∧
      (∀ q, t.get q = if q = .pc then (match l with | .reg r => s.get r | .mem a => a)
        else if q = reg then s.get .pc + step .pc
        else if q = .sp then sp
        else s.get q + step q) ∧
      StoresWord sp (s.get reg + step reg) s t ∧ t.psw = s.psw ∧ KeepsRest s t

/-- R242, RTS: the PC from Rn, then Rn from the stack. -/
def Obligations.RtsResult : Prop :=
  (∀ (e : Encodings) (r : Reg),
    decode e (BitVec.ofNat 16 (0x0080 + r.bits.toNat)) = .ok (.rts r)) ∧
  ∀ (r : Reg) (s : State), (s.get .sp).getLsbD 0 = false →
    ∃ t, exec (.rts r) s = .next t ∧
      (∀ q, t.get q =
        if q = r then s.mem.get ((s.get .sp).toNat + 1) ++ s.mem.get (s.get .sp).toNat
        else if q = .pc then s.get r
        else if q = .sp then s.get .sp + 2
        else s.get q) ∧
      KeepsMemory s t ∧ t.psw = s.psw ∧ KeepsRest s t

/-- R243, MARK, by either value of MARK_RULE. -/
def Obligations.MarkResult : Prop :=
  (∀ (e : Encodings) (n : BitVec 6),
    decode e (BitVec.ofNat 16 (0x0D00 + n.toNat)) = .ok (.mark n)) ∧
  ∀ (n : BitVec 6) (s : State),
    let sp : Word := match s.cfg.sw.markRule with
      | .source => s.get .sp + BitVec.ofNat 16 n.toNat
      | .pdp11 => s.get .pc + BitVec.ofNat 16 (2 * n.toNat)
    sp.getLsbD 0 = false →
    ∃ t, exec (.mark n) s = .next t ∧
      (∀ q, t.get q =
        if q = .r5 then s.mem.get (sp.toNat + 1) ++ s.mem.get sp.toNat
        else if q = .pc then s.get .r5
        else if q = .sp then sp + 2
        else s.get q) ∧
      KeepsMemory s t ∧ t.psw = s.psw ∧ KeepsRest s t

/-- R244, SOB: REG goes down by one, and the PC back by twice the offset unless REG became zero. With
REG = 7 it is the PC itself that goes down. -/
def Obligations.SobResult : Prop :=
  (∀ (e : Encodings) (r : Reg) (x : BitVec 6),
    decode e (BitVec.ofNat 16 (0x7E00 + 64 * r.bits.toNat + x.toNat)) = .ok (.sob r x)) ∧
  ∀ (reg : Reg) (x : BitVec 6) (s : State),
    let count := s.get reg - 1
    let pc := if reg = .pc then count else s.get .pc
    ∃ t, exec (.sob reg x) s = .next t ∧
      (∀ q, t.get q =
        if q = .pc then (if count = 0 then pc else BitVec.ofInt 16 (pc.toNat - 2 * x.toNat))
        else if q = reg then count
        else s.get q) ∧
      KeepsMemory s t ∧ t.psw = s.psw ∧ KeepsRest s t

/-! ## Traps, returns, processor status (46_trap_system.md) -/

/-- R260 to R263, 60_exceptions.md R320: EMT, TRAP, BPT and IOT enter through their own vectors. -/
def Obligations.TrapInstructions : Prop :=
  CodedBr 0x8800 .emt ∧ CodedBr 0x8900 .trap ∧
  CodedIm 0x0003 .bpt ∧ CodedIm 0x0004 .iot ∧
  ∀ (s : State), s.mem.wf = true → (s.get .sp).getLsbD 0 = false →
    (∀ c, ∃ t, exec (.emt c) s = .next t ∧
      Enters (BitVec.ofNat 16 (2 * s.cfg.vec.emt.toNat)) s t ∧ t.irq = s.irq ∧ t.tinh = s.tinh) ∧
    (∀ c, ∃ t, exec (.trap c) s = .next t ∧
      Enters (BitVec.ofNat 16 (2 * s.cfg.vec.trap.toNat)) s t ∧ t.irq = s.irq ∧ t.tinh = s.tinh) ∧
    (∃ t, exec .bpt s = .next t ∧
      Enters (BitVec.ofNat 16 (2 * s.cfg.vec.bpt.toNat)) s t ∧ t.irq = s.irq ∧ t.tinh = s.tinh) ∧
    (∃ t, exec .iot s = .next t ∧
      Enters (BitVec.ofNat 16 (2 * s.cfg.vec.iot.toNat)) s t ∧ t.irq = s.irq ∧ t.tinh = s.tinh)

/-- R264, R265: RTI and RTT pop the PC and then the PSW; RTT raises the trace inhibit. -/
def Obligations.ReturnInstructions : Prop :=
  CodedIm 0x0002 .rti ∧ CodedIm 0x0006 .rtt ∧
  ∀ (s : State), (s.get .sp).getLsbD 0 = false →
    ∃ t, exec .rti s = .next t ∧ exec .rtt s = .next { t with tinh := true } ∧
      (∀ q, t.get q =
        if q = .pc then s.mem.get ((s.get .sp).toNat + 1) ++ s.mem.get (s.get .sp).toNat
        else if q = .sp then s.get .sp + 4
        else s.get q) ∧
      LoadedFrom (s.mem.get (s.get .sp + 2).toNat) s.cfg.settings.ten t.psw ∧
      KeepsMemory s t ∧ KeepsRest s t

/-- R266 to R270, R274: HALT, WAIT, RESET, SVB, TRACE and MFTP, each with nothing else changed. -/
def Obligations.ImpliedInstructions : Prop :=
  CodedIm 0x0000 .halt ∧ CodedIm 0x0001 .wait ∧ CodedIm 0x0005 .reset ∧
  CodedIm 0x0007 .mftp ∧
  (∀ e : Encodings, e.ok = true →
    decode e e.svb = .ok .svb ∧ decode e e.trace = .ok .trace) ∧
  ∀ s : State,
    exec .halt s = .next { s with run := .halted } ∧
    exec .wait s = .next { s with run := .waiting } ∧
    exec .reset s = .next s ∧
    (∃ t, exec .svb s = .next t ∧ t = { s with ivb := t.ivb } ∧
      t.ivb.toNat = (s.get .r0).toNat / 32 * 32) ∧
    exec .trace s = .next { s with psw := { s.psw with t := s.cfg.settings.ten } } ∧
    exec .mftp s = .next (s.set .r0 0x026D)

/-- R271, MFPS: the PSW as it was before, then the instruction's own flags. Through the PSW window the
flags come after the write, which changes nothing but T under TEN (log 17). -/
def Obligations.MfpsResult : Prop :=
  CodedSo 0x8DC0 .mfps ∧
  ∀ (d : Operand) (s s1 : State) (l : Loc), s.mem.wf = true → operand d .byte s = .ok (l, s1) →
    let v := pswByte s.psw
    let step := operandStep d .byte s
    ∃ t, exec (.mfps d) s = .next t ∧ KeepsRest s t ∧ t.psw.prio = s.psw.prio ∧
      t.psw.cc = codes v false s.psw.cc.c ∧
      match l with
      | .reg r =>
        (∀ q, t.get q = if q = r then (s.get q).extractLsb' 8 8 ++ v else s.get q + step q) ∧
          KeepsMemory s t ∧ t.psw.t = s.psw.t
      | .mem a =>
        (∀ q, t.get q = s.get q + step q) ∧
        (¬ AtWindow a s → StoresByte a v s t ∧ t.psw.t = s.psw.t) ∧
        (AtWindow a s → KeepsMemory s t ∧ t.psw.t = (s.psw.t && s.cfg.settings.ten))

/-- R272, MTPS: all eight bits from the byte, T under TEN. -/
def Obligations.MtpsResult : Prop :=
  CodedSo 0x8D00 .mtps ∧
  ∀ (src : Operand) (s s1 : State) (x : Byte), sourceByte src s = .ok (x, s1) →
    ∃ t, exec (.mtps src) s = .next t ∧
      (∀ q, t.get q = s.get q + operandStep src .byte s q) ∧ KeepsMemory s t ∧
      LoadedFrom x s.cfg.settings.ten t.psw ∧ KeepsRest s t

/-! ## Internal I/O (47_io.md) -/

/-- R290, R292, 60_exceptions.md R380: IOR stores a word that `IoRead` may return, and sets N and Z of
it. -/
def Obligations.IorResult : Prop :=
  (∀ (e : Encodings) (r : Reg) (d : Operand), e.ok = true →
    decode e (BitVec.ofNat 16 (512 * e.ior.toNat + 64 * r.bits.toNat + specifier d)) =
      .ok (.ior r d)) ∧
  ∀ (reg : Reg) (d : Operand) (s s1 : State) (l : Loc), s.mem.wf = true →
    operand d .word s = .ok (l, s1) → Writable l →
    let step := operandStep d .word s
    ∃ (t : State) (v : Word), exec (.ior reg d) s = .next t ∧
      ReadsAs s ((s.get reg + step reg).toNat % 256) v ∧
      WordEffect l v (codes v false s.psw.cc.c) step s t

/-- R291, R293: IOW to a port that is not busy. What the spec leaves open here is the model's choice: INTA
keeps bits 4:1 only (log 13), a write of TnPRE leaves the prescaler count as it is (log 8), the widths
of TnPRE, SDIV and UDIV are parameters (log 14), and a read-only register or an unconnected address
takes nothing (D24, log 34). The counters of a transfer start at zero (log 9). -/
def Obligations.IowResult : Prop :=
  (∀ (e : Encodings) (r : Reg) (d : Operand), e.ok = true →
    decode e (BitVec.ofNat 16 (512 * e.iow.toNat + 64 * r.bits.toNat + specifier d)) =
      .ok (.iow r d)) ∧
  ∀ (reg : Reg) (src : Operand) (s s1 : State) (x : Word), sourceWord src s = .ok (x, s1) →
    let step := operandStep src .word s
    let a := (s.get reg + step reg).toNat % 256
    ¬ PortBusy s a →
    ∃ t, exec (.iow reg src) s = .next t ∧ t.io = afterIoWrite s a x ∧
      (∀ q, t.get q = s.get q + step q) ∧ KeepsMemory s t ∧ t.psw = s.psw ∧
      t.ivb = s.ivb ∧ t.irq = s.irq ∧ t.run = s.run ∧ t.tinh = s.tinh ∧ t.cfg = s.cfg ∧
      t.script = s.script

/-- 60_exceptions.md R371, R376: a write to SDR or UDR while the port is busy is a model fault. -/
def Obligations.BusyWriteStops : Prop :=
  ∀ (reg : Reg) (src : Operand) (s s1 : State) (x : Word), sourceWord src s = .ok (x, s1) →
    let a := (s.get reg + operandStep src .word s reg).toNat % 256
    (a = 0x0C → s.io.sbys = true → exec (.iow reg src) s = .fault .spiWriteWhileBusy) ∧
    (a = 0x0F → s.io.ubsy = true → exec (.iow reg src) s = .fault .uartWriteWhileBusy)

/-! ## Condition code operators (48_condition_codes.md) -/

/-- R300, R301, R302: each of the 32 words 0x00A0 to 0x00BF sets or clears the codes its mask selects;
and the operators by name. -/
def Obligations.CcOperators : Prop :=
  CodedIm 0x00A1 .clc ∧ CodedIm 0x00A2 .clv ∧ CodedIm 0x00A4 .clz ∧ CodedIm 0x00A8 .cln ∧
  CodedIm 0x00B1 .sec ∧ CodedIm 0x00B2 .sev ∧ CodedIm 0x00B4 .sez ∧ CodedIm 0x00B8 .sen ∧
  CodedIm 0x00BF .scc ∧ CodedIm 0x00AF .ccc ∧ CodedIm 0x00A0 .nop ∧
  (∀ (e : Encodings) (b : BitVec 5) (s : State),
    ∃ i t, decode e (BitVec.ofNat 16 (0x00A0 + b.toNat)) = .ok i ∧ exec i s = .next t ∧
      t = { s with psw := { s.psw with cc := t.psw.cc } } ∧
      t.psw.cc.n = (if b.getLsbD 3 then b.getLsbD 4 else s.psw.cc.n) ∧
      t.psw.cc.z = (if b.getLsbD 2 then b.getLsbD 4 else s.psw.cc.z) ∧
      t.psw.cc.v = (if b.getLsbD 1 then b.getLsbD 4 else s.psw.cc.v) ∧
      t.psw.cc.c = (if b.getLsbD 0 then b.getLsbD 4 else s.psw.cc.c)) ∧
  (∀ (s : State) (set n z v c : Bool),
    exec (.ccop set n z v c) s = .next (s.setCc
      { n := if n then set else s.psw.cc.n, z := if z then set else s.psw.cc.z,
        v := if v then set else s.psw.cc.v, c := if c then set else s.psw.cc.c })) ∧
  ∀ s : State,
    exec .clc s = .next (s.setCc { s.psw.cc with c := false }) ∧
    exec .clv s = .next (s.setCc { s.psw.cc with v := false }) ∧
    exec .clz s = .next (s.setCc { s.psw.cc with z := false }) ∧
    exec .cln s = .next (s.setCc { s.psw.cc with n := false }) ∧
    exec .ccc s = .next (s.setCc { n := false, z := false, v := false, c := false }) ∧
    exec .sec s = .next (s.setCc { s.psw.cc with c := true }) ∧
    exec .sev s = .next (s.setCc { s.psw.cc with v := true }) ∧
    exec .sez s = .next (s.setCc { s.psw.cc with z := true }) ∧
    exec .sen s = .next (s.setCc { s.psw.cc with n := true }) ∧
    exec .scc s = .next (s.setCc { n := true, z := true, v := true, c := true }) ∧
    exec .nop s = .next s

/-! ## The instruction cycle and the events between instructions -/

/-- 00_scope.md R9: a step in the running state fetches the word at the PC, runs the instruction it
decodes to with the PC past that word, and makes the end-of-instruction check unless the CPU has
halted. -/
def Obligations.StepRunsDecoded : Prop :=
  ∀ (s s0 : State) (i : Instr),
    (s.script = [] ∧ s0 = s ∨ ∃ rest, s.script = .cpu :: rest ∧ s0 = { s with script := rest }) →
    s.run = .running → (s.get .pc).getLsbD 0 = false →
    decode s.cfg.enc (s.mem.get ((s.get .pc).toNat + 1) ++ s.mem.get (s.get .pc).toNat) = .ok i →
    step s = match exec i (s0.set .pc (s.get .pc + 2)) with
      | .next t =>
        if t.run = .halted then .next t
        else (match endCheck t with
          | .ok u => .next u
          | .error f => .fault f)
      | .fault f => .fault f
      | .refused r => .refused r

/-- 60_exceptions.md R323, R324, R330, R331, R333: the end-of-instruction check takes at most one event,
the trace trap or the highest acceptable request, and consumes the trace inhibit. -/
def Obligations.EndOfInstruction : Prop :=
  ∀ s : State,
    let traced : Prop := s.psw.t = true ∧ s.tinh = false
    (¬ traced → (∀ k, ¬ Acceptable s k) → endCheck s = .ok { s with tinh := false }) ∧
    (s.mem.wf = true → (s.get .sp).getLsbD 0 = false →
      (traced → ((∀ k, ¬ Acceptable s k) ∨ s.cfg.sw.eventOrder = .traceFirst) →
        ∃ t, endCheck s = .ok t ∧ Enters (BitVec.ofNat 16 (2 * s.cfg.vec.trace.toNat)) s t ∧
          t.irq = s.irq ∧ t.tinh = false) ∧
      (s.ivb &&& 0x001F = 0 → ∀ k, HighestAcceptable s k →
        (¬ traced ∨ s.cfg.sw.eventOrder = .irqFirst) →
        ∃ t, endCheck s = .ok t ∧
          Enters (BitVec.ofNat 16 (s.ivb.toNat + 4 * k.number)) s t ∧
          ClearsLatch k s t ∧ t.tinh = false))

/-- 60_exceptions.md R335: while waiting the CPU serves the highest acceptable request, or with
WAIT_WAKE_IGNORES_PRIO the highest set latch, and otherwise stays as it is. -/
def Obligations.WaitState : Prop :=
  ∀ s : State, s.script = [] → s.run = .waiting →
    let wakes (k : Irq) : Prop :=
      if s.cfg.sw.waitWakeIgnoresPrio then s.irq.get k = true else Acceptable s k
    ((∀ k, ¬ wakes k) → step s = .next s) ∧
    (s.mem.wf = true → (s.get .sp).getLsbD 0 = false → s.ivb &&& 0x001F = 0 →
      ∀ k, wakes k → (∀ j, wakes j → j.number ≤ k.number) →
        ∃ t, step s = .next t ∧ Enters (BitVec.ofNat 16 (s.ivb.toNat + 4 * k.number)) s t ∧
          ClearsLatch k s t ∧ t.tinh = s.tinh)

/-- 30_encoding.md R100, 60_exceptions.md R317: a word that is no valid opcode is skipped with ILE = 0
and traps with ILE = 1, the PC past that one word; the end-of-instruction check follows. -/
def Obligations.IllegalOpcode : Prop :=
  ∀ (s : State) (r : DecodeReject), s.script = [] → s.run = .running →
    (s.get .pc).getLsbD 0 = false →
    decode s.cfg.enc (s.mem.get ((s.get .pc).toNat + 1) ++ s.mem.get (s.get .pc).toNat) =
      .error r →
    let s1 := s.set .pc (s.get .pc + 2)
    (s.cfg.settings.ile = false → step s = toOutcome (endCheck s1)) ∧
    (s.cfg.settings.ile = true → s.mem.wf = true → (s.get .sp).getLsbD 0 = false →
      ∃ t, Enters (BitVec.ofNat 16 (2 * s.cfg.vec.illegal.toNat)) s1 t ∧ t.irq = s.irq ∧
        t.tinh = s.tinh ∧ step s = toOutcome (endCheck t))

/-- 60_exceptions.md R336, 10_state.md R33: a halted CPU stays as it is, whatever moves but the host's
reset; latches may still be set. -/
def Obligations.HaltedForever : Prop :=
  ∀ s : State, s.run = .halted → (∀ st rest, s.script ≠ .reset st :: rest) →
    ∃ t, step s = .next t ∧ t.run = .halted ∧ (∀ q, t.get q = s.get q) ∧ t.psw = s.psw ∧
      t.mem = s.mem ∧ t.ivb = s.ivb ∧ t.tinh = s.tinh ∧ t.cfg = s.cfg ∧
      ∀ k, s.irq.get k = true → t.irq.get k = true

/-! ## Peripheral events (60_exceptions.md) -/

/-- R363, R364: the tick of a timer. -/
def Obligations.TimerTick : Prop :=
  ∀ (s : State) (n : Timer) (rest : List Event), s.script = .timerTick n :: rest →
    let r := s.io.timer n
    let resets : Prop := r.top.toNat ≤ r.count.toNat
    ∃ t, step s = .next t ∧
      ((t.io.timer n).count.toNat = if r.top.toNat ≤ r.count.toNat then 0 else r.count.toNat + 1) ∧
      (t.io.timer n).pre = r.pre ∧ (t.io.timer n).top = r.top ∧
      (∀ m, m ≠ n → t.io.timer m = s.io.timer m) ∧
      t.io = { s.io with t0 := t.io.t0, t1 := t.io.t1 } ∧
      (∀ k, t.irq.get k = true ↔ s.irq.get k = true ∨
        (resets ∧ (match n with
          | .timer0 => s.io.tint.getLsbD 0 = true ∧ k = .irq1
          | .timer1 => s.io.tint.getLsbD 1 = true ∧ k = .irq5))) ∧
      t = { s with io := t.io, irq := t.irq, script := rest }

/-- R361 by the model's prescaler counter (log 8), from a prescaler at 0. The law of one timer's
prescaler: max(TnPRE, 1) of its clock periods make exactly one tick, at the last of them. The law of
the machine: a run over as many steps of `Event.clock`, which both timers see, leaves timer n and its
request latch as one tick leaves them, and a shorter one leaves them as they were; the other timer
may tick as well, and the counters of an SPI transfer move (`SerialCounters`). -/
def Obligations.TimerRate : Prop :=
  ∀ (n : Timer) (s : State), (s.io.timer n).presc = 0 →
    let r := s.io.timer n
    let period := max r.pre.toNat 1
    let latch : Irq := match n with | .timer0 => .irq1 | .timer1 => .irq5
    ((prescale n)^[period] s = timerTick n s ∧
      ∀ k, k < period → (((prescale n)^[k] s).io.timer n).count = r.count ∧
        ((prescale n)^[k] s).irq = s.irq) ∧
    ∀ (k : Nat) (rest : List Event), k ≤ period → s.script = List.replicate k .clock ++ rest →
      ∃ t : State, Sys2Proof.core.run k s = .next t ∧
        (k < period → t.io.timer n = { r with presc := BitVec.ofNat 16 k } ∧
          t.irq.get latch = s.irq.get latch) ∧
        (k = period →
          t.io.timer n = { r with count := if r.top.toNat ≤ r.count.toNat then 0 else r.count + 1 } ∧
          (t.irq.get latch = true ↔ s.irq.get latch = true ∨
            (r.top.toNat ≤ r.count.toNat ∧
              s.io.tint.getLsbD (match n with | .timer0 => 0 | .timer1 => 1) = true))) ∧
        (∀ m, m ≠ n → (t.io.timer m).pre = (s.io.timer m).pre ∧
          (t.io.timer m).top = (s.io.timer m).top) ∧
        t.io = { s.io with
          t0 := t.io.t0, t1 := t.io.t1, spiDiv := t.io.spiDiv, spiBits := t.io.spiBits } ∧
        (∀ q, s.irq.get q = true → t.irq.get q = true) ∧
        (∀ q, q ≠ .irq1 → q ≠ .irq5 → t.irq.get q = s.irq.get q) ∧
        t = { s with io := t.io, irq := t.irq, script := rest }

/-- R355: a pin takes its new level; a low-to-high transition on an enabled input pin PA1 to PA4 sets its
request latch, and nothing else does. -/
def Obligations.PinChange : Prop :=
  ∀ (s : State) (i : Fin 7) (level : Bool) (rest : List Event),
    s.script = .pinChange i level :: rest →
    let rises : Prop := s.io.pins.getLsbD i.val = false ∧ level = true ∧
      s.io.ddra.getLsbD i.val = false
    ∃ t, step s = .next t ∧
      (∀ j, j < 7 → t.io.pins.getLsbD j = if j = i.val then level else s.io.pins.getLsbD j) ∧
      t.io = { s.io with pins := t.io.pins } ∧
      (∀ k, t.irq.get k = true ↔ s.irq.get k = true ∨ (rises ∧
        ((i.val = 1 ∧ s.io.inta.getLsbD 0 = true ∧ k = .irq2) ∨
         (i.val = 2 ∧ s.io.inta.getLsbD 1 = true ∧ k = .irq4) ∨
         (i.val = 3 ∧ s.io.inta.getLsbD 2 = true ∧ k = .irq6) ∨
         (i.val = 4 ∧ s.io.inta.getLsbD 3 = true ∧ k = .irq7)))) ∧
      t = { s with io := t.io, irq := t.irq, script := rest }

/-- R371, R376: the end of an SPI transfer, of a UART transmission, and the reception of a byte. That the
counters of the transfer return to zero, and that the byte received stands in the receive shifter,
is the model's choice (log 9). -/
def Obligations.SerialEvents : Prop :=
  ∀ (s : State) (rest : List Event),
    (∀ b, s.script = .spiDone b :: rest → s.io.sbys = true →
      step s = .next { s with
        io := { s.io with spiRx := b, sbys := false, spiDiv := 0, spiBits := 0 }, script := rest }) ∧
    (s.script = .uartTxDone :: rest → s.io.ubsy = true →
      step s = .next { s with
        io := { s.io with ubsy := false, uartTxBits := 0 }, script := rest }) ∧
    (∀ b, s.script = .uartRx b :: rest →
      step s = .next { s with
        io := { s.io with uartRx := b, uartRxShift := b, uartRxBits := 0 }, script := rest })

/-- R36 by the model's counters (log 9): from the start of an SPI transfer one bit passes every
2 * SDIV + 1 clock periods of the machine (R370), eight at most, and the port stays busy; an idle port
counts nothing. A bit of a UART frame counts up to ten (R375); the eight bits after the start bit
enter the receive shifter, least significant first. No program sees any of these. -/
def Obligations.SerialCounters : Prop :=
  (∀ (s : State) (k : Nat) (rest : List Event), s.script = List.replicate k .clock ++ rest →
    let period := 2 * s.io.sdiv.toNat + 1
    ∃ t : State, Sys2Proof.core.run k s = .next t ∧
      t.io = { s.io with
        t0 := t.io.t0, t1 := t.io.t1, spiDiv := t.io.spiDiv, spiBits := t.io.spiBits } ∧
      t = { s with io := t.io, irq := t.irq, script := rest } ∧
      (s.io.sbys = true → s.io.spiDiv = 0 → s.io.spiBits = 0 →
        t.io.spiDiv.toNat = k % period ∧ t.io.spiBits.toNat = min (k / period) 8) ∧
      (s.io.sbys = false → t.io.spiDiv = s.io.spiDiv ∧ t.io.spiBits = s.io.spiBits)) ∧
  (∀ (s : State) (rest : List Event), s.script = .uartTxBit :: rest →
    ∃ t, step s = .next t ∧
      t = { s with io := { s.io with uartTxBits := t.io.uartTxBits }, script := rest } ∧
      (s.io.ubsy = true → s.io.uartTxBits.toNat ≤ 10 →
        t.io.uartTxBits.toNat = min (s.io.uartTxBits.toNat + 1) 10) ∧
      (s.io.ubsy = false → t.io.uartTxBits = s.io.uartTxBits)) ∧
  (∀ (s : State) (level : Bool) (rest : List Event), s.script = .uartRxBit level :: rest →
    let c := s.io.uartRxBits.toNat
    ∃ t, step s = .next t ∧
      t = { s with
        io := { s.io with uartRxShift := t.io.uartRxShift, uartRxBits := t.io.uartRxBits },
        script := rest } ∧
      (c ≤ 10 → t.io.uartRxBits.toNat = min (c + 1) 10) ∧
      (1 ≤ c ∧ c ≤ 8 → t.io.uartRxShift.toNat =
        s.io.uartRxShift.toNat / 2 + 128 * level.toNat) ∧
      (¬ (1 ≤ c ∧ c ≤ 8) → t.io.uartRxShift = s.io.uartRxShift))

/-! ## The whole machine -/

/-- Every step keeps the invariant: canonical memory, IVB bits 4:0 zero (R30), T under TEN (R28), no
trace inhibit between steps (R35), no bit above a peripheral register's width (R291). -/
def Obligations.StepKeepsInvariant : Prop :=
  ∀ s t : State, Invariant s → step s = .next t → Invariant t

/-- The invariant holds right after reset. -/
def Obligations.ResetInvariant : Prop :=
  Invariant State.reset

/-- 10_state.md R30, R32, R34, 60_exceptions.md R340: every instruction has a meaning; no instruction
writes the settings, the parameters or a request latch; IVB is written by SVB alone, a peripheral
register by IOW alone, the trace inhibit by RTT alone; HALT alone halts, WAIT alone waits. -/
def Obligations.InstructionScope : Prop :=
  ∀ (i : Instr) (s : State),
    (∀ r, exec i s ≠ .refused r) ∧
    ∀ t, exec i s = .next t →
      t.cfg = s.cfg ∧ t.irq = s.irq ∧ t.script = s.script ∧
      (i ≠ .svb → t.ivb = s.ivb) ∧
      ((∀ r o, i ≠ .iow r o) → t.io = s.io) ∧
      (i ≠ .rtt → t.tinh = s.tinh) ∧
      (i ≠ .halt → i ≠ .wait → t.run = s.run ∨ t.run = .running)

end
end

