-- ==== Sys2Proof/Laws/Decode.lean ====
section
/-! SUPPORT. The fields of an encoded word, format by format (30_encoding.md R81 to R87). -/

namespace Sys2Proof

/-! ## Field codes -/

@[simp] theorem reg_ofBits_bits (r : Reg) : Reg.ofBits r.bits = r := by cases r <;> rfl
@[simp] theorem mode_ofBits_bits (m : Mode) : Mode.ofBits m.bits = m := by cases m <;> rfl

@[simp] theorem reg_bits_ofBits (b : BitVec 3) : (Reg.ofBits b).bits = b := by
  revert b; decide

@[simp] theorem mode_bits_ofBits (b : BitVec 3) : (Mode.ofBits b).bits = b := by
  revert b; decide

/-! ## Slices of a concatenation -/

/-- A slice above the lower part is a slice of the upper part. -/
theorem extract_append_hi {n m : Nat} (k len : Nat) (x : BitVec n) (y : BitVec m) :
    (x ++ y).extractLsb' (m + k) len = x.extractLsb' k len := by
  ext i hi
  have h : ¬ (m + k + i < m) := by omega
  have e : m + k + i - m = k + i := by omega
  simp [BitVec.getElem_extractLsb', BitVec.getLsbD_append, h, e]

/-- A slice inside the lower part is a slice of the lower part. -/
theorem extract_append_lo {n m : Nat} (k len : Nat) (x : BitVec n) (y : BitVec m)
    (h : k + len ≤ m) : (x ++ y).extractLsb' k len = y.extractLsb' k len := by
  ext i hi
  have h1 : k + i < m := by omega
  simp [BitVec.getElem_extractLsb', BitVec.getLsbD_append, h1]

theorem extract_all {n : Nat} (x : BitVec n) : x.extractLsb' 0 n = x := by
  simp

/-- A word put together again from a high and a low slice. -/
theorem append_extract {n : Nat} (k a b : Nat) (w : BitVec n) :
    w.extractLsb' (k + b) a ++ w.extractLsb' k b = w.extractLsb' k (a + b) := by
  ext i hi
  rw [BitVec.getElem_append]
  split
  · simp [BitVec.getElem_extractLsb']
  · have e : k + b + (i - b) = k + i := by omega
    simp [BitVec.getElem_extractLsb', e]

/-! ## Operand specifiers -/

theorem operand_bits_fields (o : Operand) :
    o.bits.extractLsb' 3 3 = o.mode.bits ∧ o.bits.extractLsb' 0 3 = o.rn.bits := by
  constructor
  · exact (extract_append_hi 0 3 o.mode.bits o.rn.bits).trans (extract_all _)
  · exact (extract_append_lo 0 3 o.mode.bits o.rn.bits (by omega)).trans (extract_all _)

/-- The operand specifier in the low six bits. -/
theorem operandAt_zero_append (op : BitVec 10) (d : Operand) : operandAt 0 (op ++ d.bits) = d := by
  have h := operand_bits_fields d
  obtain ⟨m, r⟩ := d
  simp only [operandAt, regAt]
  rw [extract_append_lo 3 3 op _ (by omega), extract_append_lo 0 3 op _ (by omega), h.1, h.2]
  simp

theorem encodeRo_eq (op : BitVec 7) (r : Reg) (d : Operand) :
    encodeRo op r d = (op ++ r.bits : BitVec 10) ++ d.bits := rfl

theorem encodeDo_eq (op : BitVec 4) (s d : Operand) :
    encodeDo op s d = (op ++ s.bits : BitVec 10) ++ d.bits := rfl

theorem operandAt_so (op : BitVec 10) (d : Operand) : operandAt 0 (encodeSo op d) = d :=
  operandAt_zero_append op d

theorem operandAt_ro (op : BitVec 7) (r : Reg) (d : Operand) : operandAt 0 (encodeRo op r d) = d :=
  operandAt_zero_append _ d

theorem operandAt_do (op : BitVec 4) (s d : Operand) : operandAt 0 (encodeDo op s d) = d :=
  operandAt_zero_append _ d

theorem operandAt_do_src (op : BitVec 4) (s d : Operand) : operandAt 6 (encodeDo op s d) = s := by
  have h := operand_bits_fields s
  obtain ⟨m, r⟩ := s
  simp only [operandAt, regAt, encodeDo]
  rw [show (6 + 3 : Nat) = 6 + 3 from rfl, extract_append_hi 3 3, extract_append_hi 0 3,
    extract_append_lo 3 3 op _ (by omega), extract_append_lo 0 3 op _ (by omega), h.1, h.2]
  simp

theorem regAt_ro (op : BitVec 7) (r : Reg) (d : Operand) : regAt 6 (encodeRo op r d) = r := by
  simp only [regAt, encodeRo]
  rw [extract_append_hi 0 3, extract_append_lo 0 3 op _ (by omega), extract_all]
  simp

theorem regAt_sb (op : BitVec 7) (r : Reg) (x : BitVec 6) : regAt 6 (encodeSb op r x) = r := by
  simp only [regAt, encodeSb]
  rw [extract_append_hi 0 3, extract_append_lo 0 3 op _ (by omega), extract_all]
  simp

theorem regAt_rg (op : BitVec 13) (r : Reg) : regAt 0 (encodeRg op r) = r := by
  simp only [regAt, encodeRg]
  rw [extract_append_lo 0 3 op _ (by omega), extract_all]
  simp

/-! ## Opcode bits, whatever the operands -/

theorem so_hi (op : BitVec 10) (d : Operand) (k len : Nat) :
    (encodeSo op d).extractLsb' (6 + k) len = op.extractLsb' k len :=
  extract_append_hi k len op d.bits

theorem do_hi (op : BitVec 4) (s d : Operand) (k len : Nat) :
    (encodeDo op s d).extractLsb' (12 + k) len = op.extractLsb' k len := by
  have e : 12 + k = 6 + (6 + k) := by omega
  rw [e, encodeDo, extract_append_hi, extract_append_hi]

theorem ro_hi (op : BitVec 7) (r : Reg) (d : Operand) (k len : Nat) :
    (encodeRo op r d).extractLsb' (9 + k) len = op.extractLsb' k len := by
  have e : 9 + k = 6 + (3 + k) := by omega
  rw [e, encodeRo, extract_append_hi, extract_append_hi]

theorem sb_hi (op : BitVec 7) (r : Reg) (x : BitVec 6) (k len : Nat) :
    (encodeSb op r x).extractLsb' (9 + k) len = op.extractLsb' k len := by
  have e : 9 + k = 6 + (3 + k) := by omega
  rw [e, encodeSb, extract_append_hi, extract_append_hi]

theorem br_hi (op x : BitVec 8) (k len : Nat) :
    (encodeBr op x).extractLsb' (8 + k) len = op.extractLsb' k len :=
  extract_append_hi k len op x

theorem mk_hi (op : BitVec 10) (n : BitVec 6) (k len : Nat) :
    (encodeMk op n).extractLsb' (6 + k) len = op.extractLsb' k len :=
  extract_append_hi k len op n

theorem rg_hi (op : BitVec 13) (r : Reg) (k len : Nat) :
    (encodeRg op r).extractLsb' (3 + k) len = op.extractLsb' k len :=
  extract_append_hi k len op r.bits

theorem br_lo (op x : BitVec 8) : (encodeBr op x).extractLsb' 0 8 = x :=
  (extract_append_lo 0 8 op x (by omega)).trans (extract_all x)

theorem mk_lo (op : BitVec 10) (n : BitVec 6) : (encodeMk op n).extractLsb' 0 6 = n :=
  (extract_append_lo 0 6 op n (by omega)).trans (extract_all n)

theorem sb_lo (op : BitVec 7) (r : Reg) (x : BitVec 6) : (encodeSb op r x).extractLsb' 0 6 = x :=
  (extract_append_lo 0 6 _ x (by omega)).trans (extract_all x)

/-- A slice as a number. -/
theorem extract_toNat (w : Word) (k len : Nat) :
    (w.extractLsb' k len).toNat = w.toNat / 2 ^ k % 2 ^ len := by
  rw [BitVec.extractLsb'_toNat, Nat.shiftRight_eq_div_pow]

end Sys2Proof
end

