-- ==== Sys2Proof/Laws/Memory.lean ====
section
/-! SUPPORT. The laws of memory: what a byte reads as after a write, that every write keeps the canonical
form, that canonical memories are equal when they read alike, and the byte order of words. -/

namespace Sys2Proof.Machine

open Sys2Proof

/-! ## Canonical form -/

theorem wfFrom_cons (lo k : Nat) (b : Byte) (rest : Memory) :
    Memory.wfFrom lo ((k, b) :: rest) = true ↔
      lo ≤ k ∧ k < 65536 ∧ b ≠ Memory.blank ∧ Memory.wfFrom (k + 1) rest = true := by
  simp [Memory.wfFrom, and_assoc]

theorem wfFrom_mono {lo lo' : Nat} (h : lo' ≤ lo) :
    ∀ {m : Memory}, Memory.wfFrom lo m = true → Memory.wfFrom lo' m = true
  | [], _ => rfl
  | (k, b) :: rest, hm => by
    rw [wfFrom_cons] at hm ⊢
    exact ⟨by omega, hm.2⟩

/-- Below the lowest address listed every byte is blank. -/
theorem get_below {lo a : Nat} (h : a < lo) :
    ∀ {m : Memory}, Memory.wfFrom lo m = true → m.get a = Memory.blank
  | [], _ => rfl
  | (k, b) :: rest, hm => by
    rw [wfFrom_cons] at hm
    have hk : k ≠ a := by omega
    simp only [Memory.get, hk, if_false]
    exact get_below (by omega) hm.2.2.2

theorem put_wfFrom {lo a : Nat} (b : Byte) (hlo : lo ≤ a) (ha : a < 65536) :
    ∀ {m : Memory}, Memory.wfFrom lo m = true → Memory.wfFrom lo (m.put a b) = true
  | [], _ => by
    by_cases hb : b = Memory.blank
    · simp [Memory.put, hb, Memory.wfFrom]
    · simp only [Memory.put, hb, if_false]
      exact (wfFrom_cons ..).2 ⟨hlo, ha, hb, rfl⟩
  | (k, v) :: rest, hm => by
    have h := (wfFrom_cons ..).1 hm
    simp only [Memory.put]
    split
    · split
      · exact hm
      · next hk hb => exact (wfFrom_cons ..).2 ⟨hlo, ha, hb, (wfFrom_cons ..).2 ⟨by omega, h.2⟩⟩
    · split
      · split
        · exact wfFrom_mono (by omega) h.2.2.2
        · next hk hb => exact (wfFrom_cons ..).2 ⟨hlo, ha, hb, by subst_vars; exact h.2.2.2⟩
      · exact (wfFrom_cons ..).2 ⟨h.1, h.2.1, h.2.2.1, put_wfFrom b (by omega) ha h.2.2.2⟩

/-- Every write of a byte keeps the canonical form. -/
theorem put_wf {m : Memory} {a : Nat} (b : Byte) (ha : a < 65536) (h : m.wf = true) :
    (m.put a b).wf = true :=
  put_wfFrom b (Nat.zero_le a) ha h

/-! ## Reading after writing -/

theorem get_put_same (a : Nat) (b : Byte) :
    ∀ {lo : Nat} {m : Memory}, Memory.wfFrom lo m = true → (m.put a b).get a = b
  | _, [], _ => by
    by_cases hb : b = Memory.blank <;> simp [Memory.put, Memory.get, hb]
  | _, (k, v) :: rest, hm => by
    have h := (wfFrom_cons ..).1 hm
    simp only [Memory.put]
    split
    · split
      · next hk hb =>
        have hne : k ≠ a := by omega
        simp only [Memory.get, hne, if_false, hb]
        exact get_below (by omega) h.2.2.2
      · simp [Memory.get]
    · split
      · next hk heq =>
        split
        · next hb => rw [hb]; exact get_below (by omega) h.2.2.2
        · simp [Memory.get]
      · next hk hne =>
        have hne' : k ≠ a := fun e => hne e.symm
        simp only [Memory.get, hne', if_false]
        exact get_put_same a b h.2.2.2

theorem get_put_other {a c : Nat} (b : Byte) (hc : c ≠ a) :
    ∀ (m : Memory), (m.put a b).get c = m.get c
  | [] => by
    by_cases hb : b = Memory.blank
    · simp [Memory.put, hb]
    · simp [Memory.put, Memory.get, hb, hc.symm]
  | (k, v) :: rest => by
    simp only [Memory.put]
    split
    · split
      · rfl
      · simp [Memory.get, hc.symm]
    · split
      · next heq =>
        have hkc : k ≠ c := by omega
        split
        · simp [Memory.get, hkc]
        · simp [Memory.get, hc.symm, hkc]
      · by_cases hk : k = c
        · simp [Memory.get, hk]
        · simp only [Memory.get, hk, if_false]
          exact get_put_other b hc rest

/-- What a byte reads as after a write, in canonical memory. -/
theorem get_put {m : Memory} (h : m.wf = true) (a c : Nat) (b : Byte) :
    (m.put a b).get c = if c = a then b else m.get c := by
  split
  · next e => subst e; exact get_put_same _ b h
  · next e => exact get_put_other b e m

/-! ## Words -/

/-- The byte after an even address is inside the 64 KiB. -/
theorem even_succ_lt {a : Word} (h : isOdd a = false) : a.toNat + 1 < 65536 := by
  have h1 : a.toNat % 2 = 0 := by
    have : a.getLsbD 0 = false := h
    rw [BitVec.getLsbD, Nat.testBit_zero] at this
    simpa using this
  have h2 := a.isLt
  omega

theorem putWord_wf {m : Memory} {a : Word} (v : Word) (ha : isOdd a = false) (h : m.wf = true) :
    (m.putWord a v).wf = true :=
  put_wf _ (even_succ_lt ha) (put_wf _ a.isLt h)

/-- What a byte reads as after a word is stored, in canonical memory. -/
theorem get_putWord {m : Memory} (h : m.wf = true) (a v : Word) (c : Nat) :
    (m.putWord a v).get c =
      if c = a.toNat + 1 then highByte v else if c = a.toNat then lowByte v else m.get c := by
  rw [Memory.putWord, get_put (put_wf _ a.isLt h), get_put h]

theorem lowByte_wordOfBytes (lo hi : Byte) : lowByte (wordOfBytes lo hi) = lo := by
  apply BitVec.eq_of_toNat_eq
  have := lo.isLt; have := hi.isLt
  simp only [lowByte, wordOfBytes, BitVec.extractLsb'_toNat, BitVec.toNat_append, Nat.shiftRight_zero]
  rw [← Nat.shiftLeft_add_eq_or_of_lt lo.isLt, Nat.shiftLeft_eq]
  omega

theorem highByte_wordOfBytes (lo hi : Byte) : highByte (wordOfBytes lo hi) = hi := by
  apply BitVec.eq_of_toNat_eq
  have := lo.isLt; have := hi.isLt
  simp only [highByte, wordOfBytes, BitVec.extractLsb'_toNat, BitVec.toNat_append]
  rw [← Nat.shiftLeft_add_eq_or_of_lt lo.isLt, Nat.shiftLeft_eq, Nat.shiftRight_eq_div_pow]
  omega

theorem wordOfBytes_split (v : Word) : wordOfBytes (lowByte v) (highByte v) = v := by
  apply BitVec.eq_of_toNat_eq
  have := v.isLt
  simp only [highByte, lowByte, wordOfBytes, BitVec.extractLsb'_toNat, BitVec.toNat_append,
    Nat.shiftRight_eq_div_pow]
  rw [← Nat.shiftLeft_add_eq_or_of_lt (by omega), Nat.shiftLeft_eq]
  omega

/-- A word read back from where it was stored. -/
theorem word_putWord_same {m : Memory} (h : m.wf = true) (a v : Word) :
    (m.putWord a v).word a = v := by
  have h1 : a.toNat ≠ a.toNat + 1 := by omega
  simp only [Memory.word, get_putWord h, if_true, h1, if_false, wordOfBytes_split]

/-- A word read from an even address that was not stored to. -/
theorem word_putWord_other {m : Memory} (h : m.wf = true) {a b : Word} (v : Word)
    (ha : isOdd a = false) (hb : isOdd b = false) (hab : b ≠ a) :
    (m.putWord a v).word b = m.word b := by
  have ha1 : a.toNat % 2 = 0 := by
    have : a.getLsbD 0 = false := ha
    rw [BitVec.getLsbD, Nat.testBit_zero] at this; simpa using this
  have hb1 : b.toNat % 2 = 0 := by
    have : b.getLsbD 0 = false := hb
    rw [BitVec.getLsbD, Nat.testBit_zero] at this; simpa using this
  have hne : b.toNat ≠ a.toNat := fun e => hab (BitVec.eq_of_toNat_eq e)
  have h1 : b.toNat ≠ a.toNat + 1 := by omega
  have h2 : b.toNat + 1 ≠ a.toNat := by omega
  have h3 : b.toNat + 1 ≠ a.toNat + 1 := by omega
  simp only [Memory.word, get_putWord h, h1, hne, h2, h3, if_false]

/-! ## Equal memories -/

/-- Two canonical memories that read alike at every address are the same list. -/
theorem wfFrom_ext : ∀ {lo : Nat} {m n : Memory}, Memory.wfFrom lo m = true →
    Memory.wfFrom lo n = true → (∀ a, m.get a = n.get a) → m = n
  | _, [], [], _, _, _ => rfl
  | _, [], (k, b) :: rest, _, hn, h => by
    have h1 := (wfFrom_cons ..).1 hn
    have h2 := h k
    simp only [Memory.get, if_true] at h2
    exact absurd h2.symm h1.2.2.1
  | _, (k, b) :: rest, [], hm, _, h => by
    have h1 := (wfFrom_cons ..).1 hm
    have h2 := h k
    simp only [Memory.get, if_true] at h2
    exact absurd h2 h1.2.2.1
  | _, (k, b) :: m, (j, c) :: n, hm, hn, h => by
    have h1 := (wfFrom_cons ..).1 hm
    have h2 := (wfFrom_cons ..).1 hn
    have hkj : k = j := by
      rcases Nat.lt_trichotomy k j with hlt | heq | hgt
      · have e := h k
        simp only [Memory.get, if_true, show j ≠ k by omega, if_false] at e
        rw [get_below (by omega) h2.2.2.2] at e
        exact absurd e h1.2.2.1
      · exact heq
      · have e := h j
        simp only [Memory.get, if_true, show k ≠ j by omega, if_false] at e
        rw [get_below (by omega) h1.2.2.2] at e
        exact absurd e.symm h2.2.2.1
    subst hkj
    have hb : b = c := by have e := h k; simpa [Memory.get] using e
    subst hb
    have hrest : m = n := wfFrom_ext h1.2.2.2 h2.2.2.2 fun a => by
      by_cases ha : k = a
      · rw [get_below (by omega) h1.2.2.2, get_below (by omega) h2.2.2.2]
      · have e := h a
        simpa [Memory.get, ha] using e
    rw [hrest]

theorem wf_ext {m n : Memory} (hm : m.wf = true) (hn : n.wf = true)
    (h : ∀ a, m.get a = n.get a) : m = n :=
  wfFrom_ext hm hn h

end Sys2Proof.Machine
end

