-- ==== Sys2Proof/Laws/State.lean ====
section
/-! SUPPORT. What each named update of the state leaves in each field, so that no proof unfolds a record
update; reading a register after writing one. -/

namespace Sys2Proof.Machine

open Sys2Proof

/-! ## `State.set` -/

@[simp] theorem set_regs (s : State) (r : Reg) (v : Word) :
    (s.set r v).regs = s.regs.set r v := rfl

@[simp] theorem set_psw (s : State) (r : Reg) (v : Word) :
    (s.set r v).psw = s.psw := rfl

@[simp] theorem set_ivb (s : State) (r : Reg) (v : Word) :
    (s.set r v).ivb = s.ivb := rfl

@[simp] theorem set_irq (s : State) (r : Reg) (v : Word) :
    (s.set r v).irq = s.irq := rfl

@[simp] theorem set_run (s : State) (r : Reg) (v : Word) :
    (s.set r v).run = s.run := rfl

@[simp] theorem set_tinh (s : State) (r : Reg) (v : Word) :
    (s.set r v).tinh = s.tinh := rfl

@[simp] theorem set_mem (s : State) (r : Reg) (v : Word) :
    (s.set r v).mem = s.mem := rfl

@[simp] theorem set_io (s : State) (r : Reg) (v : Word) :
    (s.set r v).io = s.io := rfl

@[simp] theorem set_cfg (s : State) (r : Reg) (v : Word) :
    (s.set r v).cfg = s.cfg := rfl

@[simp] theorem set_script (s : State) (r : Reg) (v : Word) :
    (s.set r v).script = s.script := rfl

@[simp] theorem set_free (s : State) (r : Reg) (v : Word) :
    (s.set r v).free = s.free := rfl

/-! ## `State.setCc` -/

@[simp] theorem setCc_regs (s : State) (cc : Cc) :
    (s.setCc cc).regs = s.regs := rfl

@[simp] theorem setCc_psw (s : State) (cc : Cc) :
    (s.setCc cc).psw = { s.psw with cc := cc } := rfl

@[simp] theorem setCc_ivb (s : State) (cc : Cc) :
    (s.setCc cc).ivb = s.ivb := rfl

@[simp] theorem setCc_irq (s : State) (cc : Cc) :
    (s.setCc cc).irq = s.irq := rfl

@[simp] theorem setCc_run (s : State) (cc : Cc) :
    (s.setCc cc).run = s.run := rfl

@[simp] theorem setCc_tinh (s : State) (cc : Cc) :
    (s.setCc cc).tinh = s.tinh := rfl

@[simp] theorem setCc_mem (s : State) (cc : Cc) :
    (s.setCc cc).mem = s.mem := rfl

@[simp] theorem setCc_io (s : State) (cc : Cc) :
    (s.setCc cc).io = s.io := rfl

@[simp] theorem setCc_cfg (s : State) (cc : Cc) :
    (s.setCc cc).cfg = s.cfg := rfl

@[simp] theorem setCc_script (s : State) (cc : Cc) :
    (s.setCc cc).script = s.script := rfl

@[simp] theorem setCc_free (s : State) (cc : Cc) :
    (s.setCc cc).free = s.free := rfl

@[simp] theorem setCc_get (s : State) (cc : Cc) (q : Reg) :
    (s.setCc cc).get q = s.get q := rfl

/-! ## `State.writePsw` -/

@[simp] theorem writePsw_regs (s : State) (b : Byte) :
    (s.writePsw b).regs = s.regs := rfl

@[simp] theorem writePsw_psw (s : State) (b : Byte) :
    (s.writePsw b).psw = Psw.ofByte s.cfg.settings.ten b := rfl

@[simp] theorem writePsw_ivb (s : State) (b : Byte) :
    (s.writePsw b).ivb = s.ivb := rfl

@[simp] theorem writePsw_irq (s : State) (b : Byte) :
    (s.writePsw b).irq = s.irq := rfl

@[simp] theorem writePsw_run (s : State) (b : Byte) :
    (s.writePsw b).run = s.run := rfl

@[simp] theorem writePsw_tinh (s : State) (b : Byte) :
    (s.writePsw b).tinh = s.tinh := rfl

@[simp] theorem writePsw_mem (s : State) (b : Byte) :
    (s.writePsw b).mem = s.mem := rfl

@[simp] theorem writePsw_io (s : State) (b : Byte) :
    (s.writePsw b).io = s.io := rfl

@[simp] theorem writePsw_cfg (s : State) (b : Byte) :
    (s.writePsw b).cfg = s.cfg := rfl

@[simp] theorem writePsw_script (s : State) (b : Byte) :
    (s.writePsw b).script = s.script := rfl

@[simp] theorem writePsw_free (s : State) (b : Byte) :
    (s.writePsw b).free = s.free := rfl

@[simp] theorem writePsw_get (s : State) (b : Byte) (q : Reg) :
    (s.writePsw b).get q = s.get q := rfl

/-! ## `State.setIo` -/

@[simp] theorem setIo_regs (s : State) (io : Periph) :
    (s.setIo io).regs = s.regs := rfl

@[simp] theorem setIo_psw (s : State) (io : Periph) :
    (s.setIo io).psw = s.psw := rfl

@[simp] theorem setIo_ivb (s : State) (io : Periph) :
    (s.setIo io).ivb = s.ivb := rfl

@[simp] theorem setIo_irq (s : State) (io : Periph) :
    (s.setIo io).irq = s.irq := rfl

@[simp] theorem setIo_run (s : State) (io : Periph) :
    (s.setIo io).run = s.run := rfl

@[simp] theorem setIo_tinh (s : State) (io : Periph) :
    (s.setIo io).tinh = s.tinh := rfl

@[simp] theorem setIo_mem (s : State) (io : Periph) :
    (s.setIo io).mem = s.mem := rfl

@[simp] theorem setIo_io (s : State) (io : Periph) :
    (s.setIo io).io = io := rfl

@[simp] theorem setIo_cfg (s : State) (io : Periph) :
    (s.setIo io).cfg = s.cfg := rfl

@[simp] theorem setIo_script (s : State) (io : Periph) :
    (s.setIo io).script = s.script := rfl

@[simp] theorem setIo_free (s : State) (io : Periph) :
    (s.setIo io).free = s.free := rfl

@[simp] theorem setIo_get (s : State) (io : Periph) (q : Reg) :
    (s.setIo io).get q = s.get q := rfl

/-! ## `State.latchIrq` -/

@[simp] theorem latchIrq_regs (s : State) (k : Irq) :
    (s.latchIrq k).regs = s.regs := rfl

@[simp] theorem latchIrq_psw (s : State) (k : Irq) :
    (s.latchIrq k).psw = s.psw := rfl

@[simp] theorem latchIrq_ivb (s : State) (k : Irq) :
    (s.latchIrq k).ivb = s.ivb := rfl

@[simp] theorem latchIrq_irq (s : State) (k : Irq) :
    (s.latchIrq k).irq = s.irq.set k true := rfl

@[simp] theorem latchIrq_run (s : State) (k : Irq) :
    (s.latchIrq k).run = s.run := rfl

@[simp] theorem latchIrq_tinh (s : State) (k : Irq) :
    (s.latchIrq k).tinh = s.tinh := rfl

@[simp] theorem latchIrq_mem (s : State) (k : Irq) :
    (s.latchIrq k).mem = s.mem := rfl

@[simp] theorem latchIrq_io (s : State) (k : Irq) :
    (s.latchIrq k).io = s.io := rfl

@[simp] theorem latchIrq_cfg (s : State) (k : Irq) :
    (s.latchIrq k).cfg = s.cfg := rfl

@[simp] theorem latchIrq_script (s : State) (k : Irq) :
    (s.latchIrq k).script = s.script := rfl

@[simp] theorem latchIrq_free (s : State) (k : Irq) :
    (s.latchIrq k).free = s.free := rfl

@[simp] theorem latchIrq_get (s : State) (k : Irq) (q : Reg) :
    (s.latchIrq k).get q = s.get q := rfl

/-! ## `State.freeCcAfterWindow` -/

@[simp] theorem freeCcAfterWindow_regs (s : State) :
    (s.freeCcAfterWindow).regs = s.regs := rfl

@[simp] theorem freeCcAfterWindow_psw (s : State) :
    (s.freeCcAfterWindow).psw = { s.psw with cc := Cc.ofBits (Config.freeCc s.free) } := rfl

@[simp] theorem freeCcAfterWindow_ivb (s : State) :
    (s.freeCcAfterWindow).ivb = s.ivb := rfl

@[simp] theorem freeCcAfterWindow_irq (s : State) :
    (s.freeCcAfterWindow).irq = s.irq := rfl

@[simp] theorem freeCcAfterWindow_run (s : State) :
    (s.freeCcAfterWindow).run = s.run := rfl

@[simp] theorem freeCcAfterWindow_tinh (s : State) :
    (s.freeCcAfterWindow).tinh = s.tinh := rfl

@[simp] theorem freeCcAfterWindow_mem (s : State) :
    (s.freeCcAfterWindow).mem = s.mem := rfl

@[simp] theorem freeCcAfterWindow_io (s : State) :
    (s.freeCcAfterWindow).io = s.io := rfl

@[simp] theorem freeCcAfterWindow_cfg (s : State) :
    (s.freeCcAfterWindow).cfg = s.cfg := rfl

@[simp] theorem freeCcAfterWindow_script (s : State) :
    (s.freeCcAfterWindow).script = s.script := rfl

@[simp] theorem freeCcAfterWindow_free (s : State) :
    (s.freeCcAfterWindow).free = s.free + 1 := rfl

@[simp] theorem freeCcAfterWindow_get (s : State) (q : Reg) :
    (s.freeCcAfterWindow).get q = s.get q := rfl

/-! ## `State.storeWord` -/

@[simp] theorem storeWord_regs (s : State) (a v : Word) :
    (s.storeWord a v).regs = s.regs := rfl

@[simp] theorem storeWord_psw (s : State) (a v : Word) :
    (s.storeWord a v).psw = s.psw := rfl

@[simp] theorem storeWord_ivb (s : State) (a v : Word) :
    (s.storeWord a v).ivb = s.ivb := rfl

@[simp] theorem storeWord_irq (s : State) (a v : Word) :
    (s.storeWord a v).irq = s.irq := rfl

@[simp] theorem storeWord_run (s : State) (a v : Word) :
    (s.storeWord a v).run = s.run := rfl

@[simp] theorem storeWord_tinh (s : State) (a v : Word) :
    (s.storeWord a v).tinh = s.tinh := rfl

@[simp] theorem storeWord_mem (s : State) (a v : Word) :
    (s.storeWord a v).mem = s.mem.putWord (a &&& 0xFFFE) v := rfl

@[simp] theorem storeWord_io (s : State) (a v : Word) :
    (s.storeWord a v).io = s.io := rfl

@[simp] theorem storeWord_cfg (s : State) (a v : Word) :
    (s.storeWord a v).cfg = s.cfg := rfl

@[simp] theorem storeWord_script (s : State) (a v : Word) :
    (s.storeWord a v).script = s.script := rfl

@[simp] theorem storeWord_free (s : State) (a v : Word) :
    (s.storeWord a v).free = s.free := rfl

@[simp] theorem storeWord_get (s : State) (a v : Word) (q : Reg) :
    (s.storeWord a v).get q = s.get q := rfl

/-! ## Register reads -/

@[simp] theorem regs_get_set (x : Regs) (r q : Reg) (v : Word) :
    (x.set r v).get q = if q = r then v else x.get q := by
  cases r <;> cases q <;> rfl

@[simp] theorem get_set (s : State) (r q : Reg) (v : Word) :
    (s.set r v).get q = if q = r then v else s.get q :=
  regs_get_set s.regs r q v

theorem regs_ext (x y : Regs) (h : ∀ q, x.get q = y.get q) : x = y := by
  have h0 := h .r0; have h1 := h .r1; have h2 := h .r2; have h3 := h .r3
  have h4 := h .r4; have h5 := h .r5; have h6 := h .sp; have h7 := h .pc
  cases x; cases y
  simp_all [Regs.get]

theorem get_of_regs {s t : State} (h : s.regs = t.regs) (q : Reg) : s.get q = t.get q := by
  simp [State.get, h]

/-! ## The latches -/

@[simp] theorem irq_get_set (l : IrqLatches) (k j : Irq) (b : Bool) :
    (l.set k b).get j = if j = k then b else l.get j := by
  cases k <;> cases j <;> rfl

end Sys2Proof.Machine
end

