-- ==== Sys2Proof/Laws/Operands.lean ====
section
/-! SUPPORT. What operand resolution, reading, writing and the templates of the instruction families can
do, each said once. -/

namespace Sys2Proof.Machine

open Sys2Proof Sys2Proof.Safety

/-! ## Frames -/

theorem moves_refl (s : State) : Moves (fun _ => 0) s s :=
  ⟨fun q => by simp, rfl⟩

theorem moves_trans {f g : Reg → Word} {s t u : State} (h1 : Moves f s t) (h2 : Moves g t u) :
    Moves (fun q => f q + g q) s u := by
  refine ⟨fun q => ?_, ?_⟩
  · rw [h2.1, h1.1]; exact BitVec.add_assoc _ _ _
  · rw [h2.2, h1.2]

theorem moves_mem {f : Reg → Word} {s t : State} (h : Moves f s t) : t.mem = s.mem := by rw [h.2]
theorem moves_psw {f : Reg → Word} {s t : State} (h : Moves f s t) : t.psw = s.psw := by rw [h.2]
theorem moves_cfg {f : Reg → Word} {s t : State} (h : Moves f s t) : t.cfg = s.cfg := by rw [h.2]
theorem moves_io {f : Reg → Word} {s t : State} (h : Moves f s t) : t.io = s.io := by rw [h.2]
theorem moves_free {f : Reg → Word} {s t : State} (h : Moves f s t) : t.free = s.free := by rw [h.2]

theorem moves_keepsRest {f : Reg → Word} {s t : State} (h : Moves f s t) : KeepsRest s t := by
  rw [h.2]; exact ⟨rfl, rfl, rfl, rfl, rfl, rfl, rfl⟩

theorem keepsRest_trans {s t u : State} (h1 : KeepsRest s t) (h2 : KeepsRest t u) :
    KeepsRest s u := by
  obtain ⟨a1, a2, a3, a4, a5, a6, a7⟩ := h1
  obtain ⟨b1, b2, b3, b4, b5, b6, b7⟩ := h2
  exact ⟨b1.trans a1, b2.trans a2, b3.trans a3, b4.trans a4, b5.trans a5, b6.trans a6, b7.trans a7⟩

/-! ## Results of `Except` computations -/

theorem bind_ok {α β : Type} {x : Except Fault α} {f : α → Except Fault β} {b : β}
    (h : (x >>= f) = .ok b) : ∃ a, x = .ok a ∧ f a = .ok b := by
  cases x with
  | error e => cases h
  | ok a => exact ⟨a, rfl, h⟩

@[simp] theorem ok_bind {α β : Type} (a : α) (f : α → Except Fault β) :
    ((Except.ok a : Except Fault α) >>= f) = f a := rfl

@[simp] theorem error_bind {α β : Type} (e : Fault) (f : α → Except Fault β) :
    ((Except.error e : Except Fault α) >>= f) = .error e := rfl

theorem toOutcome_next {x : Except Fault State} {t : State} (h : toOutcome x = .next t) :
    x = .ok t := by
  cases x with
  | error e => cases h
  | ok a => cases h; rfl

/-! ## DIV_NUMERICS: the row listed for the operands, else the switches (43_register_operand.md R192) -/

theorem divRule_listed (cfg : Config) (hi lo src : Word) {rule : DivRule}
    (h : divListed cfg hi lo src = some rule) : divRule cfg hi lo src = rule := by
  rw [divRule, h]; rfl

theorem divRule_rounding (cfg : Config) (hi lo src : Word) :
    (divRule cfg hi lo src).rounding =
      ((divListed cfg hi lo src).map (·.rounding)).getD cfg.sw.divRounding := by
  unfold divRule; cases divListed cfg hi lo src <;> rfl

theorem divRule_vReading (cfg : Config) (hi lo src : Word) :
    (divRule cfg hi lo src).vReading =
      ((divListed cfg hi lo src).map (·.vReading)).getD cfg.sw.divVReading := by
  unfold divRule; cases divListed cfg hi lo src <;> rfl

theorem divRule_writesOnV (cfg : Config) (hi lo src : Word) :
    (divRule cfg hi lo src).writesOnV =
      ((divListed cfg hi lo src).map (·.writesOnV)).getD cfg.sw.divWritesOnV := by
  unfold divRule; cases divListed cfg hi lo src <;> rfl

/-! ## Words and the stack -/

theorem readWord_even {a : Word} (s : State) (h : isOdd a = false) :
    readWord a s = .ok (s.mem.word a) := by simp [readWord, h]

theorem readWord_odd {a : Word} (s : State) (h : isOdd a = true) :
    readWord a s = .error (.oddWordAddress a) := by simp [readWord, h]

theorem readWord_ok {a v : Word} {s : State} (h : readWord a s = .ok v) :
    isOdd a = false ∧ v = s.mem.word a := by
  unfold readWord at h
  split at h
  · cases h
  · next hodd => cases h; exact ⟨by simpa using hodd, rfl⟩

theorem writeWord_even {a : Word} (v : Word) (s : State) (h : isOdd a = false) :
    writeWord a v s = .ok { s with mem := s.mem.putWord a v } := by simp [writeWord, h]

theorem writeWord_ok {a v : Word} {s t : State} (h : writeWord a v s = .ok t) :
    isOdd a = false ∧ t = { s with mem := s.mem.putWord a v } := by
  unfold writeWord at h
  split at h
  · cases h
  · next hodd => cases h; exact ⟨by simpa using hodd, rfl⟩

theorem fetch_even {s : State} (h : isOdd (s.get .pc) = false) :
    fetch s = .ok (s.mem.word (s.get .pc), s.set .pc (s.get .pc + 2)) := by simp [fetch, h]

theorem fetch_odd {s : State} (h : isOdd (s.get .pc) = true) :
    fetch s = .error (.oddPc (s.get .pc)) := by simp [fetch, h]

theorem fetch_ok {s s1 : State} {w : Word} (h : fetch s = .ok (w, s1)) :
    isOdd (s.get .pc) = false ∧ w = s.mem.word (s.get .pc) ∧ s1 = s.set .pc (s.get .pc + 2) := by
  unfold fetch at h
  simp only at h
  split at h
  · cases h
  · next hodd => cases h; exact ⟨by simpa using hodd, rfl, rfl⟩

theorem push_even {s : State} (v : Word) (h : isOdd (s.get .sp - 2) = false) :
    push v s = .ok { s.set .sp (s.get .sp - 2) with mem := s.mem.putWord (s.get .sp - 2) v } :=
  writeWord_even v (s.set .sp (s.get .sp - 2)) h

theorem push_ok {s t : State} {v : Word} (h : push v s = .ok t) :
    isOdd (s.get .sp - 2) = false ∧
      t = { s.set .sp (s.get .sp - 2) with mem := s.mem.putWord (s.get .sp - 2) v } := by
  have h1 := writeWord_ok h
  exact ⟨h1.1, by rw [h1.2]; rfl⟩

theorem pop_even {s : State} (h : isOdd (s.get .sp) = false) :
    pop s = .ok (s.mem.word (s.get .sp), s.set .sp (s.get .sp + 2)) := by
  simp [pop, readWord, h]

theorem pop_ok {s s1 : State} {v : Word} (h : pop s = .ok (v, s1)) :
    isOdd (s.get .sp) = false ∧ v = s.mem.word (s.get .sp) ∧ s1 = s.set .sp (s.get .sp + 2) := by
  obtain ⟨w, hw, h2⟩ := bind_ok h
  have h3 := readWord_ok hw
  cases h2
  exact ⟨h3.1, h3.2, rfl⟩

/-! ## Resolving an operand -/

theorem set_moves (s : State) (r : Reg) (d : Word) :
    Moves (fun q => if q = r then d else 0) s (s.set r (s.get r + d)) := by
  refine ⟨fun q => ?_, rfl⟩
  rw [get_set]
  by_cases h : q = r <;> simp [h]

/-- Everything resolving an operand can do: it moves registers by `operandStep` and changes nothing
else, and it yields a register only in mode 0. -/
theorem operand_ok {o : Operand} {sz : Size} {s s1 : State} {l : Loc}
    (h : operand o sz s = .ok (l, s1)) :
    Moves (operandStep o sz s) s s1 ∧
      ∀ r, l = .reg r → o.mode = .register ∧ r = o.rn ∧ s1 = s := by
  obtain ⟨m, r⟩ := o
  cases m with
  | register => cases h; exact ⟨moves_refl s, fun r' h' => by cases h'; exact ⟨rfl, rfl, rfl⟩⟩
  | deferred => cases h; exact ⟨moves_refl s, fun _ h' => by cases h'⟩
  | autoinc => cases h; exact ⟨set_moves s r _, fun _ h' => by cases h'⟩
  | autoincDeferred =>
    obtain ⟨a, _, h2⟩ := bind_ok h
    cases h2; exact ⟨set_moves s r 2, fun _ h' => by cases h'⟩
  | autodec =>
    cases h
    refine ⟨?_, fun _ h' => by cases h'⟩
    have := set_moves s r (-(stepDelta sz r s))
    rwa [← BitVec.sub_eq_add_neg] at this
  | autodecDeferred =>
    obtain ⟨a, _, h2⟩ := bind_ok h
    cases h2
    refine ⟨?_, fun _ h' => by cases h'⟩
    have := set_moves s r (-2)
    rwa [← BitVec.sub_eq_add_neg] at this
  | indexed =>
    obtain ⟨⟨x, s2⟩, h1, h2⟩ := bind_ok h
    have h3 := fetch_ok h1
    cases h2
    exact ⟨by rw [h3.2.2]; exact set_moves s .pc 2, fun _ h' => by cases h'⟩
  | indexedDeferred =>
    obtain ⟨⟨x, s2⟩, h1, h2⟩ := bind_ok h
    have h3 := fetch_ok h1
    obtain ⟨a, _, h5⟩ := bind_ok h2
    cases h5
    exact ⟨by rw [h3.2.2]; exact set_moves s .pc 2, fun _ h' => by cases h'⟩

theorem stepDelta_cfg {s t : State} (h : t.cfg = s.cfg) (sz : Size) (r : Reg) :
    stepDelta sz r t = stepDelta sz r s := by
  unfold stepDelta; rw [h]

theorem operandStep_cfg {s t : State} (h : t.cfg = s.cfg) (o : Operand) (sz : Size) :
    operandStep o sz t = operandStep o sz s := by
  funext q; unfold operandStep; rw [stepDelta_cfg h]

/-- A source and then a destination. -/
theorem operands_ok {src dst : Operand} {sz : Size} {s s1 s2 : State} {l1 l2 : Loc}
    (h1 : operand src sz s = .ok (l1, s1)) (h2 : operand dst sz s1 = .ok (l2, s2)) :
    Moves (operandSteps src dst sz s) s s2 := by
  have a := (operand_ok h1).1
  have b := (operand_ok h2).1
  rw [operandStep_cfg (moves_cfg a)] at b
  exact moves_trans a b

theorem sourceWord_ok {src : Operand} {s s1 : State} {v : Word}
    (h : sourceWord src s = .ok (v, s1)) :
    ∃ l, operand src .word s = .ok (l, s1) ∧ rdWord l s1 = .ok v := by
  obtain ⟨⟨l, s2⟩, h1, h2⟩ := bind_ok h
  obtain ⟨w, h3, h4⟩ := bind_ok h2
  cases h4
  exact ⟨l, h1, h3⟩

theorem sourceByte_ok {src : Operand} {s s1 : State} {v : Byte}
    (h : sourceByte src s = .ok (v, s1)) :
    ∃ l, operand src .byte s = .ok (l, s1) ∧ v = rdByte l s1 := by
  obtain ⟨⟨l, s2⟩, h1, h2⟩ := bind_ok h
  cases h2
  exact ⟨l, h1, rfl⟩

theorem sourceWord_moves {src : Operand} {s s1 : State} {v : Word}
    (h : sourceWord src s = .ok (v, s1)) : Moves (operandStep src .word s) s s1 := by
  obtain ⟨l, h1, _⟩ := sourceWord_ok h
  exact (operand_ok h1).1

theorem sourceByte_moves {src : Operand} {s s1 : State} {v : Byte}
    (h : sourceByte src s = .ok (v, s1)) : Moves (operandStep src .byte s) s s1 := by
  obtain ⟨l, h1, _⟩ := sourceByte_ok h
  exact (operand_ok h1).1

/-! ## Writing -/

theorem rdWord_writable {l : Loc} {s : State} {v : Word} (h : rdWord l s = .ok v) : Writable l := by
  cases l with
  | reg r => trivial
  | mem a => exact (readWord_ok h).1

theorem storesWord_put {s : State} (hwf : s.mem.wf = true) (a v : Word) (t : State)
    (ht : t.mem = s.mem.putWord a v) : StoresWord a v s t := by
  have h1 : a.toNat ≠ a.toNat + 1 := by omega
  refine ⟨?_, ?_, fun b h2 h3 => ?_⟩
  · rw [ht, get_putWord hwf, if_neg h1, if_pos rfl]; rfl
  · rw [ht, get_putWord hwf, if_pos rfl]; rfl
  · rw [ht, get_putWord hwf, if_neg h3, if_neg h2]

/-- Everything committing a word result can do. -/
theorem commitWord_effect {f : Reg → Word} {s s1 : State} (hm : Moves f s s1)
    (hwf : s.mem.wf = true) {l : Loc} (hl : Writable l) (r : Word × Cc) :
    ∃ t, commitWord l r s1 = .ok t ∧ WordEffect l r.1 r.2 f s t := by
  have hmem := moves_mem hm
  have hpsw := moves_psw hm
  have hrest := moves_keepsRest hm
  cases l with
  | reg q =>
    refine ⟨_, rfl, fun q' => ?_, fun b => by rw [← hmem]; rfl, ⟨?_, ?_, rfl⟩, ?_⟩
    · rw [setCc_get, get_set, hm.1]
    · rw [setCc_psw, set_psw, hpsw]
    · rw [setCc_psw, set_psw, hpsw]
    · exact keepsRest_trans hrest ⟨rfl, rfl, rfl, rfl, rfl, rfl, rfl⟩
  | mem a =>
    refine ⟨({ s1 with mem := s1.mem.putWord a r.1 } : State).setCc r.2, ?_, fun q => hm.1 q, ?_,
      ⟨?_, ?_, rfl⟩, ?_⟩
    · simp only [commitWord, wrWord, writeWord_even r.1 s1 hl, ok_bind]
    · exact storesWord_put hwf a r.1 _ (by rw [setCc_mem, hmem])
    · rw [setCc_psw, hpsw]
    · rw [setCc_psw, hpsw]
    · exact keepsRest_trans hrest ⟨rfl, rfl, rfl, rfl, rfl, rfl, rfl⟩

theorem inPswWindow_iff (a : Word) (s : State) : inPswWindow a s = true ↔ AtWindow a s := by
  simp [inPswWindow, AtWindow]

theorem psw_ofByte_prio (ten : Bool) (b : Byte) : (Psw.ofByte ten b).prio.toNat = b.toNat / 32 := by
  have := b.isLt
  simp only [Psw.ofByte, BitVec.extractLsb'_toNat, Nat.shiftRight_eq_div_pow]
  omega

/-- What writing the PSW from a byte leaves in it (R28). -/
theorem loadedFrom_ofByte (ten : Bool) (b : Byte) : LoadedFrom b ten (Psw.ofByte ten b) := by
  refine ⟨psw_ofByte_prio ten b, rfl, ?_, ?_, ?_, ?_⟩ <;>
    simp [Psw.ofByte, Cc.ofBits]

/-- Everything committing a byte result can do. -/
theorem commitByte_effect {f : Reg → Word} {s s1 : State} (hm : Moves f s s1)
    (hwf : s.mem.wf = true) (l : Loc) (r : Byte × Cc) :
    ByteEffect l r.1 r.2 f s (commitByte l r s1) := by
  have hmem := moves_mem hm
  have hpsw := moves_psw hm
  have hcfg := moves_cfg hm
  have hrest := moves_keepsRest hm
  cases l with
  | reg q =>
    refine ⟨keepsRest_trans hrest ⟨rfl, rfl, rfl, rfl, rfl, rfl, rfl⟩, fun q' => ?_,
      fun b => by rw [← hmem]; rfl, ?_, ?_, rfl⟩
    · simp only [commitByte, hitsPswWindow, Bool.false_eq_true, if_false, setCc_get, wrByte, get_set]
      split
      · next h => rw [h, hm.1]; rfl
      · exact hm.1 q'
    · simp [commitByte, hitsPswWindow, wrByte, hpsw]
    · simp [commitByte, hitsPswWindow, wrByte, hpsw]
  | mem a =>
    by_cases hw : AtWindow a s
    · have hw1 : inPswWindow a s1 = true := by
        rw [inPswWindow_iff]; unfold AtWindow at hw ⊢; rw [hcfg]; exact hw
      have he : commitByte (.mem a) r s1 = (s1.writePsw r.1).freeCcAfterWindow := by
        simp [commitByte, hitsPswWindow, wrByte, writeByte, hw1]
      rw [he]
      refine ⟨keepsRest_trans hrest ⟨rfl, rfl, rfl, rfl, rfl, rfl, rfl⟩, fun q => hm.1 q,
        fun h => absurd hw h, fun _ => ⟨fun b => by rw [← hmem]; rfl, ?_, ?_⟩⟩
      · exact psw_ofByte_prio s1.cfg.settings.ten r.1
      · rw [← hcfg]; rfl
    · have hw1 : inPswWindow a s1 = false := by
        rw [← Bool.not_eq_true, inPswWindow_iff]; unfold AtWindow at hw ⊢; rw [hcfg]; exact hw
      have he : commitByte (.mem a) r s1 =
          ({ s1 with mem := s1.mem.put a.toNat r.1 } : State).setCc r.2 := by
        simp [commitByte, hitsPswWindow, wrByte, writeByte, hw1]
      rw [he]
      refine ⟨keepsRest_trans hrest ⟨rfl, rfl, rfl, rfl, rfl, rfl, rfl⟩, fun q => hm.1 q,
        fun _ => ⟨⟨?_, fun b hb => ?_⟩, ?_, ?_, rfl⟩, fun h => absurd h hw⟩
      · rw [setCc_mem]; simp only [hmem]; rw [get_put hwf, if_pos rfl]
      · rw [setCc_mem]; simp only [hmem]; rw [get_put hwf, if_neg hb]
      · rw [setCc_psw, hpsw]
      · rw [setCc_psw, hpsw]

theorem setCc_codesOnly {f : Reg → Word} {s s1 : State} (hm : Moves f s s1) (cc : Cc) :
    CodesOnly cc f s (s1.setCc cc) := by
  refine ⟨hm.1, fun b => by rw [setCc_mem, moves_mem hm], ⟨?_, ?_, rfl⟩,
    keepsRest_trans (moves_keepsRest hm) ⟨rfl, rfl, rfl, rfl, rfl, rfl, rfl⟩⟩
  · rw [setCc_psw, moves_psw hm]
  · rw [setCc_psw, moves_psw hm]

/-! ## The templates -/

/-- Everything a read-modify-write word instruction can do, once its operand is readable. -/
theorem modifyWord_effect (f : Cc → Word → Word × Cc) {d : Operand} {s s1 : State} {l : Loc}
    {x : Word} (hwf : s.mem.wf = true) (h1 : operand d .word s = .ok (l, s1))
    (h2 : rdWord l s1 = .ok x) :
    ∃ t, modifyWord f d s = .ok t ∧
      WordEffect l (f s.psw.cc x).1 (f s.psw.cc x).2 (operandStep d .word s) s t := by
  have hm := (operand_ok h1).1
  obtain ⟨t, ht, he⟩ := commitWord_effect hm hwf (rdWord_writable h2) (f s.psw.cc x)
  exact ⟨t, by simp only [modifyWord, h1, ok_bind, h2, moves_psw hm, ht], he⟩

/-- Everything a read-modify-write byte instruction can do, once its operand is resolved. -/
theorem modifyByte_effect (f : Cc → Byte → Byte × Cc) {d : Operand} {s s1 : State} {l : Loc}
    (hwf : s.mem.wf = true) (h1 : operand d .byte s = .ok (l, s1)) :
    ∃ t, modifyByte f d s = .ok t ∧
      ByteEffect l (f s.psw.cc (rdByte l s1)).1 (f s.psw.cc (rdByte l s1)).2
        (operandStep d .byte s) s t := by
  have hm := (operand_ok h1).1
  exact ⟨_, by simp only [modifyByte, h1, ok_bind, moves_psw hm], commitByte_effect hm hwf l _⟩

/-- Everything a word instruction that does not read its destination can do. -/
theorem produceWord_effect (f : Cc → Word × Cc) {d : Operand} {s s1 : State} {l : Loc}
    (hwf : s.mem.wf = true) (h1 : operand d .word s = .ok (l, s1)) (h2 : Writable l) :
    ∃ t, produceWord f d s = .ok t ∧
      WordEffect l (f s.psw.cc).1 (f s.psw.cc).2 (operandStep d .word s) s t := by
  have hm := (operand_ok h1).1
  obtain ⟨t, ht, he⟩ := commitWord_effect hm hwf h2 (f s.psw.cc)
  exact ⟨t, by simp only [produceWord, h1, ok_bind, moves_psw hm, ht], he⟩

/-- Everything a byte instruction that does not read its destination can do. -/
theorem produceByte_effect (f : Cc → Byte × Cc) {d : Operand} {s s1 : State} {l : Loc}
    (hwf : s.mem.wf = true) (h1 : operand d .byte s = .ok (l, s1)) :
    ∃ t, produceByte f d s = .ok t ∧
      ByteEffect l (f s.psw.cc).1 (f s.psw.cc).2 (operandStep d .byte s) s t := by
  have hm := (operand_ok h1).1
  exact ⟨_, by simp only [produceByte, h1, ok_bind, moves_psw hm], commitByte_effect hm hwf l _⟩

theorem testWord_effect (f : Word → Cc) {d : Operand} {s s1 : State} {l : Loc} {x : Word}
    (h1 : operand d .word s = .ok (l, s1)) (h2 : rdWord l s1 = .ok x) :
    ∃ t, testWord f d s = .ok t ∧ CodesOnly (f x) (operandStep d .word s) s t :=
  ⟨_, by simp only [testWord, h1, ok_bind, h2], setCc_codesOnly (operand_ok h1).1 _⟩

theorem testByte_effect (f : Byte → Cc) {d : Operand} {s s1 : State} {l : Loc}
    (h1 : operand d .byte s = .ok (l, s1)) :
    ∃ t, testByte f d s = .ok t ∧ CodesOnly (f (rdByte l s1)) (operandStep d .byte s) s t :=
  ⟨_, by simp only [testByte, h1, ok_bind], setCc_codesOnly (operand_ok h1).1 _⟩

/-- The effect of a second instruction half, seen from the state before the first. -/
theorem wordEffect_moved {f g : Reg → Word} {s s1 t : State} (hm : Moves f s s1) {l : Loc} {v : Word}
    {cc : Cc} (h : WordEffect l v cc g s1 t) : WordEffect l v cc (fun q => f q + g q) s t := by
  have hmem := moves_mem hm
  have hpsw := moves_psw hm
  have hrest := moves_keepsRest hm
  cases l with
  | reg r =>
    obtain ⟨a, b, ⟨c1, c2, c3⟩, d⟩ := h
    refine ⟨fun q => ?_, fun n => by rw [b n, hmem], ⟨by rw [c1, hpsw], by rw [c2, hpsw], c3⟩,
      keepsRest_trans hrest d⟩
    rw [a q, hm.1, BitVec.add_assoc]
  | mem m =>
    obtain ⟨a, ⟨b1, b2, b3⟩, ⟨c1, c2, c3⟩, d⟩ := h
    refine ⟨fun q => ?_, ⟨b1, b2, fun n h1 h2 => by rw [b3 n h1 h2, hmem]⟩,
      ⟨by rw [c1, hpsw], by rw [c2, hpsw], c3⟩, keepsRest_trans hrest d⟩
    rw [a q, hm.1, BitVec.add_assoc]

theorem byteEffect_moved {f g : Reg → Word} {s s1 t : State} (hm : Moves f s s1) {l : Loc} {v : Byte}
    {cc : Cc} (h : ByteEffect l v cc g s1 t) : ByteEffect l v cc (fun q => f q + g q) s t := by
  have hmem := moves_mem hm
  have hpsw := moves_psw hm
  have hcfg := moves_cfg hm
  have hrest := moves_keepsRest hm
  obtain ⟨hk, h⟩ := h
  refine ⟨keepsRest_trans hrest hk, ?_⟩
  cases l with
  | reg r =>
    obtain ⟨a, b, c1, c2, c3⟩ := h
    refine ⟨fun q => ?_, fun n => by rw [b n, hmem], by rw [c1, hpsw], by rw [c2, hpsw], c3⟩
    rw [a q, hm.1, BitVec.add_assoc]
  | mem m =>
    obtain ⟨a, b, c⟩ := h
    have hw : AtWindow m s1 ↔ AtWindow m s := by unfold AtWindow; rw [hcfg]
    rw [hw] at b c
    refine ⟨fun q => ?_, fun hn => ?_, fun hy => ?_⟩
    · rw [a q, hm.1, BitVec.add_assoc]
    · obtain ⟨⟨b1, b2⟩, c1, c2, c3⟩ := b hn
      exact ⟨⟨b1, fun n h1 => by rw [b2 n h1, hmem]⟩, by rw [c1, hpsw], by rw [c2, hpsw], c3⟩
    · obtain ⟨c1, c2, c3⟩ := c hy
      exact ⟨fun n => by rw [c1 n, hmem], c2, by rw [c3, hcfg]⟩

theorem codesOnly_moved {f g : Reg → Word} {s s1 t : State} (hm : Moves f s s1) {cc : Cc}
    (h : CodesOnly cc g s1 t) : CodesOnly cc (fun q => f q + g q) s t := by
  obtain ⟨a, b, ⟨c1, c2, c3⟩, d⟩ := h
  exact ⟨fun q => by rw [a q, hm.1, BitVec.add_assoc], fun n => by rw [b n, moves_mem hm],
    ⟨by rw [c1, moves_psw hm], by rw [c2, moves_psw hm], c3⟩,
    keepsRest_trans (moves_keepsRest hm) d⟩

/-- Everything a double-operand word instruction that reads both operands can do. -/
theorem combineWord_effect (f : Cc → Word → Word → Word × Cc) {src dst : Operand}
    {s s1 s2 : State} {x y : Word} {l : Loc} (hwf : s.mem.wf = true)
    (h1 : sourceWord src s = .ok (x, s1)) (h2 : operand dst .word s1 = .ok (l, s2))
    (h3 : rdWord l s2 = .ok y) :
    ∃ t, combineWord f src dst s = .ok t ∧
      WordEffect l (f s.psw.cc x y).1 (f s.psw.cc x y).2 (operandSteps src dst .word s) s t := by
  have hm := sourceWord_moves h1
  obtain ⟨t, ht, he⟩ := modifyWord_effect (fun cc d => f cc x d)
    (by rw [moves_mem hm]; exact hwf) h2 h3
  rw [moves_psw hm, operandStep_cfg (moves_cfg hm)] at he
  exact ⟨t, by simp only [combineWord, h1, ok_bind, ht], wordEffect_moved hm he⟩

/-- Everything a double-operand byte instruction that reads both operands can do. -/
theorem combineByte_effect (f : Cc → Byte → Byte → Byte × Cc) {src dst : Operand}
    {s s1 s2 : State} {x : Byte} {l : Loc} (hwf : s.mem.wf = true)
    (h1 : sourceByte src s = .ok (x, s1)) (h2 : operand dst .byte s1 = .ok (l, s2)) :
    ∃ t, combineByte f src dst s = .ok t ∧
      ByteEffect l (f s.psw.cc x (rdByte l s2)).1 (f s.psw.cc x (rdByte l s2)).2
        (operandSteps src dst .byte s) s t := by
  have hm := sourceByte_moves h1
  obtain ⟨t, ht, he⟩ := modifyByte_effect (fun cc d => f cc x d)
    (by rw [moves_mem hm]; exact hwf) h2
  rw [moves_psw hm, operandStep_cfg (moves_cfg hm)] at he
  exact ⟨t, by simp only [combineByte, h1, ok_bind, ht], byteEffect_moved hm he⟩

theorem compareWord_effect (f : Cc → Word → Word → Cc) {src dst : Operand} {s s1 s2 : State}
    {x y : Word} (h1 : sourceWord src s = .ok (x, s1)) (h2 : sourceWord dst s1 = .ok (y, s2)) :
    ∃ t, compareWord f src dst s = .ok t ∧
      CodesOnly (f s.psw.cc x y) (operandSteps src dst .word s) s t := by
  have hm := sourceWord_moves h1
  have hm2 := sourceWord_moves h2
  have he := codesOnly_moved hm (setCc_codesOnly hm2 (f s.psw.cc x y))
  rw [operandStep_cfg (moves_cfg hm)] at he
  refine ⟨_, ?_, he⟩
  simp only [compareWord, h1, ok_bind, h2, moves_psw hm2, moves_psw hm]

theorem compareByte_effect (f : Cc → Byte → Byte → Cc) {src dst : Operand} {s s1 s2 : State}
    {x y : Byte} (h1 : sourceByte src s = .ok (x, s1)) (h2 : sourceByte dst s1 = .ok (y, s2)) :
    ∃ t, compareByte f src dst s = .ok t ∧
      CodesOnly (f s.psw.cc x y) (operandSteps src dst .byte s) s t := by
  have hm := sourceByte_moves h1
  have hm2 := sourceByte_moves h2
  have he := codesOnly_moved hm (setCc_codesOnly hm2 (f s.psw.cc x y))
  rw [operandStep_cfg (moves_cfg hm)] at he
  refine ⟨_, ?_, he⟩
  simp only [compareByte, h1, ok_bind, h2, moves_psw hm2, moves_psw hm]

end Sys2Proof.Machine
end

