-- ==== Sys2Proof/Laws/Interrupts.lean ====
section
/-! SUPPORT. What taking a trap or an interrupt and returning from one can do, each said once; which
request the end-of-instruction check serves. -/

namespace Sys2Proof.Machine

open Sys2Proof Sys2Proof.Safety

/-! ## The PSW as a byte -/

/-- The two spellings of the PSW byte agree. -/
theorem psw_toByte (p : Psw) : p.toByte = pswByte p := by
  obtain ⟨prio, t, ⟨n, z, v, c⟩⟩ := p
  revert prio
  cases t <;> cases n <;> cases z <;> cases v <;> cases c <;> decide

theorem lowByte_append (u b : Byte) : lowByte (u ++ b : Word) = b :=
  lowByte_wordOfBytes b u

/-! ## Parity of addresses -/

theorem isOdd_toNat (a : Word) : isOdd a = decide (a.toNat % 2 = 1) := by
  rw [isOdd, BitVec.getLsbD, Nat.testBit_zero]

theorem isOdd_sub_two (a : Word) : isOdd (a - 2) = isOdd a := by
  rw [isOdd_toNat, isOdd_toNat]
  have : (a - 2).toNat % 2 = a.toNat % 2 := by
    rw [BitVec.toNat_sub]; have := a.isLt; simp; omega
  rw [this]

theorem isOdd_add_two (a : Word) : isOdd (a + 2) = isOdd a := by
  rw [isOdd_toNat, isOdd_toNat]
  have : (a + 2).toNat % 2 = a.toNat % 2 := by
    rw [BitVec.toNat_add]; simp
  rw [this]

theorem vectorAddress_even (n : BitVec 15) : isOdd (vectorAddress n) = false := by
  rw [isOdd, vectorAddress, BitVec.getLsbD_append]
  rfl

theorem irqVector_even (s : State) (k : Irq) (h : s.ivb &&& 0x001F = 0) :
    isOdd (irqVector s k) = false := by
  have h0 : s.ivb.getLsbD 0 = false := by
    have := congrArg (fun b : Word => b.getLsbD 0) h
    simpa using this
  have h1 : s.ivb.toNat % 2 = 0 := by
    rw [BitVec.getLsbD, Nat.testBit_zero] at h0
    simpa using h0
  rw [isOdd_toNat]
  have : (irqVector s k).toNat % 2 = 0 := by
    cases k <;> simp [irqVector, Irq.number, BitVec.toNat_add] <;> omega
  simp [this]

/-! ## Taking a trap or an interrupt -/

/-- The state an entry leaves, written out. -/
theorem enter_eq {vec : Word} {s : State} (hsp : isOdd (s.get .sp) = false)
    (hvec : isOdd vec = false) :
    enter vec s = .ok
      (let m := (s.mem.putWord (s.get .sp - 2) (Config.freeByte s.free ++ s.psw.toByte)).putWord
        (s.get .sp - 4) (s.get .pc)
       { (s.set .sp (s.get .sp - 4)).set .pc (m.word vec) with
          mem := m, free := s.free + 1, run := .running,
          psw := { Psw.ofByte s.cfg.settings.ten (lowByte (m.word (vec + 2))) with t := false } }) := by
  have h2 : isOdd (s.get .sp - 2) = false := by rw [isOdd_sub_two]; exact hsp
  have h4 : isOdd (s.get .sp - 2 - 2) = false := by rw [isOdd_sub_two]; exact h2
  have h6 : isOdd (vec + 2) = false := by rw [isOdd_add_two]; exact hvec
  have e : s.get .sp - 2 - 2 = s.get .sp - 4 := by
    rw [BitVec.sub_sub]; rfl
  rw [e] at h4
  simp only [enter, push, readWord, writeWord, State.get, State.set, Regs.get, Regs.set] at *
  simp only [h2, e, h4, hvec, h6, ok_bind, Bool.false_eq_true, if_false]

/-- Everything an entry can do. -/
theorem enter_effect {vec : Word} {s : State} (hwf : s.mem.wf = true)
    (hsp : isOdd (s.get .sp) = false) (hvec : isOdd vec = false) :
    ∃ t, enter vec s = .ok t ∧ Enters vec s t ∧ t.irq = s.irq ∧ t.tinh = s.tinh ∧
      t.mem.wf = true := by
  have h2 : isOdd (s.get .sp - 2) = false := by rw [isOdd_sub_two]; exact hsp
  have h4 : isOdd (s.get .sp - 4) = false := by
    have e : s.get .sp - 4 = s.get .sp - 2 - 2 := by rw [BitVec.sub_sub]; rfl
    rw [e, isOdd_sub_two]; exact h2
  have hw1 := putWord_wf (Config.freeByte s.free ++ s.psw.toByte : Word) h2 hwf
  have hw2 := putWord_wf (s.get .pc) h4 hw1
  have hn2 : (s.get .sp - 2).toNat % 2 = 0 := by rw [isOdd_toNat] at h2; simpa using h2
  have hn4 : (s.get .sp - 4).toNat % 2 = 0 := by rw [isOdd_toNat] at h4; simpa using h4
  have hne : (s.get .sp - 2).toNat ≠ (s.get .sp - 4).toNat := by
    rw [BitVec.toNat_sub, BitVec.toNat_sub]
    have := (s.get .sp).isLt
    simp
    omega
  refine ⟨_, enter_eq hsp hvec, ⟨fun q => ?_, ?_, ?_, ?_, fun b h1 h3 h5 h7 => ?_, ?_, rfl, rfl, rfl,
    rfl, rfl⟩, rfl, rfl, hw2⟩
  · cases q <;> rfl
  · have a1 : (s.get .sp - 2).toNat ≠ (s.get .sp - 4).toNat + 1 := by omega
    have a2 : (s.get .sp - 2).toNat ≠ (s.get .sp - 2).toNat + 1 := by omega
    show Memory.get _ _ = _
    rw [get_putWord hw1, if_neg a1, if_neg hne, get_putWord hwf, if_neg a2, if_pos rfl,
      lowByte_append, psw_toByte]
  · have a1 : (s.get .sp - 4).toNat ≠ (s.get .sp - 4).toNat + 1 := by omega
    simp only [get_putWord hw1, a1, if_true, if_false]; rfl
  · simp only [get_putWord hw1, if_true]; rfl
  · simp only [get_putWord hw1, get_putWord hwf, h1, h3, h5, h7, if_false]
  · have h := loadedFrom_ofByte s.cfg.settings.ten (lowByte
      (((s.mem.putWord (s.get .sp - 2) (Config.freeByte s.free ++ s.psw.toByte)).putWord
        (s.get .sp - 4) (s.get .pc)).word (vec + 2)))
    obtain ⟨a1, _, a3, a4, a5, a6⟩ := h
    simp only [Memory.word, lowByte_wordOfBytes] at a1 a3 a4 a5 a6 ⊢
    exact ⟨a1, by simp, a3, a4, a5, a6⟩

theorem enter_ok {vec : Word} {s t : State} (h : enter vec s = .ok t) :
    isOdd (s.get .sp) = false ∧ isOdd vec = false := by
  obtain ⟨s1, h1, h2⟩ := bind_ok h
  obtain ⟨s2, h3, h4⟩ := bind_ok h2
  obtain ⟨v, h5, h6⟩ := bind_ok h4
  have a := (push_ok h1).1
  have e : ({ s with free := s.free + 1 } : State).get .sp = s.get .sp := rfl
  rw [e, isOdd_sub_two] at a
  exact ⟨a, (readWord_ok h5).1⟩

/-! ## Returning -/

/-- Everything RTI's two pops can do. -/
theorem return_effect {s : State} (hsp : isOdd (s.get .sp) = false) :
    ∃ t, returnFromInterrupt s = .ok t ∧
      (∀ q, t.get q = if q = .pc then s.mem.word (s.get .sp) else
        if q = .sp then s.get .sp + 4 else s.get q) ∧
      LoadedFrom (s.mem.get (s.get .sp + 2).toNat) s.cfg.settings.ten t.psw ∧
      t = { s with regs := t.regs, psw := t.psw } := by
  have h2 : isOdd (s.get .sp + 2) = false := by rw [isOdd_add_two]; exact hsp
  have e : s.get .sp + 2 + 2 = s.get .sp + 4 := by rw [BitVec.add_assoc]; rfl
  refine ⟨((s.set .sp (s.get .sp + 4)).set .pc (s.mem.word (s.get .sp))).writePsw
    (lowByte (s.mem.word (s.get .sp + 2))), ?_, fun q => ?_, ?_, rfl⟩
  · simp only [returnFromInterrupt, pop, readWord, State.get, State.set, Regs.get, Regs.set] at *
    simp only [hsp, h2, e, ok_bind, Bool.false_eq_true, if_false]
  · cases q <;> rfl
  · have h := loadedFrom_ofByte s.cfg.settings.ten (lowByte (s.mem.word (s.get .sp + 2)))
    simp only [Memory.word, lowByte_wordOfBytes] at h
    simpa only [writePsw_psw, set_cfg, Memory.word, lowByte_wordOfBytes] using h

theorem return_ok {s t : State} (h : returnFromInterrupt s = .ok t) :
    isOdd (s.get .sp) = false := by
  obtain ⟨p, h1, _⟩ := bind_ok h
  exact (pop_ok (v := p.1) (s1 := p.2) h1).1

/-! ## Which request is served -/

theorem acceptable_iff (s : State) (k : Irq) : acceptable s k = true ↔ Acceptable s k := by
  simp [acceptable, Acceptable]

/-- The first element of the priority list that meets a test is the one with the highest number. -/
theorem find_byPriority_some {p : Irq → Bool} {k : Irq} (h : Irq.byPriority.find? p = some k) :
    p k = true ∧ ∀ j, p j = true → j.number ≤ k.number := by
  refine ⟨List.find?_some h, fun j hj => ?_⟩
  simp only [Irq.byPriority, List.find?_cons] at h
  cases h7 : p .irq7 <;> cases h6 : p .irq6 <;> cases h5 : p .irq5 <;> cases h4 : p .irq4 <;>
    cases h3 : p .irq3 <;> cases h2 : p .irq2 <;> cases h1 : p .irq1 <;>
    simp [h7, h6, h5, h4, h3, h2, h1] at h <;> subst h <;> cases j <;>
    simp_all [Irq.number]

theorem find_byPriority_none {p : Irq → Bool} (h : Irq.byPriority.find? p = none) (j : Irq) :
    p j = false := by
  have := List.find?_eq_none.1 h j (by cases j <;> decide)
  simpa using this

theorem irq_number_inj {j k : Irq} (h : j.number = k.number) : j = k := by
  cases j <;> cases k <;> simp [Irq.number] at h <;> rfl

theorem find_byPriority_eq {p : Irq → Bool} {k : Irq} (hk : p k = true)
    (hmax : ∀ j, p j = true → j.number ≤ k.number) : Irq.byPriority.find? p = some k := by
  cases h : Irq.byPriority.find? p with
  | none => rw [find_byPriority_none h k] at hk; cases hk
  | some j =>
    have hj := find_byPriority_some h
    rw [irq_number_inj (Nat.le_antisymm (hmax j hj.1) (hj.2 k hk))]

theorem highestAcceptable_some {s : State} {k : Irq} (h : HighestAcceptable s k) :
    highestAcceptable s = some k :=
  find_byPriority_eq ((acceptable_iff s k).2 h.1) fun j hj => h.2 j ((acceptable_iff s j).1 hj)

theorem highestAcceptable_none {s : State} (h : ∀ k, ¬ Acceptable s k) :
    highestAcceptable s = none := by
  cases e : highestAcceptable s with
  | none => rfl
  | some k => exact absurd ((acceptable_iff s k).1 (find_byPriority_some e).1) (h k)

/-- Everything serving a request can do. -/
theorem serveIrq_effect {s : State} {k : Irq} (hwf : s.mem.wf = true)
    (hsp : isOdd (s.get .sp) = false) (hivb : s.ivb &&& 0x001F = 0) :
    ∃ t, serveIrq k s = .ok t ∧ Enters (irqVector s k) s t ∧ ClearsLatch k s t ∧
      t.tinh = s.tinh ∧ t.mem.wf = true := by
  obtain ⟨t, h1, h2, h3, h4, h5⟩ := enter_effect hwf hsp (irqVector_even s k hivb)
  refine ⟨{ t with irq := t.irq.set k false }, by simp only [serveIrq, h1, ok_bind], h2, ⟨?_, ?_⟩,
    h4, h5⟩
  · simp
  · intro j hj; simp [hj, h3]

end Sys2Proof.Machine
end

