-- ==== Sys2Proof/Laws/Frame.lean ====
section
/-! SUPPORT. What no operation of an instruction touches: the configuration, the latches, IVB, the
peripherals, the moves to come and the trace inhibit; and what every one of them keeps: the canonical
form of memory and T under TEN. One lemma per shared operation. -/

namespace Sys2Proof.Machine

open Sys2Proof Sys2Proof.Safety

/-- From `s` to `t` only registers, the PSW, memory, the run state (to running) and the draw counter
have changed; memory stays canonical and T stays gated by TEN. -/
structure Local (s t : State) : Prop where
  cfg : t.cfg = s.cfg
  irq : t.irq = s.irq
  ivb : t.ivb = s.ivb
  io : t.io = s.io
  script : t.script = s.script
  tinh : t.tinh = s.tinh
  run : t.run = s.run ∨ t.run = .running
  mem : s.mem.wf = true → t.mem.wf = true
  gate : (s.psw.t = true → s.cfg.settings.ten = true) → t.psw.t = true → s.cfg.settings.ten = true

theorem local_refl (s : State) : Local s s :=
  ⟨rfl, rfl, rfl, rfl, rfl, rfl, .inl rfl, id, id⟩

theorem local_trans {s t u : State} (a : Local s t) (b : Local t u) : Local s u where
  cfg := b.cfg.trans a.cfg
  irq := b.irq.trans a.irq
  ivb := b.ivb.trans a.ivb
  io := b.io.trans a.io
  script := b.script.trans a.script
  tinh := b.tinh.trans a.tinh
  run := by
    rcases b.run with h | h
    · rcases a.run with h' | h'
      · exact .inl (h.trans h')
      · exact .inr (h.trans h')
    · exact .inr h
  mem h := b.mem (a.mem h)
  gate h := by
    have := b.gate (by rw [a.cfg]; exact a.gate h)
    rwa [a.cfg] at this

theorem local_moves {f : Reg → Word} {s t : State} (h : Moves f s t) : Local s t := by
  rw [h.2]; exact ⟨rfl, rfl, rfl, rfl, rfl, rfl, .inl rfl, id, id⟩

theorem local_set (s : State) (r : Reg) (v : Word) : Local s (s.set r v) :=
  ⟨rfl, rfl, rfl, rfl, rfl, rfl, .inl rfl, id, id⟩

theorem local_setCc (s : State) (cc : Cc) : Local s (s.setCc cc) :=
  ⟨rfl, rfl, rfl, rfl, rfl, rfl, .inl rfl, id, id⟩

theorem local_writePsw (s : State) (b : Byte) : Local s (s.writePsw b) :=
  ⟨rfl, rfl, rfl, rfl, rfl, rfl, .inl rfl, id, fun _ h => by
    rw [writePsw_psw] at h
    simp only [Psw.ofByte, Bool.and_eq_true] at h
    exact h.2⟩

theorem local_freeCc (s : State) : Local s s.freeCcAfterWindow :=
  ⟨rfl, rfl, rfl, rfl, rfl, rfl, .inl rfl, id, id⟩

theorem local_free (s : State) (n : Nat) : Local s { s with free := n } :=
  ⟨rfl, rfl, rfl, rfl, rfl, rfl, .inl rfl, id, id⟩

theorem local_mem (s : State) (m : Memory) (h : s.mem.wf = true → m.wf = true) :
    Local s { s with mem := m } :=
  ⟨rfl, rfl, rfl, rfl, rfl, rfl, .inl rfl, h, id⟩

theorem local_writeWord {a v : Word} {s t : State} (h : writeWord a v s = .ok t) : Local s t := by
  have h1 := writeWord_ok h
  rw [h1.2]
  exact local_mem s _ (putWord_wf v h1.1)

theorem local_writeByte (a : Word) (b : Byte) (s : State) : Local s (writeByte a b s) := by
  unfold writeByte
  split
  · exact local_writePsw s b
  · exact local_mem s _ (put_wf b a.isLt)

theorem local_wrWord {l : Loc} {v : Word} {s t : State} (h : wrWord l v s = .ok t) : Local s t := by
  cases l with
  | reg r => cases h; exact local_set s r v
  | mem a => exact local_writeWord h

theorem local_wrByte (l : Loc) (b : Byte) (s : State) : Local s (wrByte l b s) := by
  cases l with
  | reg r => exact local_set s r _
  | mem a => exact local_writeByte a b s

theorem local_commitWord {l : Loc} {r : Word × Cc} {s t : State} (h : commitWord l r s = .ok t) :
    Local s t := by
  obtain ⟨s1, h1, h2⟩ := bind_ok h
  cases h2
  exact local_trans (local_wrWord h1) (local_setCc s1 r.2)

theorem local_commitByte (l : Loc) (r : Byte × Cc) (s : State) : Local s (commitByte l r s) := by
  unfold commitByte
  simp only
  split
  · exact local_trans (local_wrByte l r.1 s) (local_freeCc _)
  · exact local_trans (local_wrByte l r.1 s) (local_setCc _ _)

theorem local_operand {o : Operand} {sz : Size} {s s1 : State} {l : Loc}
    (h : operand o sz s = .ok (l, s1)) : Local s s1 :=
  local_moves (operand_ok h).1

theorem local_effectiveAddress {o : Operand} {s s1 : State} {a : Word}
    (h : effectiveAddress o s = .ok (a, s1)) : Local s s1 := by
  obtain ⟨⟨l, s2⟩, h1, h2⟩ := bind_ok h
  cases h2
  exact local_operand h1

theorem local_sourceWord {o : Operand} {s s1 : State} {v : Word}
    (h : sourceWord o s = .ok (v, s1)) : Local s s1 :=
  local_moves (sourceWord_moves h)

theorem local_sourceByte {o : Operand} {s s1 : State} {v : Byte}
    (h : sourceByte o s = .ok (v, s1)) : Local s s1 :=
  local_moves (sourceByte_moves h)

theorem local_modifyWord {f : Cc → Word → Word × Cc} {d : Operand} {s t : State}
    (h : modifyWord f d s = .ok t) : Local s t := by
  obtain ⟨⟨l, s1⟩, h1, h2⟩ := bind_ok h
  obtain ⟨x, _, h3⟩ := bind_ok h2
  exact local_trans (local_operand h1) (local_commitWord h3)

theorem local_modifyByte {f : Cc → Byte → Byte × Cc} {d : Operand} {s t : State}
    (h : modifyByte f d s = .ok t) : Local s t := by
  obtain ⟨⟨l, s1⟩, h1, h2⟩ := bind_ok h
  cases h2
  exact local_trans (local_operand h1) (local_commitByte _ _ _)

theorem local_produceWord {f : Cc → Word × Cc} {d : Operand} {s t : State}
    (h : produceWord f d s = .ok t) : Local s t := by
  obtain ⟨⟨l, s1⟩, h1, h2⟩ := bind_ok h
  exact local_trans (local_operand h1) (local_commitWord h2)

theorem local_produceByte {f : Cc → Byte × Cc} {d : Operand} {s t : State}
    (h : produceByte f d s = .ok t) : Local s t := by
  obtain ⟨⟨l, s1⟩, h1, h2⟩ := bind_ok h
  cases h2
  exact local_trans (local_operand h1) (local_commitByte _ _ _)

theorem local_testWord {f : Word → Cc} {d : Operand} {s t : State}
    (h : testWord f d s = .ok t) : Local s t := by
  obtain ⟨⟨l, s1⟩, h1, h2⟩ := bind_ok h
  obtain ⟨x, _, h3⟩ := bind_ok h2
  cases h3
  exact local_trans (local_operand h1) (local_setCc _ _)

theorem local_testByte {f : Byte → Cc} {d : Operand} {s t : State}
    (h : testByte f d s = .ok t) : Local s t := by
  obtain ⟨⟨l, s1⟩, h1, h2⟩ := bind_ok h
  cases h2
  exact local_trans (local_operand h1) (local_setCc _ _)

theorem local_combineWord {f : Cc → Word → Word → Word × Cc} {src dst : Operand} {s t : State}
    (h : combineWord f src dst s = .ok t) : Local s t := by
  obtain ⟨⟨x, s1⟩, h1, h2⟩ := bind_ok h
  exact local_trans (local_sourceWord h1) (local_modifyWord h2)

theorem local_combineByte {f : Cc → Byte → Byte → Byte × Cc} {src dst : Operand} {s t : State}
    (h : combineByte f src dst s = .ok t) : Local s t := by
  obtain ⟨⟨x, s1⟩, h1, h2⟩ := bind_ok h
  exact local_trans (local_sourceByte h1) (local_modifyByte h2)

theorem local_compareWord {f : Cc → Word → Word → Cc} {src dst : Operand} {s t : State}
    (h : compareWord f src dst s = .ok t) : Local s t := by
  obtain ⟨⟨x, s1⟩, h1, h2⟩ := bind_ok h
  obtain ⟨⟨y, s2⟩, h3, h4⟩ := bind_ok h2
  cases h4
  exact local_trans (local_sourceWord h1) (local_trans (local_sourceWord h3) (local_setCc _ _))

theorem local_compareByte {f : Cc → Byte → Byte → Cc} {src dst : Operand} {s t : State}
    (h : compareByte f src dst s = .ok t) : Local s t := by
  obtain ⟨⟨x, s1⟩, h1, h2⟩ := bind_ok h
  obtain ⟨⟨y, s2⟩, h3, h4⟩ := bind_ok h2
  cases h4
  exact local_trans (local_sourceByte h1) (local_trans (local_sourceByte h3) (local_setCc _ _))

theorem local_setPair (r : Reg) (v : Long) (s : State) : Local s (setPair r v s) :=
  local_trans (local_set s r _) (local_set _ _ _)

theorem local_push {v : Word} {s t : State} (h : push v s = .ok t) : Local s t :=
  local_trans (local_set s .sp _) (local_writeWord h)

theorem local_pop {v : Word} {s s1 : State} (h : pop s = .ok (v, s1)) : Local s s1 := by
  rw [(pop_ok h).2.2]; exact local_set s .sp _

theorem local_fetch {w : Word} {s s1 : State} (h : fetch s = .ok (w, s1)) : Local s s1 := by
  rw [(fetch_ok h).2.2]; exact local_set s .pc _

theorem local_enter {vec : Word} {s t : State} (h : enter vec s = .ok t) : Local s t := by
  obtain ⟨s1, h1, h2⟩ := bind_ok h
  obtain ⟨s2, h3, h4⟩ := bind_ok h2
  obtain ⟨v, _, h6⟩ := bind_ok h4
  obtain ⟨w, _, h8⟩ := bind_ok h6
  cases h8
  refine local_trans (local_free s _) (local_trans (local_push h1) (local_trans (local_push h3) ?_))
  exact ⟨rfl, rfl, rfl, rfl, rfl, rfl, .inr rfl, id, fun _ h => by cases h⟩

theorem local_raiseTrap {k : Trap} {s t : State} (h : raiseTrap k s = .ok t) : Local s t :=
  local_enter h

theorem local_return {s t : State} (h : returnFromInterrupt s = .ok t) : Local s t := by
  obtain ⟨⟨p, s1⟩, h1, h2⟩ := bind_ok h
  obtain ⟨⟨q, s2⟩, h3, h4⟩ := bind_ok h2
  cases h4
  exact local_trans (local_pop h1) (local_trans (local_set _ _ _)
    (local_trans (local_pop h3) (local_writePsw _ _)))

theorem local_illegalOpcode {s t : State} (h : illegalOpcode s = .ok t) : Local s t := by
  unfold illegalOpcode at h
  split at h
  · exact local_enter h
  · cases h; exact local_refl s

theorem local_branchIf (c : Bool) (x : BitVec 8) (s : State) : Local s (branchIf c x s) := by
  unfold branchIf
  split
  · exact local_set s .pc _
  · exact local_refl s

theorem local_operateCc (set n z v c : Bool) (s : State) : Local s (operateCc set n z v c s) :=
  local_setCc s _

/-! ## The operations that do touch one of them -/

/-- Everything a request's service can do to them: only latch `k` changes. -/
theorem serveIrq_ok {k : Irq} {s t : State} (h : serveIrq k s = .ok t) :
    ∃ u, Local s u ∧ t = { u with irq := u.irq.set k false } := by
  obtain ⟨u, h1, h2⟩ := bind_ok h
  cases h2
  exact ⟨u, local_enter h1, rfl⟩

/-- Everything the end-of-instruction check can do to them: the trace inhibit is consumed, and at
most one latch is cleared. -/
theorem endCheck_ok {s t : State} (h : endCheck s = .ok t) :
    ∃ u, Local { s with tinh := false } u ∧ (t = u ∨ ∃ k, t = { u with irq := u.irq.set k false }) := by
  unfold endCheck at h
  simp only at h
  split at h
  · split at h
    · exact ⟨t, local_raiseTrap h, .inl rfl⟩
    · cases h; exact ⟨_, local_refl _, .inl rfl⟩
  · next k _ =>
    split at h
    · exact ⟨t, local_raiseTrap h, .inl rfl⟩
    · obtain ⟨u, h1, h2⟩ := serveIrq_ok h
      exact ⟨u, h1, .inr ⟨k, h2⟩⟩

theorem waitStep_ok {s t : State} (h : waitStep s = .ok t) :
    ∃ u, Local s u ∧ (t = u ∨ ∃ k, t = { u with irq := u.irq.set k false }) := by
  unfold waitStep at h
  split at h
  · next k _ =>
    obtain ⟨u, h1, h2⟩ := serveIrq_ok h
    exact ⟨u, h1, .inr ⟨k, h2⟩⟩
  · cases h; exact ⟨_, local_refl _, .inl rfl⟩

/-- An I/O write changes the peripherals and nothing else. -/
theorem ioWrite_ok {a : Byte} {v : Word} {s t : State} (h : ioWrite a v s = .ok t) :
    ∃ io, t = s.setIo io := by
  unfold ioWrite at h
  split at h
  all_goals first
    | (cases h; exact ⟨_, rfl⟩)
    | (split at h
       · cases h
       · cases h; exact ⟨_, rfl⟩)

end Sys2Proof.Machine
end

