-- ==== Sys2Proof/Laws/PerInstr.lean ====
section
/-! SUPPORT. Per-instruction lemmas. `RowBits`: under the mask of its row of spec/opcode_table.json the
encoded word of an instruction is the row's match (30_encoding.md R82 to R94). -/

namespace Sys2Proof.Laws

open Sys2Proof

/-- The mask of an instruction's row (R82 to R87). -/
def rowMask : Instr → Word
  | .clr _ => 0xFFC0
  | .clrb _ => 0xFFC0
  | .com _ => 0xFFC0
  | .comb _ => 0xFFC0
  | .inc _ => 0xFFC0
  | .incb _ => 0xFFC0
  | .dec _ => 0xFFC0
  | .decb _ => 0xFFC0
  | .neg _ => 0xFFC0
  | .negb _ => 0xFFC0
  | .adc _ => 0xFFC0
  | .adcb _ => 0xFFC0
  | .sbc _ => 0xFFC0
  | .sbcb _ => 0xFFC0
  | .tst _ => 0xFFC0
  | .tstb _ => 0xFFC0
  | .ror _ => 0xFFC0
  | .rorb _ => 0xFFC0
  | .rol _ => 0xFFC0
  | .rolb _ => 0xFFC0
  | .asr _ => 0xFFC0
  | .asrb _ => 0xFFC0
  | .asl _ => 0xFFC0
  | .aslb _ => 0xFFC0
  | .swab _ => 0xFFC0
  | .sxt _ => 0xFFC0
  | .mov _ _ => 0xF000
  | .movb _ _ => 0xF000
  | .cmp _ _ => 0xF000
  | .cmpb _ _ => 0xF000
  | .bit _ _ => 0xF000
  | .bitb _ _ => 0xF000
  | .bic _ _ => 0xF000
  | .bicb _ _ => 0xF000
  | .bis _ _ => 0xF000
  | .bisb _ _ => 0xF000
  | .add _ _ => 0xF000
  | .sub _ _ => 0xF000
  | .mul _ _ => 0xFE00
  | .div _ _ => 0xFE00
  | .ash _ _ => 0xFE00
  | .ashc _ _ => 0xFE00
  | .xor _ _ => 0xFE00
  | .br _ => 0xFF00
  | .bne _ => 0xFF00
  | .beq _ => 0xFF00
  | .bge _ => 0xFF00
  | .blt _ => 0xFF00
  | .bgt _ => 0xFF00
  | .ble _ => 0xFF00
  | .bpl _ => 0xFF00
  | .bmi _ => 0xFF00
  | .bhi _ => 0xFF00
  | .blos _ => 0xFF00
  | .bvc _ => 0xFF00
  | .bvs _ => 0xFF00
  | .bcc _ => 0xFF00
  | .bcs _ => 0xFF00
  | .jmp _ => 0xFFC0
  | .jsr _ _ => 0xFE00
  | .rts _ => 0xFFF8
  | .mark _ => 0xFFC0
  | .sob _ _ => 0xFE00
  | .emt _ => 0xFF00
  | .trap _ => 0xFF00
  | .halt => 0xFFFF
  | .wait => 0xFFFF
  | .rti => 0xFFFF
  | .bpt => 0xFFFF
  | .iot => 0xFFFF
  | .reset => 0xFFFF
  | .rtt => 0xFFFF
  | .mftp => 0xFFFF
  | .mtps _ => 0xFFC0
  | .mfps _ => 0xFFC0
  | .svb => 0xFFFF
  | .trace => 0xFFFF
  | .ior _ _ => 0xFE00
  | .iow _ _ => 0xFE00
  | .ccop _ _ _ _ _ => 0xFFE0
  | .clc => 0xFFFF
  | .clv => 0xFFFF
  | .clz => 0xFFFF
  | .cln => 0xFFFF
  | .ccc => 0xFFFF
  | .sec => 0xFFFF
  | .sev => 0xFFFF
  | .sez => 0xFFFF
  | .sen => 0xFFFF
  | .scc => 0xFFFF
  | .nop => 0xFFFF

/-- The match of an instruction's row (R89 to R94), the four OPEN ones from the parameters. -/
def rowMatch (e : Encodings) : Instr → Word
  | .clr _ => 0x0A00
  | .clrb _ => 0x8A00
  | .com _ => 0x0A40
  | .comb _ => 0x8A40
  | .inc _ => 0x0A80
  | .incb _ => 0x8A80
  | .dec _ => 0x0AC0
  | .decb _ => 0x8AC0
  | .neg _ => 0x0B00
  | .negb _ => 0x8B00
  | .adc _ => 0x0B40
  | .adcb _ => 0x8B40
  | .sbc _ => 0x0B80
  | .sbcb _ => 0x8B80
  | .tst _ => 0x0BC0
  | .tstb _ => 0x8BC0
  | .ror _ => 0x0C00
  | .rorb _ => 0x8C00
  | .rol _ => 0x0C40
  | .rolb _ => 0x8C40
  | .asr _ => 0x0C80
  | .asrb _ => 0x8C80
  | .asl _ => 0x0CC0
  | .aslb _ => 0x8CC0
  | .swab _ => 0x00C0
  | .sxt _ => 0x0DC0
  | .mov _ _ => 0x1000
  | .movb _ _ => 0x9000
  | .cmp _ _ => 0x2000
  | .cmpb _ _ => 0xA000
  | .bit _ _ => 0x3000
  | .bitb _ _ => 0xB000
  | .bic _ _ => 0x4000
  | .bicb _ _ => 0xC000
  | .bis _ _ => 0x5000
  | .bisb _ _ => 0xD000
  | .add _ _ => 0x6000
  | .sub _ _ => 0xE000
  | .mul _ _ => 0x7000
  | .div _ _ => 0x7200
  | .ash _ _ => 0x7400
  | .ashc _ _ => 0x7600
  | .xor _ _ => 0x7800
  | .br _ => 0x0100
  | .bne _ => 0x0200
  | .beq _ => 0x0300
  | .bge _ => 0x0400
  | .blt _ => 0x0500
  | .bgt _ => 0x0600
  | .ble _ => 0x0700
  | .bpl _ => 0x8000
  | .bmi _ => 0x8100
  | .bhi _ => 0x8200
  | .blos _ => 0x8300
  | .bvc _ => 0x8400
  | .bvs _ => 0x8500
  | .bcc _ => 0x8600
  | .bcs _ => 0x8700
  | .jmp _ => 0x0040
  | .jsr _ _ => 0x0800
  | .rts _ => 0x0080
  | .mark _ => 0x0D00
  | .sob _ _ => 0x7E00
  | .emt _ => 0x8800
  | .trap _ => 0x8900
  | .halt => 0x0000
  | .wait => 0x0001
  | .rti => 0x0002
  | .bpt => 0x0003
  | .iot => 0x0004
  | .reset => 0x0005
  | .rtt => 0x0006
  | .mftp => 0x0007
  | .mtps _ => 0x8D00
  | .mfps _ => 0x8DC0
  | .svb => e.svb
  | .trace => e.trace
  | .ior _ _ => e.ior ++ 0#9
  | .iow _ _ => e.iow ++ 0#9
  | .ccop _ _ _ _ _ => 0x00A0
  | .clc => 0x00A1
  | .clv => 0x00A2
  | .clz => 0x00A4
  | .cln => 0x00A8
  | .ccc => 0x00AF
  | .sec => 0x00B1
  | .sev => 0x00B2
  | .sez => 0x00B4
  | .sen => 0x00B8
  | .scc => 0x00BF
  | .nop => 0x00A0

namespace RowBits

/-- The fixed bits of the encoded word are the row's. -/
def Statement (i : Instr) : Prop :=
  ∀ e : Encodings, encode e i &&& rowMask i = rowMatch e i

/-- The bits of the upper part alone survive a mask of ones above zeros. -/
theorem mask_append {n m : Nat} (x : BitVec n) (y : BitVec m) :
    (x ++ y) &&& (BitVec.allOnes n ++ 0#m) = x ++ 0#m := by
  ext i hi
  rw [BitVec.getElem_and, BitVec.getElem_append, BitVec.getElem_append, BitVec.getElem_append]
  split <;> simp

theorem so_row (op : BitVec 10) (d : Operand) : encodeSo op d &&& 0xFFC0 = op ++ 0#6 :=
  mask_append op d.bits

theorem mk_row (op : BitVec 10) (n : BitVec 6) : encodeMk op n &&& 0xFFC0 = op ++ 0#6 :=
  mask_append op n

theorem br_row (op x : BitVec 8) : encodeBr op x &&& 0xFF00 = op ++ 0#8 :=
  mask_append op x

theorem rg_row (op : BitVec 13) (r : Reg) : encodeRg op r &&& 0xFFF8 = op ++ 0#3 :=
  mask_append op r.bits

theorem cc_row (set n z v c : Bool) : encodeCc set n z v c &&& 0xFFE0 = 0x00A0 := by
  cases set <;> cases n <;> cases z <;> cases v <;> cases c <;> decide

/-- Two lower parts joined are one lower part. -/
theorem append_mask {n m k : Nat} (x : BitVec n) (y : BitVec m) (z : BitVec k) (i : Nat) :
    ((x ++ y ++ z).getLsbD i && (BitVec.allOnes n ++ 0#(m + k)).getLsbD i) =
      (x ++ 0#(m + k)).getLsbD i := by
  simp only [BitVec.getLsbD_append, BitVec.getLsbD_allOnes, BitVec.getLsbD_zero]
  by_cases h1 : i < m + k
  · simp [h1]
  · have h2 : ¬ i < k := by omega
    have h3 : ¬ i - k < m := by omega
    have h4 : i - k - m = i - (m + k) := by omega
    simp only [h1, h2, h3, h4, if_false]
    by_cases h5 : i - (m + k) < n
    · simp [h5]
    · have := BitVec.getLsbD_of_ge x (i - (m + k)) (by omega)
      simp [this]

theorem ro_row (op : BitVec 7) (r : Reg) (d : Operand) :
    encodeRo op r d &&& 0xFE00 = op ++ 0#9 := by
  apply BitVec.eq_of_getLsbD_eq
  intro i _
  rw [BitVec.getLsbD_and]
  exact append_mask op r.bits d.bits i

theorem sb_row (op : BitVec 7) (r : Reg) (x : BitVec 6) :
    encodeSb op r x &&& 0xFE00 = op ++ 0#9 := by
  apply BitVec.eq_of_getLsbD_eq
  intro i _
  rw [BitVec.getLsbD_and]
  exact append_mask op r.bits x i

theorem do_row (op : BitVec 4) (s d : Operand) : encodeDo op s d &&& 0xF000 = op ++ 0#12 := by
  apply BitVec.eq_of_getLsbD_eq
  intro i _
  rw [BitVec.getLsbD_and]
  exact append_mask op s.bits d.bits i

theorem clr (d : Operand) : Statement (.clr d) :=
  fun _ => so_row 0x028 d

theorem clrb (d : Operand) : Statement (.clrb d) :=
  fun _ => so_row 0x228 d

theorem com (d : Operand) : Statement (.com d) :=
  fun _ => so_row 0x029 d

theorem comb (d : Operand) : Statement (.comb d) :=
  fun _ => so_row 0x229 d

theorem inc (d : Operand) : Statement (.inc d) :=
  fun _ => so_row 0x02A d

theorem incb (d : Operand) : Statement (.incb d) :=
  fun _ => so_row 0x22A d

theorem dec (d : Operand) : Statement (.dec d) :=
  fun _ => so_row 0x02B d

theorem decb (d : Operand) : Statement (.decb d) :=
  fun _ => so_row 0x22B d

theorem neg (d : Operand) : Statement (.neg d) :=
  fun _ => so_row 0x02C d

theorem negb (d : Operand) : Statement (.negb d) :=
  fun _ => so_row 0x22C d

theorem adc (d : Operand) : Statement (.adc d) :=
  fun _ => so_row 0x02D d

theorem adcb (d : Operand) : Statement (.adcb d) :=
  fun _ => so_row 0x22D d

theorem sbc (d : Operand) : Statement (.sbc d) :=
  fun _ => so_row 0x02E d

theorem sbcb (d : Operand) : Statement (.sbcb d) :=
  fun _ => so_row 0x22E d

theorem tst (d : Operand) : Statement (.tst d) :=
  fun _ => so_row 0x02F d

theorem tstb (d : Operand) : Statement (.tstb d) :=
  fun _ => so_row 0x22F d

theorem ror (d : Operand) : Statement (.ror d) :=
  fun _ => so_row 0x030 d

theorem rorb (d : Operand) : Statement (.rorb d) :=
  fun _ => so_row 0x230 d

theorem rol (d : Operand) : Statement (.rol d) :=
  fun _ => so_row 0x031 d

theorem rolb (d : Operand) : Statement (.rolb d) :=
  fun _ => so_row 0x231 d

theorem asr (d : Operand) : Statement (.asr d) :=
  fun _ => so_row 0x032 d

theorem asrb (d : Operand) : Statement (.asrb d) :=
  fun _ => so_row 0x232 d

theorem asl (d : Operand) : Statement (.asl d) :=
  fun _ => so_row 0x033 d

theorem aslb (d : Operand) : Statement (.aslb d) :=
  fun _ => so_row 0x233 d

theorem swab (d : Operand) : Statement (.swab d) :=
  fun _ => so_row 0x003 d

theorem sxt (d : Operand) : Statement (.sxt d) :=
  fun _ => so_row 0x037 d

theorem mov (s : Operand) (d : Operand) : Statement (.mov s d) :=
  fun _ => do_row 0x1 s d

theorem movb (s : Operand) (d : Operand) : Statement (.movb s d) :=
  fun _ => do_row 0x9 s d

theorem cmp (s : Operand) (d : Operand) : Statement (.cmp s d) :=
  fun _ => do_row 0x2 s d

theorem cmpb (s : Operand) (d : Operand) : Statement (.cmpb s d) :=
  fun _ => do_row 0xA s d

theorem bit (s : Operand) (d : Operand) : Statement (.bit s d) :=
  fun _ => do_row 0x3 s d

theorem bitb (s : Operand) (d : Operand) : Statement (.bitb s d) :=
  fun _ => do_row 0xB s d

theorem bic (s : Operand) (d : Operand) : Statement (.bic s d) :=
  fun _ => do_row 0x4 s d

theorem bicb (s : Operand) (d : Operand) : Statement (.bicb s d) :=
  fun _ => do_row 0xC s d

theorem bis (s : Operand) (d : Operand) : Statement (.bis s d) :=
  fun _ => do_row 0x5 s d

theorem bisb (s : Operand) (d : Operand) : Statement (.bisb s d) :=
  fun _ => do_row 0xD s d

theorem add (s : Operand) (d : Operand) : Statement (.add s d) :=
  fun _ => do_row 0x6 s d

theorem sub (s : Operand) (d : Operand) : Statement (.sub s d) :=
  fun _ => do_row 0xE s d

theorem mul (r : Reg) (s : Operand) : Statement (.mul r s) :=
  fun _ => ro_row 0x38 r s

theorem div (r : Reg) (s : Operand) : Statement (.div r s) :=
  fun _ => ro_row 0x39 r s

theorem ash (r : Reg) (s : Operand) : Statement (.ash r s) :=
  fun _ => ro_row 0x3A r s

theorem ashc (r : Reg) (s : Operand) : Statement (.ashc r s) :=
  fun _ => ro_row 0x3B r s

theorem xor (r : Reg) (d : Operand) : Statement (.xor r d) :=
  fun _ => ro_row 0x3C r d

theorem br (x : BitVec 8) : Statement (.br x) :=
  fun _ => br_row 0x01 x

theorem bne (x : BitVec 8) : Statement (.bne x) :=
  fun _ => br_row 0x02 x

theorem beq (x : BitVec 8) : Statement (.beq x) :=
  fun _ => br_row 0x03 x

theorem bge (x : BitVec 8) : Statement (.bge x) :=
  fun _ => br_row 0x04 x

theorem blt (x : BitVec 8) : Statement (.blt x) :=
  fun _ => br_row 0x05 x

theorem bgt (x : BitVec 8) : Statement (.bgt x) :=
  fun _ => br_row 0x06 x

theorem ble (x : BitVec 8) : Statement (.ble x) :=
  fun _ => br_row 0x07 x

theorem bpl (x : BitVec 8) : Statement (.bpl x) :=
  fun _ => br_row 0x80 x

theorem bmi (x : BitVec 8) : Statement (.bmi x) :=
  fun _ => br_row 0x81 x

theorem bhi (x : BitVec 8) : Statement (.bhi x) :=
  fun _ => br_row 0x82 x

theorem blos (x : BitVec 8) : Statement (.blos x) :=
  fun _ => br_row 0x83 x

theorem bvc (x : BitVec 8) : Statement (.bvc x) :=
  fun _ => br_row 0x84 x

theorem bvs (x : BitVec 8) : Statement (.bvs x) :=
  fun _ => br_row 0x85 x

theorem bcc (x : BitVec 8) : Statement (.bcc x) :=
  fun _ => br_row 0x86 x

theorem bcs (x : BitVec 8) : Statement (.bcs x) :=
  fun _ => br_row 0x87 x

theorem jmp (d : Operand) : Statement (.jmp d) :=
  fun _ => so_row 0x001 d

theorem jsr (r : Reg) (d : Operand) : Statement (.jsr r d) :=
  fun _ => ro_row 0x04 r d

theorem rts (r : Reg) : Statement (.rts r) :=
  fun _ => rg_row 0x010 r

theorem mark (n : BitVec 6) : Statement (.mark n) :=
  fun _ => mk_row 0x034 n

theorem sob (r : Reg) (x : BitVec 6) : Statement (.sob r x) :=
  fun _ => sb_row 0x3F r x

theorem emt (x : BitVec 8) : Statement (.emt x) :=
  fun _ => br_row 0x88 x

theorem trap (x : BitVec 8) : Statement (.trap x) :=
  fun _ => br_row 0x89 x

theorem halt : Statement .halt :=
  fun _ => BitVec.and_allOnes

theorem wait : Statement .wait :=
  fun _ => BitVec.and_allOnes

theorem rti : Statement .rti :=
  fun _ => BitVec.and_allOnes

theorem bpt : Statement .bpt :=
  fun _ => BitVec.and_allOnes

theorem iot : Statement .iot :=
  fun _ => BitVec.and_allOnes

theorem reset : Statement .reset :=
  fun _ => BitVec.and_allOnes

theorem rtt : Statement .rtt :=
  fun _ => BitVec.and_allOnes

theorem mftp : Statement .mftp :=
  fun _ => BitVec.and_allOnes

theorem mtps (s : Operand) : Statement (.mtps s) :=
  fun _ => so_row 0x234 s

theorem mfps (d : Operand) : Statement (.mfps d) :=
  fun _ => so_row 0x237 d

theorem svb : Statement .svb :=
  fun _ => BitVec.and_allOnes

theorem trace : Statement .trace :=
  fun _ => BitVec.and_allOnes

theorem ior (r : Reg) (d : Operand) : Statement (.ior r d) :=
  fun e => ro_row e.ior r d

theorem iow (r : Reg) (s : Operand) : Statement (.iow r s) :=
  fun e => ro_row e.iow r s

theorem ccop (set n z v c : Bool) : Statement (.ccop set n z v c) :=
  fun _ => cc_row set n z v c

theorem clc : Statement .clc :=
  fun _ => BitVec.and_allOnes

theorem clv : Statement .clv :=
  fun _ => BitVec.and_allOnes

theorem clz : Statement .clz :=
  fun _ => BitVec.and_allOnes

theorem cln : Statement .cln :=
  fun _ => BitVec.and_allOnes

theorem ccc : Statement .ccc :=
  fun _ => BitVec.and_allOnes

theorem sec : Statement .sec :=
  fun _ => BitVec.and_allOnes

theorem sev : Statement .sev :=
  fun _ => BitVec.and_allOnes

theorem sez : Statement .sez :=
  fun _ => BitVec.and_allOnes

theorem sen : Statement .sen :=
  fun _ => BitVec.and_allOnes

theorem scc : Statement .scc :=
  fun _ => BitVec.and_allOnes

theorem nop : Statement .nop :=
  fun _ => BitVec.and_allOnes

end RowBits

end Sys2Proof.Laws
end

