-- ==== Sys2Proof/Laws/Peripherals.lean ====
section
/-! SUPPORT. What the events of the peripherals and the host's reset change, each said once, and that
every one of them keeps the registers of unstated width inside their width. -/

namespace Sys2Proof.Machine

open Sys2Proof Sys2Proof.Safety

/-! ## Widths -/

theorem fits_lowBits (n : Nat) (v : Word) : Fits n (lowBits n v) := by
  unfold Fits lowBits
  have h1 : (v &&& BitVec.ofNat 16 (2 ^ n - 1)).toNat ≤ (2 ^ n - 1) % 2 ^ 16 := by
    rw [BitVec.toNat_and, BitVec.toNat_ofNat]
    exact Nat.and_le_right
  have h2 := Nat.mod_le (2 ^ n - 1) (2 ^ 16)
  have h3 : 0 < 2 ^ n := Nat.two_pow_pos n
  omega

/-- The four registers of unstated width hold nothing above it. -/
def IoFits (w : Widths) (io : Periph) : Prop :=
  Fits w.t0pre io.t0.pre ∧ Fits w.t1pre io.t1.pre ∧ Fits w.sdiv io.sdiv ∧ Fits w.udiv io.udiv

theorem ioWrite_fits {a : Byte} {v : Word} {s t : State} (h : ioWrite a v s = .ok t)
    (hf : IoFits s.cfg.widths s.io) : IoFits s.cfg.widths t.io := by
  obtain ⟨h0, h1, h2, h3⟩ := hf
  unfold ioWrite at h
  split at h
  all_goals first
    | (cases h; exact ⟨h0, h1, h2, h3⟩)
    | (cases h; exact ⟨fits_lowBits _ _, h1, h2, h3⟩)
    | (cases h; exact ⟨h0, fits_lowBits _ _, h2, h3⟩)
    | (cases h; exact ⟨h0, h1, fits_lowBits _ _, h3⟩)
    | (cases h; exact ⟨h0, h1, h2, fits_lowBits _ _⟩)
    | (split at h
       · cases h
       · cases h; exact ⟨h0, h1, h2, h3⟩)

/-! ## Timers -/

@[simp] theorem timer_setTimer (io : Periph) (t u : Timer) (r : TimerRegs) :
    (io.setTimer t r).timer u = if u = t then r else io.timer u := by
  cases t <;> cases u <;> rfl

/-- From `s` to `t` CPU clock periods have passed: only TMRn, the prescaler counters, the requests of the
timers and the counters of an SPI transfer have changed, the latches only upward. -/
structure Clocked (s t : State) : Prop where
  eq : t = { s with io := t.io, irq := t.irq }
  io : t.io = { s.io with
    t0 := t.io.t0, t1 := t.io.t1, spiDiv := t.io.spiDiv, spiBits := t.io.spiBits }
  pre : ∀ n, (t.io.timer n).pre = (s.io.timer n).pre
  top : ∀ n, (t.io.timer n).top = (s.io.timer n).top
  latches : ∀ k, s.irq.get k = true → t.irq.get k = true
  others : ∀ k, k ≠ .irq1 → k ≠ .irq5 → t.irq.get k = s.irq.get k

theorem clocked_refl (s : State) : Clocked s s :=
  ⟨rfl, rfl, fun _ => rfl, fun _ => rfl, fun _ => id, fun _ _ _ => rfl⟩

theorem clocked_trans {s t u : State} (a : Clocked s t) (b : Clocked t u) : Clocked s u where
  eq := by rw [b.eq, a.eq]
  io := by rw [b.io, a.io]
  pre n := (b.pre n).trans (a.pre n)
  top n := (b.top n).trans (a.top n)
  latches k h := b.latches k (a.latches k h)
  others k h1 h5 := (b.others k h1 h5).trans (a.others k h1 h5)

theorem clocked_setTimer (s : State) (n : Timer) (r : TimerRegs) (hp : r.pre = (s.io.timer n).pre)
    (ht : r.top = (s.io.timer n).top) : Clocked s (s.setIo (s.io.setTimer n r)) where
  eq := rfl
  io := by cases n <;> rfl
  pre m := by rw [setIo_io, timer_setTimer]; split <;> simp_all
  top m := by rw [setIo_io, timer_setTimer]; split <;> simp_all
  latches _ := id
  others _ _ _ := rfl

theorem clocked_latch (s : State) (n : Timer) : Clocked s (s.latchIrq n.irq) where
  eq := rfl
  io := rfl
  pre _ := rfl
  top _ := rfl
  latches k h := by simp [h]
  others k h1 h5 := by cases n <;> simp [Timer.irq, h1, h5]

theorem timerTick_clocked (n : Timer) (s : State) : Clocked s (timerTick n s) := by
  unfold timerTick
  simp only
  split
  · split
    · exact clocked_trans
        (clocked_setTimer s n { s.io.timer n with count := 0, presc := 0 } rfl rfl)
        (clocked_latch _ n)
    · exact clocked_setTimer s n _ rfl rfl
  · exact clocked_setTimer s n _ rfl rfl

theorem prescale_clocked (n : Timer) (s : State) : Clocked s (prescale n s) := by
  unfold prescale
  simp only
  split
  · exact timerTick_clocked n s
  · exact clocked_setTimer s n _ rfl rfl

@[simp] theorem spiClock_timer (io : Periph) (n : Timer) : (spiClock io).timer n = io.timer n := by
  unfold spiClock; split
  · split <;> cases n <;> rfl
  · rfl

/-- A clock period of the SPI port changes the two counters of its transfer and nothing else. -/
theorem spiClock_io (io : Periph) :
    spiClock io = { io with spiDiv := (spiClock io).spiDiv, spiBits := (spiClock io).spiBits } := by
  unfold spiClock; split
  · split <;> rfl
  · rfl

theorem clocked_spiClock (s : State) : Clocked s (s.setIo (spiClock s.io)) where
  eq := rfl
  io := by rw [setIo_io, spiClock_io]
  pre n := by rw [setIo_io, spiClock_timer]
  top n := by rw [setIo_io, spiClock_timer]
  latches _ := id
  others _ _ _ := rfl

theorem clockTick_clocked (s : State) : Clocked s (clockTick s) :=
  clocked_trans (clocked_trans (prescale_clocked .timer0 s) (prescale_clocked .timer1 _))
    (clocked_spiClock _)

/-- The SPI counters advance whatever the timers do. -/
theorem clockTick_spi (s : State) :
    (clockTick s).io.spiDiv = (spiClock s.io).spiDiv ∧
      (clockTick s).io.spiBits = (spiClock s.io).spiBits := by
  have h (n : Timer) (u : State) : (prescale n u).io.spiDiv = u.io.spiDiv ∧
      (prescale n u).io.spiBits = u.io.spiBits ∧ (prescale n u).io.sbys = u.io.sbys ∧
      (prescale n u).io.sdiv = u.io.sdiv := by
    unfold prescale timerTick
    simp only
    split
    · split
      · split <;> cases n <;> exact ⟨rfl, rfl, rfl, rfl⟩
      · cases n <;> exact ⟨rfl, rfl, rfl, rfl⟩
    · cases n <;> exact ⟨rfl, rfl, rfl, rfl⟩
  obtain ⟨a1, a2, a3, a4⟩ := h .timer0 s
  obtain ⟨b1, b2, b3, b4⟩ := h .timer1 (prescale .timer0 s)
  unfold clockTick spiClock
  simp only [setIo_io, b1, b2, b3, b4, a1, a2, a3, a4]
  split
  · split
    · exact ⟨rfl, rfl⟩
    · exact ⟨rfl, rfl⟩
  · exact ⟨b1.trans a1, b2.trans a2⟩

theorem timerEnabled_eq {io jo : Periph} (n : Timer) (h : jo.tint = io.tint) :
    n.enabled jo = n.enabled io := by
  cases n <;> simp only [Timer.enabled, h]

/-- What a tick leaves in a timer and its latch (R363, R364). -/
theorem timerTick_timer (n : Timer) (s : State) :
    (timerTick n s).io.timer n =
      { s.io.timer n with
        count := if (s.io.timer n).top ≤ (s.io.timer n).count then 0 else (s.io.timer n).count + 1,
        presc := 0 } ∧
    (timerTick n s).irq.get n.irq =
      (s.irq.get n.irq ||
        decide ((s.io.timer n).top ≤ (s.io.timer n).count) && n.enabled s.io) := by
  unfold timerTick
  simp only
  split
  · next h => split <;> next e => simp [h, e]
  · next h => simp [h]

/-- A clock period before the last one of a timer only counts its prescaler up (R361, log 8). -/
theorem prescale_counts {n : Timer} {s : State}
    (h : (s.io.timer n).presc.toNat + 1 < max (s.io.timer n).pre.toNat 1) :
    prescale n s =
      s.setIo (s.io.setTimer n { s.io.timer n with presc := (s.io.timer n).presc + 1 }) := by
  unfold prescale
  simp only [Nat.not_le.mpr h, if_false]

/-- The last clock period of a timer is its tick (R361, log 8). -/
theorem prescale_expires {n : Timer} {s : State}
    (h : max (s.io.timer n).pre.toNat 1 ≤ (s.io.timer n).presc.toNat + 1) :
    prescale n s = timerTick n s := by
  unfold prescale
  simp only [h, if_true]

/-- The prescaler of one timer touches neither the other timer nor the other's latch. -/
theorem prescale_other {n m : Timer} (h : m ≠ n) (s : State) :
    (prescale n s).io.timer m = s.io.timer m ∧ (prescale n s).irq.get m.irq = s.irq.get m.irq := by
  have hi : m.irq ≠ n.irq := by cases n <;> cases m <;> simp_all [Timer.irq]
  unfold prescale timerTick
  simp only
  split
  · split
    · split <;> simp [h, hi]
    · simp [h]
  · simp [h]

/-- A clock period of the machine does to a timer and its latch what the timer's own prescaler does,
whatever the other timer does. -/
theorem clockTick_timer (n : Timer) (s : State) :
    (clockTick s).io.timer n = (prescale n s).io.timer n ∧
      (clockTick s).irq.get n.irq = (prescale n s).irq.get n.irq := by
  unfold clockTick
  simp only [setIo_io, setIo_irq, spiClock_timer]
  cases n with
  | timer0 => exact prescale_other (by decide) _
  | timer1 =>
    obtain ⟨ht, hl⟩ := prescale_other (n := .timer0) (m := .timer1) (by decide) s
    have he := timerEnabled_eq .timer1 (congrArg Periph.tint (prescale_clocked .timer0 s).io)
    by_cases h : (s.io.timer .timer1).presc.toNat + 1 < max (s.io.timer .timer1).pre.toNat 1
    · rw [prescale_counts h, prescale_counts (by rw [ht]; exact h)]
      simp [ht, hl]
    · have h' := Nat.le_of_not_lt h
      rw [prescale_expires h', prescale_expires (by rw [ht]; exact h'),
        (timerTick_timer _ _).1, (timerTick_timer _ _).2, (timerTick_timer _ _).1,
        (timerTick_timer _ _).2, ht, hl, he]
      exact ⟨rfl, rfl⟩

/-- The moves to come play no part in a clock period. -/
theorem prescale_script (n : Timer) (s : State) (l : List Event) :
    prescale n { s with script := l } = { prescale n s with script := l } := by
  unfold prescale timerTick
  simp only
  split
  · split
    · split <;> rfl
    · rfl
  · rfl

theorem clockTick_script (s : State) (l : List Event) :
    clockTick { s with script := l } = { clockTick s with script := l } := by
  unfold clockTick
  rw [prescale_script .timer0 s l, prescale_script .timer1 (prescale .timer0 s) l]
  rfl

/-! ## Events -/

/-- From `s` to `t` a peripheral event has happened: only the peripherals and the latches have
changed, and latches only upward. -/
structure Peripheral (s t : State) : Prop where
  eq : t = { s with io := t.io, irq := t.irq }
  latches : ∀ k, s.irq.get k = true → t.irq.get k = true
  fits : IoFits s.cfg.widths s.io → IoFits s.cfg.widths t.io

theorem peripheral_refl (s : State) : Peripheral s s := ⟨rfl, fun _ => id, id⟩

theorem peripheral_trans {s t u : State} (a : Peripheral s t) (b : Peripheral t u) :
    Peripheral s u where
  eq := by rw [b.eq, a.eq]
  latches k h := b.latches k (a.latches k h)
  fits h := by
    have e : t.cfg = s.cfg := by rw [a.eq]
    have := b.fits (by rw [e]; exact a.fits h)
    rwa [e] at this

theorem peripheral_latch (s : State) (k : Irq) : Peripheral s (s.latchIrq k) :=
  ⟨rfl, fun j h => by simp [h], id⟩

theorem peripheral_setIo (s : State) (io : Periph)
    (h : IoFits s.cfg.widths s.io → IoFits s.cfg.widths io) : Peripheral s (s.setIo io) :=
  ⟨rfl, fun _ => id, h⟩

theorem peripheral_setTimer (s : State) (t : Timer) (r : TimerRegs)
    (h : r.pre = (s.io.timer t).pre) : Peripheral s (s.setIo (s.io.setTimer t r)) := by
  refine peripheral_setIo s _ fun hf => ?_
  obtain ⟨h0, h1, h2, h3⟩ := hf
  cases t with
  | timer0 => exact ⟨by rw [show (s.io.setTimer .timer0 r).t0.pre = r.pre from rfl, h]; exact h0, h1, h2, h3⟩
  | timer1 => exact ⟨h0, by rw [show (s.io.setTimer .timer1 r).t1.pre = r.pre from rfl, h]; exact h1, h2, h3⟩

theorem peripheral_timerTick (t : Timer) (s : State) : Peripheral s (timerTick t s) := by
  unfold timerTick
  simp only
  split
  · split
    · exact peripheral_trans
        (peripheral_setTimer s t { s.io.timer t with count := 0, presc := 0 } rfl)
        (peripheral_latch _ _)
    · exact peripheral_setTimer s t _ rfl
  · exact peripheral_setTimer s t _ rfl

theorem peripheral_prescale (t : Timer) (s : State) : Peripheral s (prescale t s) := by
  unfold prescale
  simp only
  split
  · exact peripheral_timerTick t s
  · exact peripheral_setTimer s t _ rfl

theorem peripheral_pinChange (i : Fin 7) (level : Bool) (s : State) :
    Peripheral s (pinChange i level s) := by
  have h1 : Peripheral s (s.setIo { s.io with pins := setPin s.io.pins i level }) :=
    peripheral_setIo s _ id
  unfold pinChange
  simp only
  split
  · exact h1
  · split
    · exact peripheral_trans h1 (peripheral_latch _ _)
    · exact h1

/-- Every event but the host's reset changes only the peripherals and the latches. -/
theorem applyEvent_peripheral (e : Event) (s : State) (h : ∀ st, e ≠ .reset st) :
    Peripheral s (applyEvent e s) := by
  cases e with
  | cpu => exact peripheral_refl s
  | clock =>
    refine peripheral_trans (peripheral_trans (peripheral_prescale .timer0 s)
      (peripheral_prescale .timer1 _)) (peripheral_setIo _ _ fun h => ?_)
    rw [spiClock_io]; exact h
  | timerTick t => exact peripheral_timerTick t s
  | spiDone b =>
    simp only [applyEvent, spiDone]
    split
    · exact peripheral_setIo s _ id
    · exact peripheral_refl s
  | uartTxBit =>
    simp only [applyEvent, uartTxBit]
    split
    · exact peripheral_setIo s _ id
    · exact peripheral_refl s
  | uartRxBit level => exact peripheral_setIo s _ id
  | uartTxDone =>
    simp only [applyEvent, uartTxDone]
    split
    · exact peripheral_setIo s _ id
    · exact peripheral_refl s
  | uartRx b => exact peripheral_setIo s _ id
  | pinChange i level => exact peripheral_pinChange i level s
  | reset st => exact absurd rfl (h st)

/-! ## The host's reset -/

theorem hostReset_ivb (st : Settings) (s : State) : (hostReset st s).ivb &&& 0x001F = 0 := by
  show (Config.freeWord s.free &&& 0xFFE0) &&& 0x001F = 0
  rw [BitVec.and_assoc]
  exact BitVec.and_zero

theorem hostReset_fits (st : Settings) (s : State) :
    IoFits s.cfg.widths (hostReset st s).io :=
  ⟨fits_lowBits _ _, fits_lowBits _ _, fits_lowBits _ _, fits_lowBits _ _⟩

end Sys2Proof.Machine
end

