-- ==== Sys2Proof/Tests/Slice0.lean ====
section
/-! SUPPORT. Tests: the checks of WellFormed, decoding of words written out from the spec's encodings,
single steps taken from the worked vectors of spec/95_test_vectors.md (their numbers stand before
each), and for every statement with hypotheses a state and operands that meet them. -/

namespace Sys2Proof.Tests

open Sys2Proof Sys2Proof.Machine Sys2Proof.Safety

/-! ## A machine and its states -/

/-- Example values of the OPEN encodings, which meet R94. They are no claim about the AS-11. -/
def enc : Encodings :=
  { svb := 0x0010, trace := 0x0011, ior := 0x3D, iow := 0x3E }

/-- A machine with the example vectors of spec/95_test_vectors.md (T rows), given as word numbers. -/
def cfg : Config :=
  { settings := Settings.cleared, enc := enc,
    vec := { emt := 0x000C, trap := 0x000E, bpt := 0x0006, iot := 0x0008, trace := 0x0006,
             illegal := 0x0004 },
    widths := { t0pre := 16, t1pre := 16, sdiv := 16, udiv := 16 }, sw := Switches.defaults,
    div := [] }

/-- That machine with TEN = 1. -/
def cfgTen : Config := { cfg with settings := { Settings.cleared with ten := true } }

/-- Memory holding words at even addresses. -/
def words (l : List (Nat × Nat)) : Memory :=
  l.foldl (fun m p => m.putWord (BitVec.ofNat 16 p.1) (BitVec.ofNat 16 p.2)) []

/-- A state with the PC at `pc`, the given registers and PSW, the rest zero, and memory as given. -/
def machineAt (pc : Nat) (regs : List (Reg × Word)) (psw : Byte) (mem : List (Nat × Nat))
    (c : Config := cfg) : State :=
  regs.foldl (fun s p => s.set p.1 p.2)
    { State.reset.set .pc (BitVec.ofNat 16 pc) with
      psw := Psw.ofByte true psw, mem := words mem, cfg := c }

/-- What `f` sees after one step, `none` when there is no next state. -/
def after {α : Type} (s : State) (f : State → α) : Option α :=
  match step s with
  | .next t => some (f t)
  | _ => none

/-- The fault one step ends in. -/
def faultOf (s : State) : Option Fault :=
  match step s with
  | .fault f => some f
  | _ => none

/-- A register and the PSW. -/
def see (r : Reg) (t : State) : Word × Byte := (t.get r, pswByte t.psw)

/-- A word of memory and the PSW. -/
def seeAt (a : Word) (t : State) : Word × Byte := (t.mem.word a, pswByte t.psw)

/-! ## Well-formedness -/

theorem test_named_ccop_refused : (Instr.ccop true false false false true).wellFormed = false := by
  decide

theorem test_plain_ccop_accepted : (Instr.ccop false false true false true).wellFormed = true := by
  decide

theorem test_encodings_accepted : enc.ok = true := by decide

/-- One refused value for each check of R94: a word that is an instruction (SVB, TRACE), a block that
holds instructions (IOR, IOW), and each pair that shares a word. -/
theorem test_encodings_refused :
    [{ enc with svb := 0x0007 }, { enc with trace := 0x00A0 }, { enc with ior := 0x08 },
     { enc with iow := 0x3C }, { enc with trace := enc.svb }, { enc with iow := enc.ior },
     { enc with svb := 0x7A00 }, { enc with svb := 0x7C00 }, { enc with trace := 0x7BFF },
     { enc with trace := 0x7DFF }].map Encodings.ok = List.replicate 10 false := by
  decide

/-! ## Decoding (30_encoding.md R81 to R95)

Each word is written out from the format and the opcode of its row, with an underscore between fields. -/

/-- The instruction of a word. -/
def dec (w : Nat) : Option Instr :=
  match decode enc (BitVec.ofNat 16 w) with
  | .ok i => some i
  | .error _ => none

/-- 41_single_operand.md: CLR, CLRB, COM, COMB, INC, INCB, DEC, DECB, NEG. -/
theorem test_decode_single_operand_1 :
    [0b0000101000_111_001, 0b1000101000_010_111, 0b0000101001_101_110, 0b1000101001_001_101,
     0b0000101010_011_100, 0b1000101010_110_011, 0b0000101011_001_010, 0b1000101011_100_001,
     0b0000101100_111_001].map dec =
    [some (.clr ⟨.indexedDeferred, .r1⟩), some (.clrb ⟨.autoinc, .pc⟩),
     some (.com ⟨.autodecDeferred, .sp⟩), some (.comb ⟨.deferred, .r5⟩),
     some (.inc ⟨.autoincDeferred, .r4⟩), some (.incb ⟨.indexed, .r3⟩),
     some (.dec ⟨.deferred, .r2⟩), some (.decb ⟨.autodec, .r1⟩),
     some (.neg ⟨.indexedDeferred, .r1⟩)] := by
  decide

/-- 41_single_operand.md: NEGB, ADC, ADCB, SBC, SBCB, TST, TSTB, ROR, RORB. -/
theorem test_decode_single_operand_2 :
    [0b1000101100_010_111, 0b0000101101_101_110, 0b1000101101_001_101, 0b0000101110_011_100,
     0b1000101110_110_011, 0b0000101111_001_010, 0b1000101111_100_001, 0b0000110000_111_001,
     0b1000110000_010_111].map dec =
    [some (.negb ⟨.autoinc, .pc⟩), some (.adc ⟨.autodecDeferred, .sp⟩),
     some (.adcb ⟨.deferred, .r5⟩), some (.sbc ⟨.autoincDeferred, .r4⟩),
     some (.sbcb ⟨.indexed, .r3⟩), some (.tst ⟨.deferred, .r2⟩), some (.tstb ⟨.autodec, .r1⟩),
     some (.ror ⟨.indexedDeferred, .r1⟩), some (.rorb ⟨.autoinc, .pc⟩)] := by
  decide

/-- 41_single_operand.md: ROL, ROLB, ASR, ASRB, ASL, ASLB, SWAB, SXT. -/
theorem test_decode_single_operand_3 :
    [0b0000110001_101_110, 0b1000110001_001_101, 0b0000110010_011_100, 0b1000110010_110_011,
     0b0000110011_001_010, 0b1000110011_100_001, 0b0000000011_111_001, 0b0000110111_010_111].map dec =
    [some (.rol ⟨.autodecDeferred, .sp⟩), some (.rolb ⟨.deferred, .r5⟩),
     some (.asr ⟨.autoincDeferred, .r4⟩), some (.asrb ⟨.indexed, .r3⟩),
     some (.asl ⟨.deferred, .r2⟩), some (.aslb ⟨.autodec, .r1⟩),
     some (.swab ⟨.indexedDeferred, .r1⟩), some (.sxt ⟨.autoinc, .pc⟩)] := by
  decide

/-- 42_double_operand.md: MOV, MOVB, CMP, CMPB, BIT, BITB, BIC, BICB, BIS. -/
theorem test_decode_double_operand_1 :
    [0b0001_101_110_101_001, 0b1001_001_101_001_101, 0b0010_011_100_011_001,
     0b1010_110_011_101_100, 0b0011_001_010_001_001, 0b1011_100_001_011_100,
     0b0100_111_001_110_001, 0b1100_010_111_001_100, 0b0101_101_110_011_001].map dec =
    [some (.mov ⟨.autodecDeferred, .sp⟩ ⟨.autodecDeferred, .r1⟩),
     some (.movb ⟨.deferred, .r5⟩ ⟨.deferred, .r5⟩),
     some (.cmp ⟨.autoincDeferred, .r4⟩ ⟨.autoincDeferred, .r1⟩),
     some (.cmpb ⟨.indexed, .r3⟩ ⟨.autodecDeferred, .r4⟩),
     some (.bit ⟨.deferred, .r2⟩ ⟨.deferred, .r1⟩),
     some (.bitb ⟨.autodec, .r1⟩ ⟨.autoincDeferred, .r4⟩),
     some (.bic ⟨.indexedDeferred, .r1⟩ ⟨.indexed, .r1⟩),
     some (.bicb ⟨.autoinc, .pc⟩ ⟨.deferred, .r4⟩),
     some (.bis ⟨.autodecDeferred, .sp⟩ ⟨.autoincDeferred, .r1⟩)] := by
  decide

/-- 42_double_operand.md: BISB, ADD, SUB. -/
theorem test_decode_double_operand_2 :
    [0b1101_001_101_110_100, 0b0110_011_100_001_001, 0b1110_110_011_011_100].map dec =
    [some (.bisb ⟨.deferred, .r5⟩ ⟨.indexed, .r4⟩),
     some (.add ⟨.autoincDeferred, .r4⟩ ⟨.deferred, .r1⟩),
     some (.sub ⟨.indexed, .r3⟩ ⟨.autoincDeferred, .r4⟩)] := by
  decide

/-- 43_register_operand.md: MUL, DIV, ASH, ASHC, XOR. -/
theorem test_decode_register_operand :
    [0b0111000_001_010_110, 0b0111001_100_001_001, 0b0111010_111_001_100, 0b0111011_010_111_111,
     0b0111100_101_110_001].map dec =
    [some (.mul .r1 ⟨.autoinc, .sp⟩), some (.div .r4 ⟨.deferred, .r1⟩),
     some (.ash .pc ⟨.deferred, .r4⟩), some (.ashc .r2 ⟨.indexedDeferred, .pc⟩),
     some (.xor .r5 ⟨.indexed, .r1⟩)] := by
  decide

/-- 44_branch.md: BR, BNE, BEQ, BGE, BLT, BGT, BLE, BPL, BMI. -/
theorem test_decode_branch_1 :
    [0b00000001_11010000, 0b00000010_00101011, 0b00000011_10000110, 0b00000100_11100001,
     0b00000101_00111100, 0b00000110_10010111, 0b00000111_11110010, 0b10000000_01001101,
     0b10000001_10101000].map dec =
    [some (.br 0xD0), some (.bne 0x2B), some (.beq 0x86), some (.bge 0xE1), some (.blt 0x3C),
     some (.bgt 0x97), some (.ble 0xF2), some (.bpl 0x4D), some (.bmi 0xA8)] := by
  decide

/-- 44_branch.md: BHI, BLOS, BVC, BVS, BCC, BCS. -/
theorem test_decode_branch_2 :
    [0b10000010_00000011, 0b10000011_01011110, 0b10000100_10111001, 0b10000101_00010100,
     0b10000110_01101111, 0b10000111_11001010].map dec =
    [some (.bhi 0x03), some (.blos 0x5E), some (.bvc 0xB9), some (.bvs 0x14), some (.bcc 0x6F),
     some (.bcs 0xCA)] := by
  decide

/-- 45_jump_subroutine.md: JMP, JSR, RTS, MARK, SOB. -/
theorem test_decode_jump :
    [0b0000000001_101_101, 0b0000100_001_100_001, 0b0000000010000_011, 0b0000110100_110110,
     0b0111111_001_100001].map dec =
    [some (.jmp ⟨.autodecDeferred, .r5⟩), some (.jsr .r1 ⟨.autodec, .r1⟩), some (.rts .r3),
     some (.mark 0x36), some (.sob .r1 0x21)] := by
  decide

/-- 46_trap_system.md: EMT, TRAP, HALT, WAIT, RTI, BPT, IOT, RESET, RTT. -/
theorem test_decode_trap_system_1 :
    [0b10001000_11101100, 0b10001001_01000111, 0b0000000000000000, 0b0000000000000001,
     0b0000000000000010, 0b0000000000000011, 0b0000000000000100, 0b0000000000000101,
     0b0000000000000110].map dec =
    [some (.emt 0xEC), some (.trap 0x47), some .halt, some .wait, some .rti, some .bpt,
     some .iot, some .reset, some .rtt] := by
  decide

/-- 46_trap_system.md: MFTP, MTPS, MFPS, SVB, TRACE. -/
theorem test_decode_trap_system_2 :
    [0b0000000000000111, 0b1000110100_010_110, 0b1000110111_101_101, 0b0000000000010000,
     0b0000000000010001].map dec =
    [some .mftp, some (.mtps ⟨.autoinc, .sp⟩), some (.mfps ⟨.autodecDeferred, .r5⟩), some .svb,
     some .trace] := by
  decide

/-- 47_io.md: IOR, IOW. -/
theorem test_decode_io :
    [0b0111101_110_010_010, 0b0111110_001_001_101].map dec =
    [some (.ior .sp ⟨.autoinc, .r2⟩), some (.iow .r1 ⟨.deferred, .r5⟩)] := by
  decide

/-- 48_condition_codes.md: CCOP, CLC, CLV, CLZ, CLN, CCC, SEC, SEV, SEZ. -/
theorem test_decode_condition_code_1 :
    [0b00000000101_0_0101, 0b0000000010100001, 0b0000000010100010, 0b0000000010100100,
     0b0000000010101000, 0b0000000010101111, 0b0000000010110001, 0b0000000010110010,
     0b0000000010110100].map dec =
    [some (.ccop false false true false true), some .clc, some .clv, some .clz, some .cln,
     some .ccc, some .sec, some .sev, some .sez] := by
  decide

/-- 48_condition_codes.md: SEN, SCC, NOP. -/
theorem test_decode_condition_code_2 :
    [0b0000000010111000, 0b0000000010111111, 0b0000000010100000].map dec =
    [some .sen, some .scc, some .nop] := by
  decide

/-- The ends of the illegal ranges and the words just outside them (95_test_vectors.md section 6). -/
theorem test_decode_illegal :
    [0x0007, 0x0008, 0x003F, 0x0040, 0x0087, 0x0088, 0x009F, 0x00A0, 0x0D3F, 0x0D40, 0x0DBF, 0x0DC0,
     0x0DFF, 0x0E00, 0x0FFF, 0x1000, 0x79FF].map (fun w => (dec w).isSome) =
    [true, false, false, true, true, false, false, true, true, false, false, true,
     true, false, false, true, true] := by
  decide

theorem test_decode_truncated : decodeBytes enc [0x00] = .error .truncated := by rfl

/-- The interface's numbering: the low byte of the word stands first. -/
theorem test_decodeTableWord : decodeTableWord 16 0x15C1 = some (.mov ⟨.autoinc, .pc⟩ ⟨.register, .r1⟩) := by
  decide

/-- The first step after reset runs the word that was placed: MOV #0,R0 sets Z. -/
theorem test_withFetchWord :
    after (State.reset.withFetchWord 16 0x15C0) (see .r0) = some (0, 0x04) := by
  decide

/-! ## Single steps -/

/-- S1: CLR R0. -/
theorem test_clr_1 :
    after (machineAt 0x0200 [(.r0, 0x1234)] 0x0F [(0x0200, 0x0A00)]) (see .r0) =
      some (0x0000, 0x04) := by
  decide

/-- S3: CLR (R1). -/
theorem test_clr_2 :
    after (machineAt 0x0200 [(.r1, 0x1000)] 0x00 [(0x0200, 0x0A09), (0x1000, 0xFFFF)]) (seeAt 0x1000) =
      some (0x0000, 0x04) := by
  decide

/-- S2: CLRB R3. -/
theorem test_clrb_1 :
    after (machineAt 0x0200 [(.r3, 0xBEEF)] 0x0B [(0x0200, 0x8A03)]) (see .r3) =
      some (0xBE00, 0x04) := by
  decide

/-- S4: CLRB (R1). -/
theorem test_clrb_2 :
    after (machineAt 0x0200 [(.r1, 0x1001)] 0x00 [(0x0200, 0x8A09), (0x1000, 0xABCD)]) (seeAt 0x1000) =
      some (0x00CD, 0x04) := by
  decide

/-- S5: COM R0. -/
theorem test_com_1 :
    after (machineAt 0x0200 [(.r0, 0x00FF)] 0x00 [(0x0200, 0x0A40)]) (see .r0) =
      some (0xFF00, 0x09) := by
  decide

/-- S6: COM R0. -/
theorem test_com_2 :
    after (machineAt 0x0200 [(.r0, 0xFFFF)] 0x00 [(0x0200, 0x0A40)]) (see .r0) =
      some (0x0000, 0x05) := by
  decide

/-- S7: COMB R0. -/
theorem test_comb :
    after (machineAt 0x0200 [(.r0, 0x12FF)] 0x00 [(0x0200, 0x8A40)]) (see .r0) =
      some (0x1200, 0x05) := by
  decide

/-- S8: INC R1. -/
theorem test_inc_1 :
    after (machineAt 0x0200 [(.r1, 0x7FFF)] 0x01 [(0x0200, 0x0A81)]) (see .r1) =
      some (0x8000, 0x0B) := by
  decide

/-- S49: INC @#0x1000. -/
theorem test_inc_2 :
    after (machineAt 0x0200 [] 0x00 [(0x0200, 0x0A9F), (0x0202, 0x1000), (0x1000, 0x00FF)]) (seeAt 0x1000) =
      some (0x0100, 0x00) := by
  decide

/-- S10: INCB R1. -/
theorem test_incb_1 :
    after (machineAt 0x0200 [(.r1, 0x127F)] 0x00 [(0x0200, 0x8A81)]) (see .r1) =
      some (0x1280, 0x0A) := by
  decide

/-- S50: INCB @#0x1001. -/
theorem test_incb_2 :
    after (machineAt 0x0200 [] 0x00 [(0x0200, 0x8A9F), (0x0202, 0x1001), (0x1000, 0xFF00)]) (seeAt 0x1000) =
      some (0x0000, 0x04) := by
  decide

/-- S12: DEC R2. -/
theorem test_dec_1 :
    after (machineAt 0x0200 [(.r2, 0x8000)] 0x00 [(0x0200, 0x0AC2)]) (see .r2) =
      some (0x7FFF, 0x02) := by
  decide

/-- S13: DEC R2. -/
theorem test_dec_2 :
    after (machineAt 0x0200 [(.r2, 0x0001)] 0x01 [(0x0200, 0x0AC2)]) (see .r2) =
      some (0x0000, 0x05) := by
  decide

/-- S15: DECB R2. -/
theorem test_decb :
    after (machineAt 0x0200 [(.r2, 0x3480)] 0x00 [(0x0200, 0x8AC2)]) (see .r2) =
      some (0x347F, 0x02) := by
  decide

/-- S16: NEG R0. -/
theorem test_neg_1 :
    after (machineAt 0x0200 [(.r0, 0x0001)] 0x00 [(0x0200, 0x0B00)]) (see .r0) =
      some (0xFFFF, 0x09) := by
  decide

/-- S18: NEG R0. -/
theorem test_neg_2 :
    after (machineAt 0x0200 [(.r0, 0x8000)] 0x00 [(0x0200, 0x0B00)]) (see .pc) =
      some (0x0202, 0x0B) := by
  decide

/-- S19: NEGB R0. -/
theorem test_negb :
    after (machineAt 0x0200 [(.r0, 0x5580)] 0x00 [(0x0200, 0x8B00)]) (see .pc) =
      some (0x0202, 0x0B) := by
  decide

/-- S20: ADC R0. -/
theorem test_adc_1 :
    after (machineAt 0x0200 [(.r0, 0xFFFF)] 0x01 [(0x0200, 0x0B40)]) (see .r0) =
      some (0x0000, 0x05) := by
  decide

/-- S21: ADC R0. -/
theorem test_adc_2 :
    after (machineAt 0x0200 [(.r0, 0x7FFF)] 0x01 [(0x0200, 0x0B40)]) (see .r0) =
      some (0x8000, 0x0A) := by
  decide

/-- S23: ADCB R0. -/
theorem test_adcb :
    after (machineAt 0x0200 [(.r0, 0x00FF)] 0x01 [(0x0200, 0x8B40)]) (see .r0) =
      some (0x0000, 0x05) := by
  decide

/-- S24: SBC R0. -/
theorem test_sbc_1 :
    after (machineAt 0x0200 [(.r0, 0x0000)] 0x01 [(0x0200, 0x0B80)]) (see .r0) =
      some (0xFFFF, 0x09) := by
  decide

/-- S25: SBC R0. -/
theorem test_sbc_2 :
    after (machineAt 0x0200 [(.r0, 0x8000)] 0x01 [(0x0200, 0x0B80)]) (see .r0) =
      some (0x7FFF, 0x02) := by
  decide

/-- S27: SBCB R0. -/
theorem test_sbcb :
    after (machineAt 0x0200 [(.r0, 0x1200)] 0x01 [(0x0200, 0x8B80)]) (see .r0) =
      some (0x12FF, 0x09) := by
  decide

/-- S28: TST R4. -/
theorem test_tst_1 :
    after (machineAt 0x0200 [(.r4, 0x8000)] 0x03 [(0x0200, 0x0BC4)]) (see .pc) =
      some (0x0202, 0x08) := by
  decide

/-- S51: TST @#0x1001. -/
theorem test_tst_2 :
    faultOf (machineAt 0x0200 [] 0x00 [(0x0200, 0x0BDF), (0x0202, 0x1001)]) =
      some (.oddWordAddress 0x1001) := by
  decide

/-- S29: TSTB R4. -/
theorem test_tstb_1 :
    after (machineAt 0x0200 [(.r4, 0x0080)] 0x03 [(0x0200, 0x8BC4)]) (see .pc) =
      some (0x0202, 0x08) := by
  decide

/-- S30: TSTB R4. -/
theorem test_tstb_2 :
    after (machineAt 0x0200 [(.r4, 0xFF00)] 0x03 [(0x0200, 0x8BC4)]) (see .pc) =
      some (0x0202, 0x04) := by
  decide

/-- S31: ASR R0. -/
theorem test_asr_1 :
    after (machineAt 0x0200 [(.r0, 0x8003)] 0x00 [(0x0200, 0x0C80)]) (see .r0) =
      some (0xC001, 0x09) := by
  decide

/-- S32: ASR R0. -/
theorem test_asr_2 :
    after (machineAt 0x0200 [(.r0, 0x0001)] 0x00 [(0x0200, 0x0C80)]) (see .r0) =
      some (0x0000, 0x07) := by
  decide

/-- S33: ASRB R0. -/
theorem test_asrb :
    after (machineAt 0x0200 [(.r0, 0x1281)] 0x00 [(0x0200, 0x8C80)]) (see .r0) =
      some (0x12C0, 0x09) := by
  decide

/-- S34: ASL R0. -/
theorem test_asl_1 :
    after (machineAt 0x0200 [(.r0, 0xC001)] 0x00 [(0x0200, 0x0CC0)]) (see .r0) =
      some (0x8002, 0x09) := by
  decide

/-- S35: ASL R0. -/
theorem test_asl_2 :
    after (machineAt 0x0200 [(.r0, 0x4000)] 0x00 [(0x0200, 0x0CC0)]) (see .r0) =
      some (0x8000, 0x0A) := by
  decide

/-- S37: ASLB R0. -/
theorem test_aslb :
    after (machineAt 0x0200 [(.r0, 0x1240)] 0x00 [(0x0200, 0x8CC0)]) (see .r0) =
      some (0x1280, 0x0A) := by
  decide

/-- S38: ROR R0. -/
theorem test_ror_1 :
    after (machineAt 0x0200 [(.r0, 0x0002)] 0x01 [(0x0200, 0x0C00)]) (see .r0) =
      some (0x8001, 0x0A) := by
  decide

/-- S39: ROR R0. -/
theorem test_ror_2 :
    after (machineAt 0x0200 [(.r0, 0x0001)] 0x00 [(0x0200, 0x0C00)]) (see .r0) =
      some (0x0000, 0x07) := by
  decide

/-- S40: RORB R0. -/
theorem test_rorb :
    after (machineAt 0x0200 [(.r0, 0x1201)] 0x01 [(0x0200, 0x8C00)]) (see .r0) =
      some (0x1280, 0x09) := by
  decide

/-- S41: ROL R0. -/
theorem test_rol_1 :
    after (machineAt 0x0200 [(.r0, 0x8000)] 0x00 [(0x0200, 0x0C40)]) (see .r0) =
      some (0x0000, 0x07) := by
  decide

/-- S42: ROL R0. -/
theorem test_rol_2 :
    after (machineAt 0x0200 [(.r0, 0x4000)] 0x01 [(0x0200, 0x0C40)]) (see .r0) =
      some (0x8001, 0x0A) := by
  decide

/-- S43: ROLB R0. -/
theorem test_rolb :
    after (machineAt 0x0200 [(.r0, 0x1280)] 0x01 [(0x0200, 0x8C40)]) (see .r0) =
      some (0x1201, 0x03) := by
  decide

/-- S44: SWAB R1. -/
theorem test_swab_1 :
    after (machineAt 0x0200 [(.r1, 0x1234)] 0x03 [(0x0200, 0x00C1)]) (see .r1) =
      some (0x3412, 0x00) := by
  decide

/-- S46: SWAB R1. -/
theorem test_swab_2 :
    after (machineAt 0x0200 [(.r1, 0xFF00)] 0x00 [(0x0200, 0x00C1)]) (see .r1) =
      some (0x00FF, 0x00) := by
  decide

/-- S47: SXT R2. -/
theorem test_sxt_1 :
    after (machineAt 0x0200 [(.r2, 0x1234)] 0x0B [(0x0200, 0x0DC2)]) (see .r2) =
      some (0xFFFF, 0x0B) := by
  decide

/-- S48: SXT R2. -/
theorem test_sxt_2 :
    after (machineAt 0x0200 [(.r2, 0x1234)] 0x03 [(0x0200, 0x0DC2)]) (see .r2) =
      some (0x0000, 0x07) := by
  decide

/-- D8: MOV (R0)+,-(R1). -/
theorem test_mov_1 :
    after (machineAt 0x0200 [(.r0, 0x1000), (.r1, 0x2002)] 0x00 [(0x0200, 0x1421), (0x1000, 0xCAFE)]) (seeAt 0x2000) =
      some (0xCAFE, 0x08) := by
  decide

/-- A17: MOV @0x0300,R0 (relative deferred). -/
theorem test_mov_2 :
    after (machineAt 0x0200 [] 0x00 [(0x0200, 0x1FC0), (0x0202, 0x00FC), (0x0300, 0x1000), (0x1000, 0x0888)]) (see .r0) =
      some (0x0888, 0x00) := by
  decide

/-- D5: MOVB R0,R1. -/
theorem test_movb_1 :
    after (machineAt 0x0200 [(.r0, 0x127F), (.r1, 0xFFFF)] 0x00 [(0x0200, 0x9001)]) (see .r1) =
      some (0x007F, 0x00) := by
  decide

/-- D7: MOVB (R0)+,(R1)+. -/
theorem test_movb_2 :
    after (machineAt 0x0200 [(.r0, 0x1000), (.r1, 0x2000)] 0x00 [(0x0200, 0x9411), (0x1000, 0x0041), (0x2000, 0xFFFF)]) (seeAt 0x2000) =
      some (0xFF41, 0x00) := by
  decide

/-- D16: CMP R0,R1. -/
theorem test_cmp_1 :
    after (machineAt 0x0200 [(.r0, 0x8000), (.r1, 0x0001)] 0x00 [(0x0200, 0x2001)]) (see .pc) =
      some (0x0202, 0x02) := by
  decide

/-- D18: CMP R0,R1. -/
theorem test_cmp_2 :
    after (machineAt 0x0200 [(.r0, 0x7FFF), (.r1, 0xFFFF)] 0x00 [(0x0200, 0x2001)]) (see .pc) =
      some (0x0202, 0x0B) := by
  decide

/-- D19: CMPB R0,R1. -/
theorem test_cmpb :
    after (machineAt 0x0200 [(.r0, 0x1280), (.r1, 0x3401)] 0x00 [(0x0200, 0xA001)]) (see .pc) =
      some (0x0202, 0x02) := by
  decide

/-- D30: BIT R0,R1. -/
theorem test_bit_1 :
    after (machineAt 0x0200 [(.r0, 0x00F0), (.r1, 0x0F0F)] 0x0B [(0x0200, 0x3001)]) (see .pc) =
      some (0x0202, 0x05) := by
  decide

/-- D31: BIT R0,R1. -/
theorem test_bit_2 :
    after (machineAt 0x0200 [(.r0, 0x8000), (.r1, 0xFFFF)] 0x02 [(0x0200, 0x3001)]) (see .pc) =
      some (0x0202, 0x08) := by
  decide

/-- D32: BITB R0,R1. -/
theorem test_bitb :
    after (machineAt 0x0200 [(.r0, 0xFF80), (.r1, 0x0080)] 0x00 [(0x0200, 0xB001)]) (see .pc) =
      some (0x0202, 0x08) := by
  decide

/-- D33: BIC R0,R1. -/
theorem test_bic :
    after (machineAt 0x0200 [(.r0, 0x00FF), (.r1, 0x1234)] 0x03 [(0x0200, 0x4001)]) (see .r1) =
      some (0x1200, 0x01) := by
  decide

/-- D34: BICB R0,R1. -/
theorem test_bicb :
    after (machineAt 0x0200 [(.r0, 0xFFFF), (.r1, 0x1234)] 0x00 [(0x0200, 0xC001)]) (see .r1) =
      some (0x1200, 0x04) := by
  decide

/-- D35: BIS R0,R1. -/
theorem test_bis :
    after (machineAt 0x0200 [(.r0, 0x8000), (.r1, 0x0001)] 0x03 [(0x0200, 0x5001)]) (see .r1) =
      some (0x8001, 0x09) := by
  decide

/-- D36: BISB R0,R1. -/
theorem test_bisb :
    after (machineAt 0x0200 [(.r0, 0x0080), (.r1, 0x1201)] 0x00 [(0x0200, 0xD001)]) (see .r1) =
      some (0x1281, 0x08) := by
  decide

/-- D21: ADD R0,R1. -/
theorem test_add_1 :
    after (machineAt 0x0200 [(.r0, 0x7FFF), (.r1, 0x0001)] 0x00 [(0x0200, 0x6001)]) (see .r1) =
      some (0x8000, 0x0A) := by
  decide

/-- D25: ADD #2,(R1). -/
theorem test_add_2 :
    after (machineAt 0x0200 [(.r1, 0x1000)] 0x00 [(0x0200, 0x65C9), (0x0202, 0x0002), (0x1000, 0xFFFE)]) (seeAt 0x1000) =
      some (0x0000, 0x05) := by
  decide

/-- D26: SUB R0,R1. -/
theorem test_sub_1 :
    after (machineAt 0x0200 [(.r0, 0x0001), (.r1, 0x0000)] 0x00 [(0x0200, 0xE001)]) (see .r1) =
      some (0xFFFF, 0x09) := by
  decide

/-- D28: SUB R0,R1. -/
theorem test_sub_2 :
    after (machineAt 0x0200 [(.r0, 0xFFFF), (.r1, 0x7FFF)] 0x00 [(0x0200, 0xE001)]) (see .r1) =
      some (0x8000, 0x0B) := by
  decide

/-- G3: MUL R2,R0. -/
theorem test_mul_1 :
    after (machineAt 0x0200 [(.r0, 0x8000), (.r2, 0x8000)] 0x00 [(0x0200, 0x7002)]) (see .r0) =
      some (0x4000, 0x01) := by
  decide

/-- G7: MUL R2,R1. -/
theorem test_mul_2 :
    after (machineAt 0x0200 [(.r0, 0xAAAA), (.r1, 0x0100), (.r2, 0x0100)] 0x00 [(0x0200, 0x7042)]) (see .r1) =
      some (0x0000, 0x01) := by
  decide

/-- G10: DIV R2,R0. -/
theorem test_div_1 :
    after (machineAt 0x0200 [(.r0, 0xFFFF), (.r1, 0xFF9C), (.r2, 0x0007)] 0x00 [(0x0200, 0x7202)]) (see .r1) =
      some (0xFFF2, 0x0A) := by
  decide

/-- G14: DIV R2,R1. -/
theorem test_div_2 :
    faultOf (machineAt 0x0200 [(.r1, 0x0005), (.r2, 0x0001)] 0x00 [(0x0200, 0x7242)]) =
      some (.oddRegisterPair .r1) := by
  decide

/-- G18: ASH #2,R0. -/
theorem test_ash_1 :
    after (machineAt 0x0200 [(.r0, 0xA000)] 0x00 [(0x0200, 0x7417), (0x0202, 0x0002)]) (see .r0) =
      some (0x8000, 0x0A) := by
  decide

/-- G20: ASH #17,R0. -/
theorem test_ash_2 :
    after (machineAt 0x0200 [(.r0, 0x0001)] 0x00 [(0x0200, 0x7417), (0x0202, 0x0011)]) (see .r0) =
      some (0x0000, 0x06) := by
  decide

/-- G29: ASHC #-32,R2. -/
theorem test_ashc_1 :
    after (machineAt 0x0200 [(.r2, 0x8000), (.r3, 0x0000)] 0x00 [(0x0200, 0x7697), (0x0202, 0x0020)]) (see .r3) =
      some (0xFFFF, 0x09) := by
  decide

/-- G30: ASHC #16,R2. -/
theorem test_ashc_2 :
    after (machineAt 0x0200 [(.r2, 0x0001), (.r3, 0x2345)] 0x00 [(0x0200, 0x7697), (0x0202, 0x0010)]) (see .r3) =
      some (0x0000, 0x03) := by
  decide

/-- G32: XOR R0,R1. -/
theorem test_xor_1 :
    after (machineAt 0x0200 [(.r0, 0x0F0F), (.r1, 0x00FF)] 0x03 [(0x0200, 0x7801)]) (see .r1) =
      some (0x0FF0, 0x01) := by
  decide

/-- G34: XOR R0,(R1). -/
theorem test_xor_2 :
    after (machineAt 0x0200 [(.r0, 0xFFFF), (.r1, 0x1000)] 0x00 [(0x0200, 0x7809), (0x1000, 0x7FFF)]) (seeAt 0x1000) =
      some (0x8000, 0x08) := by
  decide

/-- B3: BR .-254. -/
theorem test_br_1 :
    after (machineAt 0x0200 [] 0x00 [(0x0200, 0x0180)]) (see .pc) =
      some (0x0102, 0x00) := by
  decide

/-- B37: BR .+256 (wrap). -/
theorem test_br_2 :
    after (machineAt 0xFF80 [] 0x00 [(0xFF80, 0x017F)]) (see .pc) =
      some (0x0080, 0x00) := by
  decide

/-- B5: BNE (taken). -/
theorem test_bne_1 :
    after (machineAt 0x0200 [] 0x00 [(0x0200, 0x02FE)]) (see .pc) =
      some (0x01FE, 0x00) := by
  decide

/-- B6: BNE (not taken). -/
theorem test_bne_2 :
    after (machineAt 0x0200 [] 0x04 [(0x0200, 0x02FE)]) (see .pc) =
      some (0x0202, 0x04) := by
  decide

/-- B7: BEQ (taken). -/
theorem test_beq_1 :
    after (machineAt 0x0200 [] 0x04 [(0x0200, 0x0302)]) (see .pc) =
      some (0x0206, 0x04) := by
  decide

/-- B8: BEQ (not taken). -/
theorem test_beq_2 :
    after (machineAt 0x0200 [] 0x0B [(0x0200, 0x0302)]) (see .pc) =
      some (0x0202, 0x0B) := by
  decide

/-- B9: BGE N=V=1. -/
theorem test_bge_1 :
    after (machineAt 0x0200 [] 0x0A [(0x0200, 0x0401)]) (see .pc) =
      some (0x0204, 0x0A) := by
  decide

/-- B10: BGE N=1,V=0. -/
theorem test_bge_2 :
    after (machineAt 0x0200 [] 0x08 [(0x0200, 0x0401)]) (see .pc) =
      some (0x0202, 0x08) := by
  decide

/-- B11: BLT N=0,V=1. -/
theorem test_blt_1 :
    after (machineAt 0x0200 [] 0x02 [(0x0200, 0x0501)]) (see .pc) =
      some (0x0204, 0x02) := by
  decide

/-- B12: BLT N=V=1. -/
theorem test_blt_2 :
    after (machineAt 0x0200 [] 0x0A [(0x0200, 0x0501)]) (see .pc) =
      some (0x0202, 0x0A) := by
  decide

/-- B14: BGT Z=1. -/
theorem test_bgt_1 :
    after (machineAt 0x0200 [] 0x04 [(0x0200, 0x0601)]) (see .pc) =
      some (0x0202, 0x04) := by
  decide

/-- B15: BGT N=V=1,Z=0. -/
theorem test_bgt_2 :
    after (machineAt 0x0200 [] 0x0B [(0x0200, 0x0601)]) (see .pc) =
      some (0x0204, 0x0B) := by
  decide

/-- B16: BLE Z=1. -/
theorem test_ble_1 :
    after (machineAt 0x0200 [] 0x04 [(0x0200, 0x0701)]) (see .pc) =
      some (0x0204, 0x04) := by
  decide

/-- B18: BLE N=V=0,Z=0. -/
theorem test_ble_2 :
    after (machineAt 0x0200 [] 0x01 [(0x0200, 0x0701)]) (see .pc) =
      some (0x0202, 0x01) := by
  decide

/-- B19: BPL N=0. -/
theorem test_bpl_1 :
    after (machineAt 0x0200 [] 0x07 [(0x0200, 0x8001)]) (see .pc) =
      some (0x0204, 0x07) := by
  decide

/-- B20: BPL N=1. -/
theorem test_bpl_2 :
    after (machineAt 0x0200 [] 0x08 [(0x0200, 0x8001)]) (see .pc) =
      some (0x0202, 0x08) := by
  decide

/-- B21: BMI N=1. -/
theorem test_bmi_1 :
    after (machineAt 0x0200 [] 0x08 [(0x0200, 0x8101)]) (see .pc) =
      some (0x0204, 0x08) := by
  decide

/-- B22: BMI N=0. -/
theorem test_bmi_2 :
    after (machineAt 0x0200 [] 0x07 [(0x0200, 0x8101)]) (see .pc) =
      some (0x0202, 0x07) := by
  decide

/-- B23: BHI C=0,Z=0. -/
theorem test_bhi_1 :
    after (machineAt 0x0200 [] 0x0A [(0x0200, 0x8201)]) (see .pc) =
      some (0x0204, 0x0A) := by
  decide

/-- B25: BHI Z=1. -/
theorem test_bhi_2 :
    after (machineAt 0x0200 [] 0x04 [(0x0200, 0x8201)]) (see .pc) =
      some (0x0202, 0x04) := by
  decide

/-- B26: BLOS C=1. -/
theorem test_blos_1 :
    after (machineAt 0x0200 [] 0x01 [(0x0200, 0x8301)]) (see .pc) =
      some (0x0204, 0x01) := by
  decide

/-- B28: BLOS C=0,Z=0. -/
theorem test_blos_2 :
    after (machineAt 0x0200 [] 0x0A [(0x0200, 0x8301)]) (see .pc) =
      some (0x0202, 0x0A) := by
  decide

/-- B29: BVC V=0. -/
theorem test_bvc_1 :
    after (machineAt 0x0200 [] 0x0D [(0x0200, 0x8401)]) (see .pc) =
      some (0x0204, 0x0D) := by
  decide

/-- B30: BVC V=1. -/
theorem test_bvc_2 :
    after (machineAt 0x0200 [] 0x02 [(0x0200, 0x8401)]) (see .pc) =
      some (0x0202, 0x02) := by
  decide

/-- B31: BVS V=1. -/
theorem test_bvs_1 :
    after (machineAt 0x0200 [] 0x02 [(0x0200, 0x8501)]) (see .pc) =
      some (0x0204, 0x02) := by
  decide

/-- B32: BVS V=0. -/
theorem test_bvs_2 :
    after (machineAt 0x0200 [] 0x0D [(0x0200, 0x8501)]) (see .pc) =
      some (0x0202, 0x0D) := by
  decide

/-- B33: BCC C=0. -/
theorem test_bcc_1 :
    after (machineAt 0x0200 [] 0x0E [(0x0200, 0x8601)]) (see .pc) =
      some (0x0204, 0x0E) := by
  decide

/-- B34: BCC C=1. -/
theorem test_bcc_2 :
    after (machineAt 0x0200 [] 0x01 [(0x0200, 0x8601)]) (see .pc) =
      some (0x0202, 0x01) := by
  decide

/-- B35: BCS C=1. -/
theorem test_bcs_1 :
    after (machineAt 0x0200 [] 0x01 [(0x0200, 0x8701)]) (see .pc) =
      some (0x0204, 0x01) := by
  decide

/-- B36: BCS C=0. -/
theorem test_bcs_2 :
    after (machineAt 0x0200 [] 0x0E [(0x0200, 0x8701)]) (see .pc) =
      some (0x0202, 0x0E) := by
  decide

/-- J4: JMP (R1)+. -/
theorem test_jmp_1 :
    after (machineAt 0x0200 [(.r1, 0x0300)] 0x00 [(0x0200, 0x0051)]) (see .pc) =
      some (0x0300, 0x00) := by
  decide

/-- J8: JMP @0x0300 (relative deferred). -/
theorem test_jmp_2 :
    after (machineAt 0x0200 [] 0x00 [(0x0200, 0x007F), (0x0202, 0x00FC), (0x0300, 0x0600)]) (see .pc) =
      some (0x0600, 0x00) := by
  decide

/-- J11: JSR R5,@#0x0400. -/
theorem test_jsr_1 :
    after (machineAt 0x0200 [(.r5, 0xAAAA), (.sp, 0x1000)] 0x00 [(0x0200, 0x095F), (0x0202, 0x0400)]) (seeAt 0x0FFE) =
      some (0xAAAA, 0x00) := by
  decide

/-- J13: JSR PC,R1. -/
theorem test_jsr_2 :
    after (machineAt 0x0200 [(.r1, 0x0300), (.sp, 0x1000)] 0x00 [(0x0200, 0x09C1)]) (seeAt 0x0FFE) =
      some (0x0202, 0x00) := by
  decide

/-- J15: RTS PC. -/
theorem test_rts_1 :
    after (machineAt 0x0200 [(.sp, 0x0FFE)] 0x00 [(0x0200, 0x0087), (0x0FFE, 0x0204)]) (see .sp) =
      some (0x1000, 0x00) := by
  decide

/-- J16: RTS R5. -/
theorem test_rts_2 :
    after (machineAt 0x0200 [(.r5, 0x0300), (.sp, 0x0FFE)] 0x00 [(0x0200, 0x0085), (0x0FFE, 0xAAAA)]) (see .r5) =
      some (0xAAAA, 0x00) := by
  decide

/-- J17: MARK 4 (MARK_RULE = source). -/
theorem test_mark_1 :
    after (machineAt 0x0200 [(.r5, 0x0210), (.sp, 0x0FF0)] 0x00 [(0x0200, 0x0D04), (0x0FF4, 0x1234)]) (see .r5) =
      some (0x1234, 0x00) := by
  decide

/-- J18: MARK 2 (MARK_RULE = pdp11). -/
theorem test_mark_2 :
    after (machineAt 0x0FF0 [(.r5, 0x0210), (.sp, 0x0AAA)] 0x00 [(0x0FF0, 0x0D02), (0x0FF6, 0x1234)] { cfg with sw := { Switches.defaults with markRule := .pdp11 } }) (see .r5) =
      some (0x1234, 0x00) := by
  decide

/-- B40: SOB R0,.-2. -/
theorem test_sob_1 :
    after (machineAt 0x0206 [(.r0, 0x0000)] 0x0F [(0x0206, 0x7E02)]) (see .r0) =
      some (0xFFFF, 0x0F) := by
  decide

/-- B42: SOB R0,.+2 (offset 0). -/
theorem test_sob_2 :
    after (machineAt 0x0200 [(.r0, 0x0005)] 0x00 [(0x0200, 0x7E00)]) (see .r0) =
      some (0x0004, 0x00) := by
  decide

/-- T7: RTI. -/
theorem test_rti_1 :
    after (machineAt 0x0200 [(.sp, 0x0FFC)] 0x00 [(0x0200, 0x0002), (0x0FFC, 0x0202), (0x0FFE, 0x00E5)]) (see .sp) =
      some (0x1000, 0xE5) := by
  decide

/-- T8: RTI (TEN = 0, stacked T = 1). -/
theorem test_rti_2 :
    after (machineAt 0x0200 [(.sp, 0x0FFC)] 0x00 [(0x0200, 0x0002), (0x0FFC, 0x0202), (0x0FFE, 0xFFFF)]) (see .sp) =
      some (0x1000, 0xEF) := by
  decide

/-- T10: RTT (TEN = 1, stacked T = 1). -/
theorem test_rtt :
    after (machineAt 0x0200 [(.sp, 0x0FFC)] 0x00 [(0x0200, 0x0006), (0x0FFC, 0x0300), (0x0FFE, 0x0011)] cfgTen) (see .sp) =
      some (0x1000, 0x11) := by
  decide

/-- T12: HALT (TEN = 1, T = 1). -/
theorem test_halt :
    after (machineAt 0x0200 [] 0x10 [(0x0200, 0x0000)] cfgTen) (fun t => (t.run, t.get .pc)) =
      some (.halted, 0x0202) := by
  decide

/-- T13: WAIT. -/
theorem test_wait :
    after (machineAt 0x0200 [] 0x00 [(0x0200, 0x0001)]) (fun t => (t.run, t.get .pc)) =
      some (.waiting, 0x0202) := by
  decide

/-- T14: RESET. -/
theorem test_reset :
    after (machineAt 0x0200 [(.r0, 0x1234)] 0x0F [(0x0200, 0x0005)]) (see .pc) =
      some (0x0202, 0x0F) := by
  decide

/-- T15: MFTP. -/
theorem test_mftp :
    after (machineAt 0x0200 [(.r0, 0xFFFF)] 0x0F [(0x0200, 0x0007)]) (see .r0) =
      some (0x026D, 0x0F) := by
  decide

/-- T16: MFPS R0. -/
theorem test_mfps_1 :
    after (machineAt 0x0200 [(.r0, 0x1200)] 0xE5 [(0x0200, 0x8DC0)]) (see .r0) =
      some (0x12E5, 0xE9) := by
  decide

/-- T18: MFPS (R1). -/
theorem test_mfps_2 :
    after (machineAt 0x0200 [(.r1, 0x1001)] 0x2A [(0x0200, 0x8DC9), (0x1000, 0x5555)]) (seeAt 0x1000) =
      some (0x2A55, 0x20) := by
  decide

/-- T19: MTPS #0xE0. -/
theorem test_mtps_1 :
    after (machineAt 0x0200 [] 0x0F [(0x0200, 0x8D17), (0x0202, 0x00E0)]) (see .pc) =
      some (0x0204, 0xE0) := by
  decide

/-- T20: MTPS R0 (TEN = 0). -/
theorem test_mtps_2 :
    after (machineAt 0x0200 [(.r0, 0xAAFF)] 0x00 [(0x0200, 0x8D00)]) (see .pc) =
      some (0x0202, 0xEF) := by
  decide

/-- K1: NOP. -/
theorem test_nop :
    after (machineAt 0x0200 [] 0x0F [(0x0200, 0x00A0)]) (see .pc) =
      some (0x0202, 0x0F) := by
  decide

/-- K2: CLC. -/
theorem test_clc :
    after (machineAt 0x0200 [] 0x0F [(0x0200, 0x00A1)]) (see .pc) =
      some (0x0202, 0x0E) := by
  decide

/-- K3: CLV. -/
theorem test_clv :
    after (machineAt 0x0200 [] 0x0F [(0x0200, 0x00A2)]) (see .pc) =
      some (0x0202, 0x0D) := by
  decide

/-- K4: CLZ. -/
theorem test_clz :
    after (machineAt 0x0200 [] 0x0F [(0x0200, 0x00A4)]) (see .pc) =
      some (0x0202, 0x0B) := by
  decide

/-- K5: CLN. -/
theorem test_cln :
    after (machineAt 0x0200 [] 0x0F [(0x0200, 0x00A8)]) (see .pc) =
      some (0x0202, 0x07) := by
  decide

/-- K6: CCC. -/
theorem test_ccc :
    after (machineAt 0x0200 [] 0xEF [(0x0200, 0x00AF)]) (see .pc) =
      some (0x0202, 0xE0) := by
  decide

/-- K7: clear Z and C. -/
theorem test_ccop_1 :
    after (machineAt 0x0200 [] 0x0F [(0x0200, 0x00A5)]) (see .pc) =
      some (0x0202, 0x0A) := by
  decide

/-- K14: set N and C. -/
theorem test_ccop_2 :
    after (machineAt 0x0200 [] 0x00 [(0x0200, 0x00B9)]) (see .pc) =
      some (0x0202, 0x09) := by
  decide

/-- K9: SEC. -/
theorem test_sec :
    after (machineAt 0x0200 [] 0x00 [(0x0200, 0x00B1)]) (see .pc) =
      some (0x0202, 0x01) := by
  decide

/-- K10: SEV. -/
theorem test_sev :
    after (machineAt 0x0200 [] 0x00 [(0x0200, 0x00B2)]) (see .pc) =
      some (0x0202, 0x02) := by
  decide

/-- K11: SEZ. -/
theorem test_sez :
    after (machineAt 0x0200 [] 0x00 [(0x0200, 0x00B4)]) (see .pc) =
      some (0x0202, 0x04) := by
  decide

/-- K12: SEN. -/
theorem test_sen :
    after (machineAt 0x0200 [] 0x00 [(0x0200, 0x00B8)]) (see .pc) =
      some (0x0202, 0x08) := by
  decide

/-- K13: SCC. -/
theorem test_scc :
    after (machineAt 0x0200 [] 0xE0 [(0x0200, 0x00BF)]) (see .pc) =
      some (0x0202, 0xEF) := by
  decide
/-- E15: SVB keeps bits 15:5 of R0. -/
theorem test_svb :
    after (machineAt 0x0200 [(.r0, 0x12FF)] 0x0A [(0x0200, 0x0010)]) (fun t => (t.ivb, see .r0 t)) =
      some (0x12E0, 0x12FF, 0x0A) := by
  decide

/-- E9, E10: TRACE sets T when TEN = 1 and leaves it clear when TEN = 0. -/
theorem test_trace :
    exec .trace (machineAt 0x0202 [] 0x05 [] cfgTen) = .next (machineAt 0x0202 [] 0x15 [] cfgTen) ∧
    exec .trace (machineAt 0x0202 [] 0x05 []) = .next (machineAt 0x0202 [] 0x05 []) := by
  exact ⟨rfl, rfl⟩

/-- I2: IOR R1,R0 at an unconnected address. -/
theorem test_ior_1 :
    after (machineAt 0x0200 [(.r1, 0x1280)] 0x05 [(0x0200, 0x7A40)]) (see .r0) =
      some (0xFFFF, 0x09) := by
  decide

/-- I3: IOR R1,(R2) of TTOP0. -/
theorem test_ior_2 :
    after (let s := machineAt 0x0200 [(.r1, 0x0006), (.r2, 0x1000)] 0x00 [(0x0200, 0x7A4A)]
      { s with io := { s.io with t0 := { s.io.t0 with top := 0x8001 } } }) (seeAt 0x1000) =
      some (0x8001, 0x08) := by
  decide

/-- I8: IOW #0xFFFF,R1 to DDRA: seven bits, bits 15:8 of REG ignored, flags kept. -/
theorem test_iow_1 :
    after (machineAt 0x0200 [(.r1, 0xAB00)] 0x0F [(0x0200, 0x7C57), (0x0202, 0xFFFF)])
      (fun t => (t.io.ddra, pswByte t.psw)) = some (0x7F, 0x0F) := by
  decide

/-- I10: IOW R0,R2 to SDR while a transfer runs. -/
theorem test_iow_2 :
    faultOf (let s := machineAt 0x0200 [(.r0, 0x12A5), (.r2, 0x000C)] 0x00 [(0x0200, 0x7C80)]
      { s with io := { s.io with sbys := true } }) = some .spiWriteWhileBusy := by
  decide

/-- X18: MOVB @#0xFFFE,R0 with MPSW = 1 reads the PSW. -/
theorem test_psw_window :
    after (machineAt 0x0200 [] 0xE5 [(0x0200, 0x97C0), (0x0202, 0xFFFE)]
      { cfg with settings := { Settings.cleared with mpsw := true } }) (fun t => t.get .r0) =
      some 0xFFE5 := by
  decide

/-! ## Traps and interrupts

The upper byte of the pushed PSW is a free value (log 11), so these go through the law of the entry. -/

/-- What an entry loads, when its vector is none of the four bytes pushed. -/
theorem entered {vec : Word} {s : State} (hwf : s.mem.wf = true)
    (hsp : isOdd (s.get .sp) = false) (hvec : isOdd vec = false)
    (hout : ∀ b ∈ [vec.toNat, vec.toNat + 1, (vec + 2).toNat],
      b ∉ [(s.get .sp - 2).toNat, (s.get .sp - 2).toNat + 1, (s.get .sp - 4).toNat,
        (s.get .sp - 4).toNat + 1]) :
    ∃ t, enter vec s = .ok t ∧ t.get .pc = s.mem.word vec ∧ t.get .sp = s.get .sp - 4 ∧
      LoadedFrom (s.mem.get (vec + 2).toNat) false t.psw ∧
      t.mem.get (s.get .sp - 2).toNat = pswByte s.psw := by
  obtain ⟨t, h1, ⟨hq, hp, _, _, hm, hl, _⟩, _⟩ := enter_effect hwf hsp hvec
  have keep : ∀ b ∈ [vec.toNat, vec.toNat + 1, (vec + 2).toNat], t.mem.get b = s.mem.get b := by
    intro b hb
    have := hout b hb
    simp only [List.mem_cons, List.not_mem_nil, or_false, not_or] at this
    exact hm b this.1 this.2.1 this.2.2.1 this.2.2.2
  refine ⟨t, h1, ?_, hq .sp, ?_, hp⟩
  · rw [hq .pc, if_pos rfl, Memory.word, Memory.word, keep _ (by simp), keep _ (by simp)]
  · rw [← keep _ (by simp)]; exact hl

/-- The vectors of the T rows in memory, the stack at 0x1000. -/
def trapState (pc : Nat) (psw : Byte) (c : Config := cfg) : State :=
  machineAt pc [(.sp, 0x1000)] psw
    [(0x0018, 0x0500), (0x001A, 0x00E0), (0x001C, 0x0600), (0x001E, 0x00FF), (0x000C, 0x0700),
     (0x0010, 0x0800), (0x0012, 0x0020), (0x0008, 0x0900), (0x000A, 0x00E0)] c

/-- T2: EMT 0xFF. -/
theorem test_emt :
    ∃ t, exec (.emt 0xFF) (trapState 0x0202 0x05) = .next t ∧ t.get .pc = 0x0500 ∧
      t.psw.prio.toNat = 7 ∧ t.mem.get 0x0FFE = 0x05 := by
  obtain ⟨t, h, hpc, _, hpsw, hst⟩ := @entered 0x0018 (trapState 0x0202 0x05) (by decide) (by decide)
    (by decide) (by decide)
  exact ⟨t, congrArg toOutcome h, hpc.trans (by decide), hpsw.1.trans (by decide), hst⟩

/-- T3: TRAP 0; the vector's PSW 0x00FF loads with T = 0. -/
theorem test_trap :
    ∃ t, exec (.trap 0) (trapState 0x0202 0xE9) = .next t ∧ t.get .pc = 0x0600 ∧
      t.psw.t = false ∧ t.psw.cc.z = true := by
  obtain ⟨t, h, hpc, _, hpsw, _⟩ := @entered 0x001C (trapState 0x0202 0xE9) (by decide) (by decide)
    (by decide) (by decide)
  exact ⟨t, congrArg toOutcome h, hpc.trans (by decide), hpsw.2.1.trans (by decide),
    hpsw.2.2.2.1.trans (by decide)⟩

/-- T4: BPT. -/
theorem test_bpt :
    ∃ t, exec .bpt (trapState 0x0202 0x4F) = .next t ∧ t.get .pc = 0x0700 ∧
      t.get .sp = 0x0FFC := by
  obtain ⟨t, h, hpc, hsp, _⟩ := @entered 0x000C (trapState 0x0202 0x4F) (by decide) (by decide)
    (by decide) (by decide)
  exact ⟨t, congrArg toOutcome h, hpc.trans (by decide), hsp.trans (by decide)⟩

/-- T5: IOT. -/
theorem test_iot :
    ∃ t, exec .iot (trapState 0x0202 0x00) = .next t ∧ t.get .pc = 0x0800 ∧
      t.psw.prio.toNat = 1 := by
  obtain ⟨t, h, hpc, _, hpsw, _⟩ := @entered 0x0010 (trapState 0x0202 0x00) (by decide) (by decide)
    (by decide) (by decide)
  exact ⟨t, congrArg toOutcome h, hpc.trans (by decide), hpsw.1.trans (by decide)⟩

/-- T22: an illegal word is skipped with ILE = 0. -/
theorem test_illegal_skipped :
    after (machineAt 0x0200 [(.sp, 0x1000)] 0x0F [(0x0200, 0x0008)]) (see .pc) =
      some (0x0202, 0x0F) := by
  decide

/-- T23: the Illegal Operation trap with ILE = 1. -/
theorem test_illegal_traps :
    ∃ t, illegalOpcode (trapState 0x0202 0x0F
        { cfg with settings := { Settings.cleared with ile := true } }) = .ok t ∧
      t.get .pc = 0x0900 ∧ t.psw.prio.toNat = 7 := by
  obtain ⟨t, h, hpc, _, hpsw, _⟩ := @entered 0x0008 (trapState 0x0202 0x0F
    { cfg with settings := { Settings.cleared with ile := true } }) (by decide) (by decide) (by decide)
    (by decide)
  exact ⟨t, h, hpc.trans (by decide), hpsw.1.trans (by decide)⟩

/-- E3: with prio 5 and IRQ5 and IRQ6 latched, IRQ6 is served. -/
theorem test_irq_highest :
    let s := machineAt 0x0202 [] 0xA1 []
    highestAcceptable { s with irq := { s.irq with l5 := true, l6 := true } } = some .irq6 := by
  decide

/-- E14, X5: the vector of IRQ7 with IVB = 0xFFE0, and of IRQ1 with IVB = 0x0040. -/
theorem test_irqVector :
    irqVector { State.reset with ivb := 0xFFE0 } .irq7 = 0xFFFC ∧
    irqVector { State.reset with ivb := 0x0040 } .irq1 = 0x0044 := by
  decide

/-! ## Peripheral events -/

/-- A state with an event to come. -/
def next (io : Periph) (e : Event) : State :=
  { machineAt 0x0200 [] 0x00 [] with io := io, script := [e] }

/-- M1, the third tick: TMR0 = TTOP0 = 2 resets and latches IRQ1. -/
theorem test_timer_reset :
    after (next { Periph.reset with tint := 1, t0 := { TimerRegs.reset with top := 2, count := 2 } }
      (.timerTick .timer0)) (fun t => (t.io.t0.count, t.irq.l1)) = some (0, true) := by
  decide

/-- M3: TMR0 above TTOP0 resets too; nothing is latched with TINT = 0. -/
theorem test_timer_above :
    after (next { Periph.reset with t0 := { TimerRegs.reset with top := 5, count := 9 } }
      (.timerTick .timer0)) (fun t => (t.io.t0.count, t.irq.l1)) = some (0, false) := by
  decide

/-- M5: a rising edge on PA1 latches IRQ2, a level that stays high does not. -/
theorem test_pin_edge :
    [0x00, 0x02].map (fun p => after (next { Periph.reset with inta := 0xF, pins := p }
      (.pinChange 1 true)) (fun t => t.irq.l2)) = [some true, some false] := by
  decide

/-- M7: an output pin latches nothing; PA3 latches IRQ6, PA4 IRQ7; PA0 and PA5 nothing. -/
theorem test_pin_lines :
    [2, 3, 4, 0, 5].map (fun i => after (next { Periph.reset with inta := 0xF, ddra := 0x04 }
      (.pinChange i true)) (fun t => t.irq)) =
    [some State.reset.irq, some { State.reset.irq with l6 := true },
     some { State.reset.irq with l7 := true }, some State.reset.irq, some State.reset.irq] := by
  decide

/-- M9: the end of an SPI transfer. -/
theorem test_spi_done :
    after (next { Periph.reset with sbys := true, spiTx := 0xA5 } (.spiDone 0x3C))
      (fun t => (t.io.spiRx, t.io.sbys)) = some (0x3C, false) := by
  decide

/-- R370: with SDIV = 1 the third clock period passes one bit of an SPI transfer. -/
theorem test_spi_bit :
    (match Sys2Proof.core.run 3 { State.reset with
        io := { Periph.reset with sdiv := 1, sbys := true }, script := [.clock, .clock, .clock] } with
      | .next t => some (State.io t |>.spiBits, State.io t |>.spiDiv, State.io t |>.sbys)
      | _ => none) = some (1, 0, true) := by rfl

/-- R375: the start bit does not enter the receive shifter, the data bit after it does. -/
theorem test_uart_rx_bit :
    [0, 1].map (fun c => after (next { Periph.reset with uartRxBits := c, uartRxShift := 0x02 }
      (.uartRxBit true)) (fun t => (t.io.uartRxShift, t.io.uartRxBits))) =
    [some (0x02, 1), some (0x81, 2)] := by
  decide

/-- M10: a byte arrives while the UART sends. -/
theorem test_uart_rx :
    after (next { Periph.reset with ubsy := true } (.uartRx 0x55))
      (fun t => (t.io.uartRx, t.io.ubsy)) = some (0x55, true) := by
  decide

/-- X4: the PC is SADDR * 2 after reset. -/
theorem test_reset_saddr :
    after (next Periph.reset (.reset { Settings.cleared with saddr := 0x0100 }))
      (fun t => t.get .pc) = some 0x0200 := by
  decide

/-! ## States and operands that meet the hypotheses of the statements

One theorem for each statement of Certificates/Slice0/Obligations.lean that has hypotheses, each of
its clauses at a boundary of its range (`enc.ok`, which the clauses on OPEN encodings ask for, is
`test_encodings_accepted`). OperandModes, IllegalWords, SampleWords, SobResult,
SimpleBranches, ComparisonBranches, ImpliedInstructions and CcOperators hold for every state and
operand without a hypothesis; their branches are decided by the values. -/

/-- MPSW = 1, TEN = 1; R1 holds the highest even address, R2 the highest odd one, R3 and the SP an
address that holds 0x1000. -/
def sample : State :=
  machineAt 0x0200 [(.r0, 0x7FFF), (.r1, 0xFFFE), (.r2, 0xFFFF), (.r3, 0x1000), (.sp, 0x1000)] 0x2D
    [(0x0200, 0x1000), (0x1000, 0x1000), (0xFFFE, 0x8000)]
    { cfg with settings := { Settings.cleared with mpsw := true, ten := true } }

/-- `sample` with an odd SP. -/
def oddStack : State := sample.set .sp 0xFFFF

/-- A word operand that can be read, in a state of canonical memory. -/
def ReadsWordAt (d : Operand) (s : State) : Prop :=
  s.mem.wf = true ∧ ∃ s1 l x, operand d .word s = .ok (l, s1) ∧ rdWord l s1 = .ok x

/-- A word operand that can be written. -/
def WritesWordAt (d : Operand) (s : State) : Prop :=
  s.mem.wf = true ∧ ∃ s1 l, operand d .word s = .ok (l, s1) ∧ Writable l

/-- A byte operand. -/
def ByteAt (d : Operand) (s : State) : Prop :=
  s.mem.wf = true ∧ ∃ s1 l, operand d .byte s = .ok (l, s1)

/-- A word source. -/
def SourceAt (o : Operand) (s : State) : Prop :=
  ∃ x s1, sourceWord o s = .ok (x, s1)

/-- A byte source. -/
def ByteSourceAt (o : Operand) (s : State) : Prop :=
  ∃ x s1, sourceByte o s = .ok (x, s1)

/-- A word source and a word destination that can be read and written. -/
def BothWordsAt (src dst : Operand) (s : State) : Prop :=
  s.mem.wf = true ∧ ∃ x s1 l s2 y, sourceWord src s = .ok (x, s1) ∧
    operand dst .word s1 = .ok (l, s2) ∧ rdWord l s2 = .ok y ∧ Writable l

/-- A byte source and a byte destination. -/
def BothBytesAt (src dst : Operand) (s : State) : Prop :=
  s.mem.wf = true ∧ ∃ x s1 l s2, sourceByte src s = .ok (x, s1) ∧ operand dst .byte s1 = .ok (l, s2)

/-- Operands of `ModifiesBoth`: a register, the last word, the last byte, the PSW window. -/
def UnaryCases : Prop :=
  ReadsWordAt ⟨.register, .r0⟩ sample ∧ ReadsWordAt ⟨.deferred, .r1⟩ sample ∧
  ByteAt ⟨.register, .r0⟩ sample ∧ ByteAt ⟨.deferred, .r2⟩ sample ∧ ByteAt ⟨.autoinc, .r1⟩ sample

theorem unaryCases : UnaryCases :=
  ⟨⟨by decide, _, _, _, rfl, rfl⟩, ⟨by decide, _, _, _, rfl, rfl⟩, ⟨by decide, _, _, rfl⟩,
   ⟨by decide, _, _, rfl⟩, ⟨by decide, _, _, rfl⟩⟩

/-- Operands of the two-operand statements: register to register, memory to memory with both registers
stepped, a byte to the PSW window. -/
def BinaryCases : Prop :=
  BothWordsAt ⟨.register, .r0⟩ ⟨.register, .pc⟩ sample ∧
  BothWordsAt ⟨.autoinc, .r3⟩ ⟨.autoinc, .r1⟩ sample ∧
  BothBytesAt ⟨.autodec, .sp⟩ ⟨.register, .r0⟩ sample ∧
  BothBytesAt ⟨.register, .r0⟩ ⟨.deferred, .r1⟩ sample

theorem binaryCases : BinaryCases :=
  ⟨⟨by decide, _, _, _, _, _, rfl, rfl, rfl, trivial⟩,
   ⟨by decide, _, _, _, _, _, rfl, rfl, rfl, by show _ = _; decide⟩,
   ⟨by decide, _, _, _, _, rfl, rfl⟩, ⟨by decide, _, _, _, _, rfl, rfl⟩⟩

theorem witness_ResetValues :
    (next Periph.reset (.reset Settings.cleared)).script = .reset Settings.cleared :: [] ∧
    (next Periph.reset (.reset Settings.cleared)).cfg.sw.irqLatchReset = .clear := ⟨rfl, rfl⟩

theorem witness_DecodeOfEncode :
    enc.ok = true ∧ (Instr.ior .pc ⟨.indexedDeferred, .pc⟩).wellFormed = true ∧
    (Instr.ccop true false false false false).wellFormed = true := by decide

theorem witness_EncodeOfDecode :
    decode enc 0x7DFF = .ok (.iow .pc ⟨.indexedDeferred, .pc⟩) := rfl

theorem witness_WordMemory :
    sample.mem.wf = true ∧ (0xFFFE : Word).getLsbD 0 = false ∧ (0xFFFF : Word).getLsbD 0 = true ∧
    ¬ AtWindow 0x1000 sample ∧ (0x0200 : Word).getLsbD 0 = false ∧ sample.get .pc = 0x0200 :=
  ⟨by decide, by decide, by decide, fun h => absurd h.2 (by decide), by decide, rfl⟩

theorem witness_PswWindow :
    sample.mem.wf = true ∧ sample.cfg.settings.mpsw = true ∧
    (sample.cfg.settings.mpsw = false ∨ (0xFFFF : Word) ≠ 0xFFFE) ∧
    (State.reset.mem.wf = true ∧ State.reset.cfg.settings.mpsw = false) :=
  ⟨by decide, rfl, .inr (by decide), rfl, rfl⟩

theorem witness_OddPcStops :
    let s := sample.set .pc 0xFFFF
    (s.get .pc).getLsbD 0 = true ∧ s.script = [] ∧ s.run = .running := ⟨by decide, rfl, rfl⟩

theorem witness_OperandStops :
    Instr.sxt ∈ wordUnary ∧ Instr.mfps ∈ byteUnary ∧ Instr.iow ∈ wordWithReg ∧
    Instr.sub ∈ wordBinary ∧ Instr.bisb ∈ byteBinary ∧
    (∀ sz, operand ⟨.autoincDeferred, .r2⟩ sz sample = .error (.oddWordAddress 0xFFFF)) ∧
    operand ⟨.indexed, .r0⟩ .byte (sample.set .pc 0x0001) = .error (.oddPc 0x0001) ∧
    (operand ⟨.deferred, .r2⟩ .word sample = .ok (.mem 0xFFFF, sample) ∧
      (0xFFFF : Word).getLsbD 0 = true) ∧
    (∀ sz, operand ⟨.deferred, .r1⟩ sz sample = .ok (.mem 0xFFFE, sample)) ∧
    Writable (.mem 0xFFFE) := by
  refine ⟨by simp [wordUnary], by simp [byteUnary], by simp [wordWithReg], by simp [wordBinary],
    by simp [byteBinary], fun sz => rfl, rfl, ⟨rfl, by decide⟩, fun sz => rfl, ?_⟩
  show _ = _
  decide

theorem witness_OddStackStops :
    (oddStack.get .sp).getLsbD 0 = true ∧
    (sample.cfg.sw.markRule = .source ∧
      (sample.get .sp + (63 : BitVec 6).setWidth 16).getLsbD 0 = true) ∧
    operand ⟨.deferred, .r3⟩ .word oddStack = .ok (.mem 0x1000, oddStack) :=
  ⟨by decide, ⟨rfl, by decide⟩, rfl⟩

theorem witness_ClrResult :
    WritesWordAt ⟨.register, .pc⟩ sample ∧ WritesWordAt ⟨.deferred, .r1⟩ sample ∧
    ByteAt ⟨.register, .r0⟩ sample ∧ ByteAt ⟨.deferred, .r2⟩ sample ∧ ByteAt ⟨.deferred, .r1⟩ sample :=
  ⟨⟨by decide, _, _, rfl, trivial⟩, ⟨by decide, _, _, rfl, by show _ = _; decide⟩,
   ⟨by decide, _, _, rfl⟩, ⟨by decide, _, _, rfl⟩, ⟨by decide, _, _, rfl⟩⟩

theorem witness_ComResult : UnaryCases := unaryCases
theorem witness_IncDecResult : UnaryCases := unaryCases
theorem witness_NegResult : UnaryCases := unaryCases
theorem witness_TstResult : UnaryCases := unaryCases
theorem witness_AsrAslResult : UnaryCases := unaryCases
theorem witness_RorRolResult : UnaryCases := unaryCases
theorem witness_AdcSbcResult : UnaryCases := unaryCases
theorem witness_SwabResult : UnaryCases := unaryCases

theorem witness_SxtResult :
    WritesWordAt ⟨.register, .sp⟩ sample ∧ WritesWordAt ⟨.autodec, .r1⟩ sample :=
  ⟨⟨by decide, _, _, rfl, trivial⟩, ⟨by decide, _, _, rfl, by show _ = _; decide⟩⟩

theorem witness_MovResult : BinaryCases := binaryCases
theorem witness_AddSubResult : BinaryCases := binaryCases

/-- `ComparesBoth` reads its destination as a second source. -/
theorem witness_CmpResult :
    (∃ x s1 y s2, sourceWord ⟨.autoinc, .r1⟩ sample = .ok (x, s1) ∧
      sourceWord ⟨.register, .r1⟩ s1 = .ok (y, s2)) ∧
    (∃ x s1 y s2, sourceByte ⟨.deferred, .r2⟩ sample = .ok (x, s1) ∧
      sourceByte ⟨.register, .r0⟩ s1 = .ok (y, s2)) :=
  ⟨⟨_, _, _, _, rfl, rfl⟩, ⟨_, _, _, _, rfl, rfl⟩⟩

theorem witness_BitResult :
    BinaryCases ∧
    (∃ x s1 y s2, sourceWord ⟨.autoinc, .r1⟩ sample = .ok (x, s1) ∧
      sourceWord ⟨.register, .r1⟩ s1 = .ok (y, s2)) ∧
    (∃ x s1 y s2, sourceByte ⟨.deferred, .r2⟩ sample = .ok (x, s1) ∧
      sourceByte ⟨.register, .r0⟩ s1 = .ok (y, s2)) :=
  ⟨binaryCases, ⟨_, _, _, _, rfl, rfl⟩, ⟨_, _, _, _, rfl, rfl⟩⟩

theorem witness_MulResult :
    SourceAt ⟨.register, .r0⟩ sample ∧ Reg.sp.bits.getLsbD 0 = false ∧ Reg.pc.bits.getLsbD 0 = true :=
  ⟨⟨_, _, rfl⟩, by decide, by decide⟩

/-- Operands of DIV in R0, R1 and R2, and a configuration that lists three rows of DIV_NUMERICS. -/
def listing (hi lo src : Word) : State :=
  machineAt 0x0200 [(.r0, hi), (.r1, lo), (.r2, src)] 0 []
    { cfg with div :=
        [⟨0x8000, 0, 0xFFFF, ⟨.towardZero, .pair, true, 0x80000000, false, false⟩⟩,
         ⟨0, 7, 0, ⟨.towardZero, .pair, true, 7, false, true⟩⟩,
         ⟨0, 7, 2, ⟨.towardPosInf, .highWord, false, 0, false, false⟩⟩] }

/-- DIV R2,R0 reads these operands, and this is the row that DIV_NUMERICS lists for them. -/
def ReadsDivisor (hi lo src : Word) (row : Option DivRule) : Prop :=
  let s := listing hi lo src
  sourceWord ⟨.register, .r2⟩ s = .ok (src, s) ∧ s.get .r0 = hi ∧ s.get .r1 = lo ∧
    divListed s.cfg hi lo src = row

/-- A divisor that is not zero, a zero one, the quotient that does not fit; operands listed and not. -/
theorem witness_DivResult :
    sourceWord ⟨.register, .r0⟩ sample = .ok (0x7FFF, sample) ∧ Reg.sp.bits.getLsbD 0 = false ∧
    (0x7FFF : Word) ≠ 0 ∧ sourceWord ⟨.register, .r4⟩ sample = .ok (0, sample) ∧
    ((0x8000 : Word).toInt * 65536 + (0 : Word).toNat = -2147483648 ∧
      sourceWord ⟨.register, .r2⟩ sample = .ok (0xFFFF, sample) ∧ (0xFFFF : Word).toInt = -1) ∧
    ReadsDivisor 0x8000 0 0xFFFF (some ⟨.towardZero, .pair, true, 0x80000000, false, false⟩) ∧
    ReadsDivisor 0 7 0 (some ⟨.towardZero, .pair, true, 7, false, true⟩) ∧
    ReadsDivisor 0 7 2 (some ⟨.towardPosInf, .highWord, false, 0, false, false⟩) ∧
    ReadsDivisor 0 7 1 none :=
  ⟨rfl, by decide, by decide, rfl, ⟨by decide, rfl, by decide⟩, ⟨rfl, rfl, rfl, by decide⟩,
    ⟨rfl, rfl, rfl, by decide⟩, ⟨rfl, rfl, rfl, by decide⟩, ⟨rfl, rfl, rfl, by decide⟩⟩

/-- R192 with a row of DIV_NUMERICS that rounds up and compares the high word: 7 by 2 gives 4. -/
theorem test_div_listed :
    (match exec (.div .r0 ⟨.register, .r2⟩) (listing 0 7 2) with
      | .next t => some (t.get .r0, t.get .r1, t.psw.cc)
      | _ => none) = some (0, 4, ⟨false, false, false, false⟩) := by decide

theorem witness_AshResult : SourceAt ⟨.autoinc, .pc⟩ sample := ⟨_, _, rfl⟩

theorem witness_AshcResult :
    SourceAt ⟨.autoinc, .pc⟩ sample ∧ Reg.r2.bits.getLsbD 0 = false := ⟨⟨_, _, rfl⟩, by decide⟩

theorem witness_OddRegisterPairStops :
    SourceAt ⟨.deferred, .r1⟩ sample ∧ Reg.pc.bits.getLsbD 0 = true := ⟨⟨_, _, rfl⟩, by decide⟩

theorem witness_XorResult :
    ReadsWordAt ⟨.register, .r0⟩ sample ∧ ReadsWordAt ⟨.autodec, .r3⟩ sample :=
  ⟨⟨by decide, _, _, _, rfl, rfl⟩, ⟨by decide, _, _, _, rfl, rfl⟩⟩

theorem witness_JmpResult :
    operand ⟨.register, .r2⟩ .word sample = .ok (.reg .r2, sample) ∧
    (∃ l s1, operand ⟨.indexedDeferred, .pc⟩ .word (sample.set .pc 0x1000) = .ok (l, s1)) :=
  ⟨rfl, _, _, rfl⟩

/-- A push to the top of memory: the SP is 0 before. -/
theorem witness_JsrResult :
    let s := sample.set .sp 0
    s.mem.wf = true ∧ operand ⟨.deferred, .r2⟩ .word s = .ok (.mem 0xFFFF, s) ∧
    (s.get .sp + operandStep ⟨.deferred, .r2⟩ .word s .sp - 2).getLsbD 0 = false :=
  ⟨by decide, rfl, by decide⟩

theorem witness_RtsResult : ((sample.set .sp 0xFFFE).get .sp).getLsbD 0 = false := by decide

/-- Both values of MARK_RULE. -/
theorem witness_MarkResult :
    (sample.cfg.sw.markRule = .source ∧
      (sample.get .sp + BitVec.ofNat 16 (62 : BitVec 6).toNat).getLsbD 0 = false) ∧
    (let c : Config := { cfg with sw := { Switches.defaults with markRule := .pdp11 } }
     ({ sample with cfg := c }).cfg.sw.markRule = .pdp11 ∧
      (({ sample with cfg := c }).get .pc + BitVec.ofNat 16 (2 * (63 : BitVec 6).toNat)).getLsbD 0 =
        false) :=
  ⟨⟨rfl, by decide⟩, rfl, by decide⟩

theorem witness_TrapInstructions :
    sample.mem.wf = true ∧ (sample.get .sp).getLsbD 0 = false ∧
    ((sample.set .sp 0).get .sp).getLsbD 0 = false := by decide

theorem witness_ReturnInstructions : ((sample.set .sp 0xFFFE).get .sp).getLsbD 0 = false := by decide

/-- A register, a byte of memory, the PSW window. -/
theorem witness_MfpsResult :
    ByteAt ⟨.register, .pc⟩ sample ∧
    (operand ⟨.deferred, .r2⟩ .byte sample = .ok (.mem 0xFFFF, sample) ∧ ¬ AtWindow 0xFFFF sample) ∧
    (operand ⟨.deferred, .r1⟩ .byte sample = .ok (.mem 0xFFFE, sample) ∧ AtWindow 0xFFFE sample) :=
  ⟨⟨by decide, _, _, rfl⟩, ⟨rfl, fun h => absurd h.2 (by decide)⟩, rfl, rfl, rfl⟩

theorem witness_MtpsResult :
    ByteSourceAt ⟨.register, .r0⟩ sample ∧ ByteSourceAt ⟨.deferred, .r1⟩ sample :=
  ⟨⟨_, _, rfl⟩, ⟨_, _, rfl⟩⟩

theorem witness_IorResult :
    WritesWordAt ⟨.register, .r0⟩ sample ∧ WritesWordAt ⟨.deferred, .r1⟩ sample :=
  ⟨⟨by decide, _, _, rfl, trivial⟩, ⟨by decide, _, _, rfl, by show _ = _; decide⟩⟩

/-- SDR with the port idle, and an unconnected address with both ports busy. -/
theorem witness_IowResult :
    SourceAt ⟨.register, .r0⟩ sample ∧ ¬ PortBusy sample 0x0C ∧
    ¬ PortBusy { sample with io := { sample.io with sbys := true, ubsy := true } } 0xFF :=
  ⟨⟨_, _, rfl⟩, fun h => h.elim (fun h => absurd h.2 (by decide)) (fun h => absurd h.1 (by decide)),
   fun h => h.elim (fun h => absurd h.1 (by decide)) (fun h => absurd h.1 (by decide))⟩

theorem witness_BusyWriteStops :
    let s := { (sample.set .r4 0xFF0C).set .r5 0x000F with
      io := { sample.io with sbys := true, ubsy := true } }
    SourceAt ⟨.register, .r0⟩ s ∧ s.io.sbys = true ∧ s.io.ubsy = true ∧
    (s.get .r4 + operandStep ⟨.register, .r0⟩ .word s .r4).toNat % 256 = 0x0C ∧
    (s.get .r5 + operandStep ⟨.register, .r0⟩ .word s .r5).toNat % 256 = 0x0F :=
  ⟨⟨_, _, rfl⟩, rfl, rfl, by decide, by decide⟩

/-- MOV R0,R0 stands at the PC; with an empty script, and with a script whose first move is the
CPU's. -/
theorem witness_StepRunsDecoded :
    (sample.script = [] ∧ sample.run = .running ∧ (sample.get .pc).getLsbD 0 = false ∧
      decode sample.cfg.enc (sample.mem.get ((sample.get .pc).toNat + 1) ++
        sample.mem.get (sample.get .pc).toNat) = .ok (.mov ⟨.register, .r0⟩ ⟨.register, .r0⟩)) ∧
    (let s := { sample with script := [.cpu, .clock] }
     ∃ rest, s.script = .cpu :: rest ∧ ({ s with script := rest } : State).run = .running) :=
  ⟨⟨rfl, rfl, by decide, rfl⟩, _, rfl, rfl⟩

/-- `sample` with prio 6, IRQ6 and IRQ7 latched, and the T bit as given. -/
def pending (t : Bool) (order : EventOrder) : State :=
  { sample with
    psw := { sample.psw with prio := 6, t := t }, irq := { sample.irq with l6 := true, l7 := true },
    cfg := { sample.cfg with sw := { Switches.defaults with eventOrder := order } } }

theorem highest_pending (t : Bool) (order : EventOrder) : HighestAcceptable (pending t order) .irq7 :=
  ⟨⟨rfl, by show 6 < 7; decide⟩, fun j _ => by cases j <;> decide⟩

/-- Nothing to take; a trace trap with no request and one before a request; a request with no trace
trap and one before a trace trap. -/
theorem witness_EndOfInstruction :
    (¬ (sample.psw.t = true ∧ sample.tinh = false) ∧ ∀ k, ¬ Acceptable sample k) ∧
    ((pending true .traceFirst).mem.wf = true ∧
      ((pending true .traceFirst).get .sp).getLsbD 0 = false ∧
      (pending true .traceFirst).psw.t = true ∧ (pending true .traceFirst).tinh = false ∧
      (pending true .traceFirst).cfg.sw.eventOrder = .traceFirst) ∧
    ((pending false .traceFirst).ivb &&& 0x001F = 0 ∧
      HighestAcceptable (pending false .traceFirst) .irq7 ∧ (pending false .traceFirst).psw.t = false) ∧
    (HighestAcceptable (pending true .irqFirst) .irq7 ∧
      (pending true .irqFirst).cfg.sw.eventOrder = .irqFirst) :=
  ⟨⟨fun h => absurd h.1 (by decide), fun k h => absurd h.1 (by cases k <;> decide)⟩,
   ⟨by decide, by decide, rfl, rfl, rfl⟩, ⟨rfl, highest_pending _ _, rfl⟩, highest_pending _ _, rfl⟩

/-- Waiting with no latch set; with IRQ7 above prio 6; and with WAIT_WAKE_IGNORES_PRIO and IRQ1 below
it. -/
theorem witness_WaitState :
    (let s := { sample with run := .waiting }
     s.script = [] ∧ s.run = .waiting ∧ s.cfg.sw.waitWakeIgnoresPrio = false ∧
      ∀ k, ¬ Acceptable s k) ∧
    (let s := { pending false .traceFirst with run := .waiting }
     s.mem.wf = true ∧ (s.get .sp).getLsbD 0 = false ∧ s.ivb &&& 0x001F = 0 ∧
      HighestAcceptable s .irq7) ∧
    (let c : Config := { cfg with sw := { Switches.defaults with waitWakeIgnoresPrio := true } }
     let s := { pending false .traceFirst with
       irq := { sample.irq with l1 := true }, run := .waiting, cfg := c }
     s.cfg.sw.waitWakeIgnoresPrio = true ∧ s.irq.get .irq1 = true ∧
      ∀ j, s.irq.get j = true → j.number ≤ Irq.irq1.number) :=
  ⟨⟨rfl, rfl, rfl, fun k h => absurd h.1 (by cases k <;> decide)⟩,
   ⟨by decide, by decide, rfl, highest_pending false .traceFirst⟩, rfl, rfl,
   by intro j; cases j <;> decide⟩

/-- The illegal word 0xFFFF at the PC, with either value of ILE. -/
theorem witness_IllegalOpcode :
    let s (b : Bool) : State := machineAt 0x0200 [(.sp, 0x1000)] 0x00 [(0x0200, 0xFFFF)]
      { cfg with settings := { Settings.cleared with ile := b } }
    ∀ b, (s b).script = [] ∧ (s b).run = .running ∧ ((s b).get .pc).getLsbD 0 = false ∧
      decode (s b).cfg.enc ((s b).mem.get (((s b).get .pc).toNat + 1) ++
        (s b).mem.get ((s b).get .pc).toNat) = .error (.illegalOpcode 0xFFFF) ∧
      (s b).cfg.settings.ile = b ∧ (s b).mem.wf = true ∧ ((s b).get .sp).getLsbD 0 = false := by
  intro s b
  cases b <;> exact ⟨rfl, rfl, by decide, (congrArg (decode enc) (by decide : _ = (0xFFFF : Word))).trans rfl,
    rfl, by decide, by decide⟩

/-- A halted CPU with no move to come, and one with a timer tick to come. -/
theorem witness_HaltedForever :
    (let s := { sample with run := .halted }
     s.run = .halted ∧ ∀ st rest, s.script ≠ .reset st :: rest) ∧
    (let s := { sample with run := .halted, script := [.timerTick .timer1] }
     s.run = .halted ∧ ∀ st rest, s.script ≠ .reset st :: rest) := by
  exact ⟨⟨rfl, fun _ _ h => by cases h⟩, rfl, fun _ _ h => by cases h⟩

/-- A tick of each timer, the count at the top and below it. -/
theorem witness_TimerTick :
    (next { Periph.reset with t0 := { TimerRegs.reset with top := 0xFFFF, count := 0xFFFF }, tint := 1 }
      (.timerTick .timer0)).script = .timerTick .timer0 :: [] ∧
    (next { Periph.reset with t1 := { TimerRegs.reset with top := 1 } }
      (.timerTick .timer1)).script = .timerTick .timer1 :: [] := ⟨rfl, rfl⟩

/-- Either timer: one clock period with TnPRE = 0, and a part of a period of 65,535. -/
theorem witness_TimerRate :
    (let s : State := { State.reset with script := List.replicate 1 .clock ++ [] }
     (s.io.timer .timer1).presc = 0 ∧ 1 = max (s.io.timer .timer1).pre.toNat 1 ∧
       s.script = List.replicate 1 .clock ++ []) ∧
    (let s : State := { State.reset with
       io := { Periph.reset with t0 := { TimerRegs.reset with pre := 0xFFFF } },
       script := List.replicate 3 .clock ++ [.cpu] }
     (s.io.timer .timer0).presc = 0 ∧ 3 < max (s.io.timer .timer0).pre.toNat 1 ∧
       s.script = List.replicate 3 .clock ++ [.cpu]) :=
  ⟨⟨rfl, by decide, rfl⟩, rfl, by decide, rfl⟩

/-- R361: two clock periods with T0PRE = 2 and T1PRE = 0 tick timer 0 once and timer 1 twice. -/
theorem test_clock_periods :
    (match Sys2Proof.core.run 2 { State.reset with
        io := { Periph.reset with
          t0 := { TimerRegs.reset with pre := 2, top := 9 }, t1 := { TimerRegs.reset with top := 9 } },
        script := [.clock, .clock] } with
      | .next t => some (State.io t |>.t0.count, State.io t |>.t1.count)
      | _ => none) = some (1, 2) := by rfl

theorem witness_PinChange :
    (next { Periph.reset with inta := 0xF } (.pinChange 4 true)).script = .pinChange 4 true :: [] ∧
    (next Periph.reset (.pinChange 6 false)).script = .pinChange 6 false :: [] := ⟨rfl, rfl⟩

theorem witness_SerialEvents :
    (let s := next { Periph.reset with sbys := true } (.spiDone 0xFF)
     s.script = .spiDone 0xFF :: [] ∧ s.io.sbys = true) ∧
    (let s := next { Periph.reset with ubsy := true } .uartTxDone
     s.script = .uartTxDone :: [] ∧ s.io.ubsy = true) ∧
    (next Periph.reset (.uartRx 0)).script = .uartRx 0 :: [] := ⟨⟨rfl, rfl⟩, ⟨rfl, rfl⟩, rfl⟩

/-- A transfer at its start with the smallest and the largest SDIV, and an idle port; a transmitter at
its first and last bit, and idle; a receiver at the start bit, at the last data bit and past it. -/
theorem witness_SerialCounters :
    (let s : State := { State.reset with
       io := { Periph.reset with sbys := true }, script := List.replicate 9 .clock ++ [] }
     s.script = List.replicate 9 .clock ++ [] ∧ s.io.sbys = true ∧ s.io.spiDiv = 0 ∧
       s.io.spiBits = 0) ∧
    (let s : State := { State.reset with
       io := { Periph.reset with sbys := true, sdiv := 0xFFFF },
       script := List.replicate 1 .clock ++ [.cpu] }
     s.script = List.replicate 1 .clock ++ [.cpu] ∧ s.io.sbys = true ∧ s.io.spiDiv = 0 ∧
       s.io.spiBits = 0) ∧
    (next Periph.reset .clock).script = List.replicate 1 .clock ++ [] ∧
    (next Periph.reset .clock).io.sbys = false ∧
    ([0, 10].all fun c =>
      let s := next { Periph.reset with ubsy := true, uartTxBits := c } .uartTxBit
      s.script == .uartTxBit :: [] && s.io.ubsy && decide (s.io.uartTxBits.toNat ≤ 10)) = true ∧
    (next Periph.reset .uartTxBit).script = .uartTxBit :: [] ∧
    (next Periph.reset .uartTxBit).io.ubsy = false ∧
    ([0, 8, 10].all fun c =>
      let s := next { Periph.reset with uartRxBits := c } (.uartRxBit true)
      s.script == .uartRxBit true :: [] && decide (s.io.uartRxBits.toNat ≤ 10)) = true := by
  refine ⟨⟨rfl, rfl, rfl, rfl⟩, ⟨rfl, rfl, rfl, rfl⟩, rfl, rfl, by decide, rfl, rfl, by decide⟩

/-- A state that meets the invariant and has a next one. -/
theorem witness_StepKeepsInvariant :
    Invariant (machineAt 0x0200 [] 0x00 []) ∧ ∃ t, step (machineAt 0x0200 [] 0x00 []) = .next t :=
  ⟨⟨by decide, rfl, fun h => absurd h (by decide), rfl, by show _ < _; decide, by show _ < _; decide,
    by show _ < _; decide, by show _ < _; decide⟩, _, rfl⟩

/-- An instruction that answers a next state. -/
theorem witness_InstructionScope :
    ∃ t, exec (.mov ⟨.register, .r0⟩ ⟨.deferred, .r1⟩) sample = .next t := ⟨_, rfl⟩

end Sys2Proof.Tests
end

section
/-! The instruction cycle (00_scope.md R9): whose move a step is, what a fetched word runs, and what
follows an instruction, each said once; and the statement that a step runs the decoded instruction. -/

namespace Sys2Proof.Machine

open Sys2Proof

/-! ## What follows an instruction (R9 step 4, R330) -/

theorem complete_of_halted {t : State} (h : t.run = .halted) : complete (.next t) = .next t := by
  simp [complete, h]

theorem complete_of_not_halted {t : State} (h : t.run ≠ .halted) :
    complete (.next t) = toOutcome (endCheck t) := by
  cases hrun : t.run with
  | halted => exact absurd hrun h
  | running => simp [complete, hrun]
  | waiting => simp [complete, hrun]

@[simp] theorem complete_fault (f : Fault) : complete (.fault f) = .fault f := rfl

@[simp] theorem complete_refused (r : Refusal) : complete (.refused r) = .refused r := rfl

/-! ## Whose move a step is (R33, R349) -/

theorem step_of_script_nil {s : State} (h : s.script = []) : step s = cpuStep s := by
  simp [step, nextMove, h]

theorem step_of_script_cpu {s : State} {rest : List Event} (h : s.script = .cpu :: rest) :
    step s = cpuStep { s with script := rest } := by
  simp [step, nextMove, h]

theorem cpuStep_running {s : State} (h : s.run = .running) : cpuStep s = runInstruction s := by
  simp [cpuStep, h]

/-! ## Fetch, decode and run (R9 steps 2 and 3) -/

theorem perform_decoded {w : Word} {s : State} {i : Instr} (h : decode s.cfg.enc w = .ok i) :
    perform w s = exec i s := by
  simp [perform, h]

theorem runInstruction_even {s : State} (h : isOdd (s.get .pc) = false) :
    runInstruction s =
      complete (perform (s.mem.word (s.get .pc)) (s.set .pc (s.get .pc + 2))) := by
  simp [runInstruction, fetch_even h]

theorem cpuStep_decoded {s : State} {i : Instr} (hrun : s.run = .running)
    (hpc : isOdd (s.get .pc) = false)
    (hdec : decode s.cfg.enc (s.mem.word (s.get .pc)) = .ok i) :
    cpuStep s = complete (exec i (s.set .pc (s.get .pc + 2))) := by
  rw [cpuStep_running hrun, runInstruction_even hpc, perform_decoded (by rwa [set_cfg])]

theorem step_decoded {s s0 : State} {i : Instr}
    (hmove : s.script = [] ∧ s0 = s ∨
      ∃ rest, s.script = .cpu :: rest ∧ s0 = { s with script := rest })
    (hrun : s.run = .running) (hpc : isOdd (s.get .pc) = false)
    (hdec : decode s.cfg.enc (s.mem.word (s.get .pc)) = .ok i) :
    step s = complete (exec i (s0.set .pc (s.get .pc + 2))) := by
  obtain ⟨hnil, rfl⟩ | ⟨rest, hcpu, rfl⟩ := hmove
  · rw [step_of_script_nil hnil]
    exact cpuStep_decoded hrun hpc hdec
  · rw [step_of_script_cpu hcpu]
    exact cpuStep_decoded (s := { s with script := rest }) hrun hpc hdec

/-- Settles O48: the step is `complete` of the decoded instruction, and `complete` is split by the
instruction's outcome, then by whether it halted the CPU. -/
theorem stepRunsDecoded : Obligations.StepRunsDecoded := by
  intro s s0 i hmove hrun hpc hdec
  rw [step_decoded hmove hrun hpc hdec]
  cases exec i (s0.set .pc (s.get .pc + 2)) with
  | fault f => exact complete_fault f
  | refused r => exact complete_refused r
  | next t =>
    by_cases hhalt : t.run = .halted
    · simp only [complete_of_halted hhalt, if_pos hhalt]
    · simp only [complete_of_not_halted hhalt, if_neg hhalt]
      cases endCheck t with
      | ok u => rfl
      | error f => rfl

end Sys2Proof.Machine
end

section
/-! The state of the machine as a whole (10_state.md): what the host's reset leaves, which parts of
the state an instruction can change, the invariant of every step, and the hidden counters of the
serial ports. -/

namespace Sys2Proof.Machine

open Sys2Proof Sys2Proof.Safety

/-! ## A move of an agent other than the CPU (R349) -/

theorem step_of_script_event {s : State} {e : Event} {rest : List Event}
    (h : s.script = e :: rest) (he : e ≠ .cpu) :
    step s = .next (applyEvent e { s with script := rest }) := by
  unfold step nextMove
  rw [h]
  cases e with
  | cpu => exact absurd rfl he
  | _ => rfl

/-! ## The host's reset (R38, R390 to R392) -/

theorem append_zero_eq_double (x : BitVec 15) :
    (x ++ (0 : BitVec 1) : Word) = BitVec.ofNat 16 (2 * x.toNat) := by
  apply BitVec.eq_of_toNat_eq
  have := x.isLt
  simp only [BitVec.toNat_append, BitVec.toNat_ofNat, Nat.shiftLeft_eq]
  simp
  omega

/-- R0 to R6 zero, the PC at SADDR * 2 (R38, R392). -/
theorem hostReset_get (st : Settings) (s : State) (q : Reg) :
    (hostReset st s).get q = if q = .pc then BitVec.ofNat 16 (2 * st.saddr.toNat) else 0 := by
  cases q with
  | pc => exact append_zero_eq_double st.saddr
  | _ => rfl

theorem irqAfterReset_clear (b : Byte) (k : Irq) : (irqAfterReset .clear b).get k = false := by
  cases k <;> rfl

/-- Settles O1: the reset is one move of the script, and each part of `hostReset` is read off. -/
theorem resetValues : Obligations.ResetValues := by
  refine ⟨fun s st rest hs => ?_, fun q => by cases q <;> rfl, by decide, rfl, rfl,
    fun k => by cases k <;> rfl, rfl, rfl, rfl, rfl, rfl, rfl, rfl⟩
  refine ⟨hostReset st { s with script := rest }, step_of_script_event hs nofun,
    hostReset_get st _, by show pswByte State.reset.psw = 0; decide, rfl, rfl, hostReset_ivb st _,
    fun hclear k => ?_, rfl, rfl, rfl, rfl, rfl, rfl, rfl, fun _ => rfl, rfl, rfl⟩
  show (irqAfterReset s.cfg.sw.irqLatchReset _).get k = false
  rw [hclear]
  exact irqAfterReset_clear _ k

/-! ## Instructions that act locally

`Local` bounds what every instruction changes but HALT, WAIT, SVB, RTT and IOW. -/

/-- An outcome that is no refusal, and whose next state, if there is one, meets `P`. -/
structure Answers (P : State → Prop) (o : Host.Outcome State Fault Refusal) : Prop where
  meaning : ∀ r, o ≠ .refused r
  next : ∀ t, o = .next t → P t

theorem answers_next {P : State → Prop} {t : State} (h : P t) : Answers P (.next t) :=
  ⟨nofun, fun _ ht => by cases ht; exact h⟩

theorem answers_toOutcome {P : State → Prop} {x : Except Fault State}
    (h : ∀ t, x = .ok t → P t) : Answers P (toOutcome x) :=
  ⟨fun r hr => by (cases x <;> cases hr), fun t ht => h t (toOutcome_next ht)⟩

theorem answers_mono {P Q : State → Prop} {o : Host.Outcome State Fault Refusal}
    (h : Answers P o) (hPQ : ∀ t, P t → Q t) : Answers Q o :=
  ⟨h.meaning, fun t ht => hPQ t (h.next t ht)⟩

theorem execMov_local (src dst : Operand) (s : State) :
    Answers (Local s) (execMov src dst s) :=
  answers_toOutcome fun _ h => by
    obtain ⟨_, hsrc, hdst⟩ := bind_ok h
    exact local_trans (local_sourceWord hsrc) (local_produceWord hdst)

theorem local_moveByte {v : Byte} {dst : Operand} {s t : State} (h : moveByte v dst s = .ok t) :
    Local s t := by
  obtain ⟨⟨l, s1⟩, hdst, hwr⟩ := bind_ok h
  refine local_trans (local_operand hdst) ?_
  cases l with
  | reg r => cases hwr; exact local_trans (local_set s1 r _) (local_setCc _ _)
  | mem a => cases hwr; exact local_commitByte _ _ _

theorem execMovb_local (src dst : Operand) (s : State) :
    Answers (Local s) (execMovb src dst s) :=
  answers_toOutcome fun _ h => by
    obtain ⟨_, hsrc, hdst⟩ := bind_ok h
    exact local_trans (local_sourceByte hsrc) (local_moveByte hdst)

theorem execMul_local (reg : Reg) (src : Operand) (s : State) :
    Answers (Local s) (execMul reg src s) :=
  answers_toOutcome fun _ h => by
    obtain ⟨_, hsrc, hwr⟩ := bind_ok h
    cases hwr
    refine local_trans (local_sourceWord hsrc) (local_trans ?_ (local_setCc _ _))
    split
    · exact local_set _ _ _
    · exact local_setPair _ _ _

theorem execDiv_local (reg : Reg) (src : Operand) (s : State) :
    Answers (Local s) (execDiv reg src s) :=
  answers_toOutcome fun _ h => by
    obtain ⟨_, hsrc, hwr⟩ := bind_ok h
    split at hwr
    · cases hwr
    · cases hwr
      refine local_trans (local_sourceWord hsrc) (local_trans ?_ (local_setCc _ _))
      split
      · exact local_setPair _ _ _
      · exact local_refl _

theorem execAsh_local (reg : Reg) (src : Operand) (s : State) :
    Answers (Local s) (execAsh reg src s) :=
  answers_toOutcome fun _ h => by
    obtain ⟨_, hsrc, hwr⟩ := bind_ok h
    cases hwr
    exact local_trans (local_sourceWord hsrc) (local_trans (local_set _ _ _) (local_setCc _ _))

theorem execAshc_local (reg : Reg) (src : Operand) (s : State) :
    Answers (Local s) (execAshc reg src s) :=
  answers_toOutcome fun _ h => by
    obtain ⟨_, hsrc, hwr⟩ := bind_ok h
    split at hwr
    · cases hwr
    · cases hwr
      exact local_trans (local_sourceWord hsrc)
        (local_trans (local_setPair _ _ _) (local_setCc _ _))

theorem execXor_local (reg : Reg) (dst : Operand) (s : State) :
    Answers (Local s) (execXor reg dst s) :=
  answers_toOutcome fun _ h => by
    obtain ⟨_, hdst, hrd⟩ := bind_ok h
    obtain ⟨_, _, hwr⟩ := bind_ok hrd
    exact local_trans (local_operand hdst) (local_commitWord hwr)

theorem execJmp_local (dst : Operand) (s : State) : Answers (Local s) (execJmp dst s) :=
  answers_toOutcome fun _ h => by
    obtain ⟨_, hea, hpc⟩ := bind_ok h
    cases hpc
    exact local_trans (local_effectiveAddress hea) (local_set _ _ _)

theorem execJsr_local (reg : Reg) (dst : Operand) (s : State) :
    Answers (Local s) (execJsr reg dst s) :=
  answers_toOutcome fun _ h => by
    obtain ⟨_, hea, hrest⟩ := bind_ok h
    obtain ⟨_, hpush, hpc⟩ := bind_ok hrest
    cases hpc
    exact local_trans (local_effectiveAddress hea)
      (local_trans (local_push hpush) (local_trans (local_set _ _ _) (local_set _ _ _)))

theorem execRts_local (reg : Reg) (s : State) : Answers (Local s) (execRts reg s) :=
  answers_toOutcome fun _ h => by
    obtain ⟨_, hpop, hreg⟩ := bind_ok h
    cases hreg
    exact local_trans (local_set _ _ _) (local_trans (local_pop hpop) (local_set _ _ _))

theorem execMark_local (n : BitVec 6) (s : State) : Answers (Local s) (execMark n s) :=
  answers_toOutcome fun _ h => by
    obtain ⟨_, hpop, hr5⟩ := bind_ok h
    cases hr5
    exact local_trans (local_set _ _ _)
      (local_trans (local_set _ _ _) (local_trans (local_pop hpop) (local_set _ _ _)))

theorem execSob_local (reg : Reg) (x : BitVec 6) (s : State) :
    Answers (Local s) (execSob reg x s) := by
  refine answers_next ?_
  split
  · exact local_set _ _ _
  · exact local_trans (local_set _ _ _) (local_set _ _ _)

/-- TRACE sets T under TEN (R28, R270), which is what `Local` asks of T. -/
theorem execTrace_local (s : State) : Answers (Local s) (execTrace s) :=
  answers_next ⟨rfl, rfl, rfl, rfl, rfl, rfl, .inl rfl, id, fun _ h => h⟩

theorem execMtps_local (src : Operand) (s : State) : Answers (Local s) (execMtps src s) :=
  answers_toOutcome fun _ h => by
    obtain ⟨_, hsrc, hpsw⟩ := bind_ok h
    cases hpsw
    exact local_trans (local_sourceByte hsrc) (local_writePsw _ _)

theorem execMfps_local (dst : Operand) (s : State) : Answers (Local s) (execMfps dst s) :=
  answers_toOutcome fun _ h => by
    obtain ⟨_, hdst, hwr⟩ := bind_ok h
    cases hwr
    exact local_trans (local_operand hdst) (local_trans (local_wrByte _ _ _) (local_setCc _ _))

/-- A read of the I/O space changes only the draw counter, so IOR acts locally too. -/
theorem execIor_local (reg : Reg) (dst : Operand) (s : State) :
    Answers (Local s) (execIor reg dst s) :=
  answers_toOutcome fun _ h => by
    obtain ⟨_, hdst, hwr⟩ := bind_ok h
    exact local_trans (local_operand hdst) (local_trans (local_free _ _) (local_commitWord hwr))

/-! ## What an instruction can do -/

/-- Everything an instruction can do: it acts locally, or it is one of HALT, WAIT, SVB, RTT and IOW,
each with the one effect that is its own. -/
inductive InstrEffect (s : State) : Instr → State → Prop
  | acts {i : Instr} {t : State} (h : Local s t) : InstrEffect s i t
  | halts : InstrEffect s .halt { s with run := .halted }
  | waits : InstrEffect s .wait { s with run := .waiting }
  | setsIvb : InstrEffect s .svb { s with ivb := s.get .r0 &&& 0xFFE0 }
  | inhibits {u : State} (h : Local s u) : InstrEffect s .rtt { u with tinh := true }
  | writesIo {r : Reg} {o : Operand} {u t : State} {a : Byte} {v : Word} (h : Local s u)
      (hio : ioWrite a v u = .ok t) : InstrEffect s (.iow r o) t

theorem answers_acts {s : State} {i : Instr} {o : Host.Outcome State Fault Refusal}
    (h : Answers (Local s) o) : Answers (InstrEffect s i) o :=
  answers_mono h fun _ => .acts

/-- A meaning that answers by a template that acts locally. -/
theorem answers_template {s : State} {i : Instr} {x : Except Fault State}
    (h : ∀ t, x = .ok t → Local s t) : Answers (InstrEffect s i) (toOutcome x) :=
  answers_acts (answers_toOutcome h)

theorem execRtt_effect (s : State) : Answers (InstrEffect s .rtt) (execRtt s) :=
  answers_toOutcome fun _ h => by
    obtain ⟨_, hret, htinh⟩ := bind_ok h
    cases htinh
    exact .inhibits (local_return hret)

theorem execIow_effect (reg : Reg) (src : Operand) (s : State) :
    Answers (InstrEffect s (.iow reg src)) (execIow reg src s) :=
  answers_toOutcome fun _ h => by
    obtain ⟨_, hsrc, hio⟩ := bind_ok h
    exact .writesIo (local_sourceWord hsrc) hio

theorem exec_effect (i : Instr) (s : State) : Answers (InstrEffect s i) (exec i s) := by
  cases i with
  | clr d | sxt d => exact answers_template fun _ => local_produceWord
  | clrb d => exact answers_template fun _ => local_produceByte
  | com d | inc d | dec d | neg d | adc d | sbc d | ror d | rol d | asr d | asl d | swab d =>
    exact answers_template fun _ => local_modifyWord
  | comb d | incb d | decb d | negb d | adcb d | sbcb d | rorb d | rolb d | asrb d | aslb d =>
    exact answers_template fun _ => local_modifyByte
  | tst d => exact answers_template fun _ => local_testWord
  | tstb d => exact answers_template fun _ => local_testByte
  | cmp a b | bit a b => exact answers_template fun _ => local_compareWord
  | cmpb a b | bitb a b => exact answers_template fun _ => local_compareByte
  | bic a b | bis a b | add a b | sub a b => exact answers_template fun _ => local_combineWord
  | bicb a b | bisb a b => exact answers_template fun _ => local_combineByte
  | mov a b => exact answers_acts (execMov_local a b s)
  | movb a b => exact answers_acts (execMovb_local a b s)
  | mul r d => exact answers_acts (execMul_local r d s)
  | div r d => exact answers_acts (execDiv_local r d s)
  | ash r d => exact answers_acts (execAsh_local r d s)
  | ashc r d => exact answers_acts (execAshc_local r d s)
  | xor r d => exact answers_acts (execXor_local r d s)
  | br x | bne x | beq x | bge x | blt x | bgt x | ble x | bpl x | bmi x | bhi x | blos x | bvc x
  | bvs x | bcc x | bcs x => exact answers_next (.acts (local_branchIf _ x s))
  | jmp d => exact answers_acts (execJmp_local d s)
  | jsr r d => exact answers_acts (execJsr_local r d s)
  | rts r => exact answers_acts (execRts_local r s)
  | mark n => exact answers_acts (execMark_local n s)
  | sob r x => exact answers_acts (execSob_local r x s)
  | emt x | trap x | bpt | iot => exact answers_template fun _ => local_raiseTrap
  | rti => exact answers_template fun _ => local_return
  | rtt => exact execRtt_effect s
  | halt => exact answers_next .halts
  | wait => exact answers_next .waits
  | reset => exact answers_next (.acts (local_refl s))
  | mftp => exact answers_next (.acts (local_set s .r0 _))
  | mtps d => exact answers_acts (execMtps_local d s)
  | mfps d => exact answers_acts (execMfps_local d s)
  | svb => exact answers_next .setsIvb
  | trace => exact answers_acts (execTrace_local s)
  | ior r d => exact answers_acts (execIor_local r d s)
  | iow r d => exact execIow_effect r d s
  | ccop b n z v c => exact answers_next (.acts (local_operateCc b n z v c s))
  | clc | clv | clz | cln | ccc | sec | sev | sez | sen | scc | nop =>
    exact answers_next (.acts (local_operateCc _ _ _ _ _ s))

/-- Settles O60: `exec_effect`, and then the effects one by one. -/
theorem instructionScope : Obligations.InstructionScope := by
  intro i s
  refine ⟨(exec_effect i s).meaning, fun t ht => ?_⟩
  cases (exec_effect i s).next t ht with
  | acts h =>
    exact ⟨h.cfg, h.irq, h.script, fun _ => h.ivb, fun _ => h.io, fun _ => h.tinh,
      fun _ _ => h.run⟩
  | halts =>
    exact ⟨rfl, rfl, rfl, fun _ => rfl, fun _ => rfl, fun _ => rfl, fun hne => absurd rfl hne⟩
  | waits =>
    exact ⟨rfl, rfl, rfl, fun _ => rfl, fun _ => rfl, fun _ => rfl, fun _ hne => absurd rfl hne⟩
  | setsIvb =>
    exact ⟨rfl, rfl, rfl, fun hne => absurd rfl hne, fun _ => rfl, fun _ => rfl,
      fun _ _ => .inl rfl⟩
  | inhibits h =>
    exact ⟨h.cfg, h.irq, h.script, fun _ => h.ivb, fun _ => h.io, fun hne => absurd rfl hne,
      fun _ _ => h.run⟩
  | writesIo h hio =>
    obtain ⟨io, rfl⟩ := ioWrite_ok hio
    exact ⟨h.cfg, h.irq, h.script, fun _ => h.ivb, fun hne => absurd rfl (hne _ _),
      fun _ => h.tinh, fun _ _ => h.run⟩

/-! ## The invariant -/

/-- The invariant without the trace inhibit: what also holds between an instruction and the
end-of-instruction check, where RTT's inhibit is up (R333). -/
structure Sound (s : State) : Prop where
  mem : s.mem.wf = true
  ivb : s.ivb &&& 0x001F = 0
  gate : s.psw.t = true → s.cfg.settings.ten = true
  fits : IoFits s.cfg.widths s.io

theorem invariant_iff (s : State) : Invariant s ↔ Sound s ∧ s.tinh = false :=
  ⟨fun ⟨hmem, hivb, hgate, htinh, hfits⟩ => ⟨⟨hmem, hivb, hgate, hfits⟩, htinh⟩,
   fun ⟨⟨hmem, hivb, hgate, hfits⟩, htinh⟩ => ⟨hmem, hivb, hgate, htinh, hfits⟩⟩

/-- Settles O59: every width takes the value zero, whatever the uninterpreted widths are. -/
theorem resetInvariant : Obligations.ResetInvariant :=
  (invariant_iff _).2 ⟨⟨rfl, by decide, nofun, Nat.two_pow_pos _, Nat.two_pow_pos _,
    Nat.two_pow_pos _, Nat.two_pow_pos _⟩, rfl⟩

theorem sound_local {s t : State} (h : Local s t) (hs : Sound s) : Sound t where
  mem := h.mem hs.mem
  ivb := by rw [h.ivb]; exact hs.ivb
  gate := by rw [h.cfg]; exact h.gate hs.gate
  fits := by rw [h.cfg, h.io]; exact hs.fits

/-- SVB discards the low five bits (R269). -/
theorem svb_mask (v : Word) : (v &&& 0xFFE0) &&& 0x001F = 0 := by
  rw [BitVec.and_assoc]
  exact BitVec.and_zero

theorem sound_ioWrite {a : Byte} {v : Word} {s t : State} (h : ioWrite a v s = .ok t)
    (hs : Sound s) : Sound t := by
  have hfits := ioWrite_fits h hs.fits
  obtain ⟨io, rfl⟩ := ioWrite_ok h
  exact ⟨hs.mem, hs.ivb, hs.gate, hfits⟩

theorem sound_instrEffect {i : Instr} {s t : State} (h : InstrEffect s i t) (hs : Sound s) :
    Sound t := by
  cases h with
  | acts h => exact sound_local h hs
  | halts => exact ⟨hs.mem, hs.ivb, hs.gate, hs.fits⟩
  | waits => exact ⟨hs.mem, hs.ivb, hs.gate, hs.fits⟩
  | setsIvb => exact ⟨hs.mem, svb_mask _, hs.gate, hs.fits⟩
  | inhibits h =>
    have hu := sound_local h hs
    exact ⟨hu.mem, hu.ivb, hu.gate, hu.fits⟩
  | writesIo h hio => exact sound_ioWrite hio (sound_local h hs)

/-- An instruction that halts a running CPU is not RTT, so it leaves the trace inhibit alone. -/
theorem tinh_of_halted {i : Instr} {s t : State} (h : exec i s = .next t)
    (hrun : s.run = .running) (hhalt : t.run = .halted) : t.tinh = s.tinh := by
  obtain ⟨_, _, _, _, _, htinh, hruns⟩ := (instructionScope i s).2 t h
  refine htinh fun hrtt => ?_
  subst hrtt
  have hkeeps := hruns nofun nofun
  simp [hrun, hhalt] at hkeeps

/-- What a fetched word leaves before the end-of-instruction check, by an instruction or by R100. -/
theorem perform_sound {w : Word} {s t : State} (h : perform w s = .next t) (hs : Invariant s)
    (hrun : s.run = .running) : Sound t ∧ (t.run = .halted → t.tinh = false) := by
  obtain ⟨hsound, htinh⟩ := (invariant_iff s).1 hs
  unfold perform at h
  split at h
  · next i _ =>
    refine ⟨sound_instrEffect ((exec_effect i s).next t h) hsound, fun hhalt => ?_⟩
    rw [tinh_of_halted h hrun hhalt, htinh]
  · have hlocal := local_illegalOpcode (toOutcome_next h)
    exact ⟨sound_local hlocal hsound, fun _ => by rw [hlocal.tinh, htinh]⟩

/-- No latch is part of the invariant, so the service of a request may clear one. -/
theorem invariant_of_served {u t : State} (hu : Sound u) (htinh : u.tinh = false)
    (ht : t = u ∨ ∃ k, t = { u with irq := u.irq.set k false }) : Invariant t := by
  refine (invariant_iff t).2 ?_
  obtain rfl | ⟨k, rfl⟩ := ht
  · exact ⟨hu, htinh⟩
  · exact ⟨⟨hu.mem, hu.ivb, hu.gate, hu.fits⟩, htinh⟩

/-- The end-of-instruction check consumes the trace inhibit (R333). -/
theorem endCheck_invariant {s t : State} (h : endCheck s = .ok t) (hs : Sound s) : Invariant t := by
  obtain ⟨u, hlocal, hlatch⟩ := endCheck_ok h
  exact invariant_of_served (sound_local hlocal ⟨hs.mem, hs.ivb, hs.gate, hs.fits⟩)
    hlocal.tinh hlatch

theorem complete_next {o : Host.Outcome State Fault Refusal} {t : State}
    (h : complete o = .next t) :
    ∃ u, o = .next u ∧ (u.run = .halted ∧ t = u ∨ endCheck u = .ok t) := by
  cases o with
  | fault f => cases h
  | refused r => cases h
  | next u =>
    refine ⟨u, rfl, ?_⟩
    by_cases hhalt : u.run = .halted
    · rw [complete_of_halted hhalt] at h
      cases h
      exact .inl ⟨hhalt, rfl⟩
    · rw [complete_of_not_halted hhalt] at h
      exact .inr (toOutcome_next h)

theorem runInstruction_invariant {s t : State} (h : runInstruction s = .next t)
    (hs : Invariant s) (hrun : s.run = .running) : Invariant t := by
  unfold runInstruction at h
  split at h
  · cases h
  · next w s1 hfetch =>
    obtain ⟨_, _, rfl⟩ := fetch_ok hfetch
    obtain ⟨u, hperf, hcheck⟩ := complete_next h
    obtain ⟨hu, htinh⟩ := perform_sound hperf hs hrun
    obtain ⟨hhalt, rfl⟩ | hend := hcheck
    · exact (invariant_iff _).2 ⟨hu, htinh hhalt⟩
    · exact endCheck_invariant hend hu

theorem waitStep_invariant {s t : State} (h : waitStep s = .ok t) (hs : Invariant s) :
    Invariant t := by
  obtain ⟨hsound, htinh⟩ := (invariant_iff s).1 hs
  obtain ⟨u, hlocal, hlatch⟩ := waitStep_ok h
  exact invariant_of_served (sound_local hlocal hsound) (hlocal.tinh.trans htinh) hlatch

theorem cpuStep_invariant {s t : State} (h : cpuStep s = .next t) (hs : Invariant s) :
    Invariant t := by
  unfold cpuStep at h
  split at h
  · next hrun => exact runInstruction_invariant h hs hrun
  · exact waitStep_invariant (toOutcome_next h) hs
  · cases h; exact hs

/-- T is clear after a reset and the widths stay, so the new settings cannot break the invariant. -/
theorem hostReset_invariant (st : Settings) {s : State} (hs : Invariant s) :
    Invariant (hostReset st s) :=
  (invariant_iff _).2 ⟨⟨((invariant_iff s).1 hs).1.mem, hostReset_ivb st s, nofun,
    hostReset_fits st s⟩, rfl⟩

theorem peripheral_invariant {s t : State} (h : Peripheral s t) (hs : Invariant s) :
    Invariant t := by
  obtain ⟨hsound, htinh⟩ := (invariant_iff s).1 hs
  have hfits := h.fits hsound.fits
  rw [h.eq]
  exact (invariant_iff _).2 ⟨⟨hsound.mem, hsound.ivb, hsound.gate, hfits⟩, htinh⟩

theorem applyEvent_invariant (e : Event) {s : State} (hs : Invariant s) :
    Invariant (applyEvent e s) := by
  cases e with
  | reset st => exact hostReset_invariant st hs
  | _ => exact peripheral_invariant (applyEvent_peripheral _ s nofun) hs

/-- Settles O58, by whose move the step is: the CPU's in each run state, or another agent's. -/
theorem stepKeepsInvariant : Obligations.StepKeepsInvariant := by
  intro s t hs h
  cases hscript : s.script with
  | nil =>
    rw [step_of_script_nil hscript] at h
    exact cpuStep_invariant h hs
  | cons e rest =>
    have hrest : Invariant { s with script := rest } := hs
    by_cases hcpu : e = .cpu
    · subst hcpu
      rw [step_of_script_cpu hscript] at h
      exact cpuStep_invariant h hrest
    · rw [step_of_script_event hscript hcpu] at h
      cases h
      exact applyEvent_invariant e hrest

/-! ## Runs of clock periods -/

theorem clockTick_iterate_script (k : Nat) (s : State) (l : List Event) :
    clockTick^[k] { s with script := l } = { clockTick^[k] s with script := l } := by
  induction k generalizing s with
  | zero => rfl
  | succ k ih => rw [Function.iterate_succ_apply, Function.iterate_succ_apply, clockTick_script, ih]

theorem run_succ_of_next {M : Host.Core} {k : Nat} {s u : M.State} (h : M.step s = .next u) :
    M.run (k + 1) s = M.run k u := by
  simp only [Host.Core.run, h]

theorem run_clocks (k : Nat) {s : State} {rest : List Event}
    (h : s.script = List.replicate k .clock ++ rest) :
    Sys2Proof.core.run k s = .next { clockTick^[k] s with script := rest } := by
  induction k generalizing s with
  | zero => rw [show rest = s.script from h.symm]; rfl
  | succ k ih =>
    have hstep : Sys2Proof.core.step s =
        .next { clockTick s with script := List.replicate k .clock ++ rest } :=
      (step_of_script_event h nofun).trans (congrArg _ (clockTick_script s _))
    refine (run_succ_of_next hstep).trans ((ih rfl).trans ?_)
    rw [clockTick_iterate_script, Function.iterate_succ_apply]

theorem clockTick_iterate_clocked (k : Nat) (s : State) : Clocked s (clockTick^[k] s) := by
  induction k with
  | zero => exact clocked_refl s
  | succ k ih =>
    rw [Function.iterate_succ_apply']
    exact clocked_trans ih (clockTick_clocked _)

/-! ## The counters of an SPI transfer (R36, log 9) -/

/-- The counters of a transfer `k` clock periods after its start, a bit taking `period` of them. -/
def SpiCounts (period k : Nat) (io : Periph) : Prop :=
  io.spiDiv.toNat = k % period ∧ io.spiBits.toNat = min (k / period) 8

theorem countBit_toNat {limit : Nat} {c : BitVec 4} (hlimit : limit < 16) (hc : c.toNat ≤ limit) :
    (countBit limit c).toNat = min (c.toNat + 1) limit := by
  unfold countBit
  split
  · rw [BitVec.toNat_add, show (1 : BitVec 4).toNat = 1 from rfl]; omega
  · omega

/-- The last clock period of a bit. -/
theorem spiClock_bitEnds {io : Periph} (hbusy : io.sbys = true)
    (h : 2 * io.sdiv.toNat + 1 ≤ io.spiDiv.toNat + 1) :
    spiClock io = { io with spiDiv := 0, spiBits := countBit 8 io.spiBits } := by
  rw [spiClock, if_pos hbusy, if_pos h]

/-- A clock period inside a bit. -/
theorem spiClock_counts {io : Periph} (hbusy : io.sbys = true)
    (h : ¬ 2 * io.sdiv.toNat + 1 ≤ io.spiDiv.toNat + 1) :
    spiClock io = { io with spiDiv := io.spiDiv + 1 } := by
  rw [spiClock, if_pos hbusy, if_neg h]

theorem spiClock_idle {io : Periph} (hidle : io.sbys = false) : spiClock io = io := by
  simp [spiClock, hidle]

theorem succ_of_last_in_period {k p : Nat} (h : k % p + 1 = p) :
    (k + 1) / p = k / p + 1 ∧ (k + 1) % p = 0 := by
  have hk := Nat.mod_add_div k p
  exact (Nat.div_mod_unique (by omega)).2 ⟨by rw [Nat.mul_add]; omega, by omega⟩

theorem succ_of_inside_period {k p : Nat} (h : k % p + 1 < p) :
    (k + 1) / p = k / p ∧ (k + 1) % p = k % p + 1 := by
  have hk := Nat.mod_add_div k p
  exact (Nat.div_mod_unique (by omega)).2 ⟨by omega, h⟩

/-- One more clock period of a transfer: at the end of a bit the divider starts over, before it the
divider counts. -/
theorem spiCounts_succ {k : Nat} {io : Periph} (hbusy : io.sbys = true)
    (h : SpiCounts (2 * io.sdiv.toNat + 1) k io) :
    SpiCounts (2 * io.sdiv.toNat + 1) (k + 1) (spiClock io) := by
  obtain ⟨hdiv, hbits⟩ := h
  have hperiod := io.sdiv.isLt
  have hlt : k % (2 * io.sdiv.toNat + 1) < 2 * io.sdiv.toNat + 1 := Nat.mod_lt k (by omega)
  by_cases hend : 2 * io.sdiv.toNat + 1 ≤ io.spiDiv.toNat + 1
  · obtain ⟨hquot, hrem⟩ :=
      succ_of_last_in_period (k := k) (p := 2 * io.sdiv.toNat + 1) (by omega)
    rw [spiClock_bitEnds hbusy hend]
    refine ⟨hrem.symm, (countBit_toNat (by decide) (by omega)).trans ?_⟩
    rw [hquot, hbits]
    omega
  · obtain ⟨hquot, hrem⟩ :=
      succ_of_inside_period (k := k) (p := 2 * io.sdiv.toNat + 1) (by omega)
    rw [spiClock_counts hbusy hend]
    refine ⟨?_, hbits.trans (by rw [hquot])⟩
    show (io.spiDiv + 1).toNat = (k + 1) % (2 * io.sdiv.toNat + 1)
    rw [hrem, ← hdiv, BitVec.toNat_add_of_lt]
    · rfl
    · show io.spiDiv.toNat + 1 < 2 ^ 17
      omega

theorem clockTick_iterate_busy {s : State} (hbusy : s.io.sbys = true) (hdiv : s.io.spiDiv = 0)
    (hbits : s.io.spiBits = 0) (k : Nat) :
    SpiCounts (2 * s.io.sdiv.toNat + 1) k (clockTick^[k] s).io := by
  induction k with
  | zero => simp [SpiCounts, hdiv, hbits]
  | succ k ih =>
    have hio := (clockTick_iterate_clocked k s).io
    have hbusyk : (clockTick^[k] s).io.sbys = true := by rw [hio]; exact hbusy
    have hsdivk : (clockTick^[k] s).io.sdiv = s.io.sdiv := by rw [hio]
    obtain ⟨hdivk, hbitsk⟩ := clockTick_spi (clockTick^[k] s)
    rw [← hsdivk] at ih ⊢
    rw [Function.iterate_succ_apply', SpiCounts, hdivk, hbitsk]
    exact spiCounts_succ hbusyk ih

theorem clockTick_iterate_idle {s : State} (hidle : s.io.sbys = false) (k : Nat) :
    (clockTick^[k] s).io.spiDiv = s.io.spiDiv ∧ (clockTick^[k] s).io.spiBits = s.io.spiBits := by
  induction k with
  | zero => exact ⟨rfl, rfl⟩
  | succ k ih =>
    have hidlek : (clockTick^[k] s).io.sbys = false := by
      rw [(clockTick_iterate_clocked k s).io]; exact hidle
    obtain ⟨hdivk, hbitsk⟩ := clockTick_spi (clockTick^[k] s)
    rw [spiClock_idle hidlek] at hdivk hbitsk
    rw [Function.iterate_succ_apply', hdivk, hbitsk]
    exact ih

/-! ## The counters of the UART (R36, R375, log 9) -/

theorem uartTxBit_counts (s : State) :
    uartTxBit s = { s with io := { s.io with uartTxBits := (uartTxBit s).io.uartTxBits } } ∧
      (s.io.ubsy = true → s.io.uartTxBits.toNat ≤ 10 →
        (uartTxBit s).io.uartTxBits.toNat = min (s.io.uartTxBits.toNat + 1) 10) ∧
      (s.io.ubsy = false → (uartTxBit s).io.uartTxBits = s.io.uartTxBits) := by
  unfold uartTxBit
  split
  · next hbusy =>
    exact ⟨rfl, fun _ => countBit_toNat (by decide), fun hidle => by simp [hbusy] at hidle⟩
  · next hidle => exact ⟨rfl, fun hbusy => absurd hbusy hidle, fun _ => rfl⟩

/-- A bit enters the receive shifter at the top, the others move down. -/
theorem shiftIn_toNat (level : Bool) (b : Byte) :
    (BitVec.ofBool level ++ b.extractLsb' 1 7 : Byte).toNat = b.toNat / 2 + 128 * level.toNat := by
  have := b.isLt
  rw [BitVec.toNat_append, ← Nat.shiftLeft_add_eq_or_of_lt (BitVec.isLt _), Nat.shiftLeft_eq,
    BitVec.extractLsb'_toNat, Nat.shiftRight_eq_div_pow, BitVec.toNat_ofBool]
  omega

theorem uartRxBit_counts (level : Bool) (s : State) :
    uartRxBit level s = { s with
      io := { s.io with uartRxShift := (uartRxBit level s).io.uartRxShift,
                        uartRxBits := (uartRxBit level s).io.uartRxBits } } ∧
    (s.io.uartRxBits.toNat ≤ 10 →
      (uartRxBit level s).io.uartRxBits.toNat = min (s.io.uartRxBits.toNat + 1) 10) ∧
    (1 ≤ s.io.uartRxBits.toNat ∧ s.io.uartRxBits.toNat ≤ 8 →
      (uartRxBit level s).io.uartRxShift.toNat = s.io.uartRxShift.toNat / 2 + 128 * level.toNat) ∧
    (¬ (1 ≤ s.io.uartRxBits.toNat ∧ s.io.uartRxBits.toNat ≤ 8) →
      (uartRxBit level s).io.uartRxShift = s.io.uartRxShift) := by
  refine ⟨rfl, countBit_toNat (by decide), fun hdata => ?_, fun hframe => ?_⟩
  · simp only [uartRxBit, setIo_io, if_pos hdata]
    exact shiftIn_toNat level _
  · simp only [uartRxBit, setIo_io, if_neg hframe]

/-- Settles O57: a run of clock periods by induction on its length, the UART's two moves by their
definitions. -/
theorem serialCounters : Obligations.SerialCounters := by
  refine ⟨fun s k rest hs => ?_, fun s rest hs => ?_, fun s level rest hs => ?_⟩
  · have hclocked := clockTick_iterate_clocked k s
    exact ⟨_, run_clocks k hs, hclocked.io,
      congrArg (fun t => { t with script := rest }) hclocked.eq,
      fun hbusy hdiv hbits => clockTick_iterate_busy hbusy hdiv hbits k,
      fun hidle => clockTick_iterate_idle hidle k⟩
  · exact ⟨_, step_of_script_event hs nofun, uartTxBit_counts { s with script := rest }⟩
  · exact ⟨_, step_of_script_event hs nofun, uartRxBit_counts level { s with script := rest }⟩

end Sys2Proof.Machine
end

section
/-! Accesses to memory (20_memory.md): the PSW window, a word stored and read back, and the model
faults of R52 and R53, met by a fetch, by an operand or by the stack. -/

namespace Sys2Proof.Machine

open Sys2Proof Sys2Proof.Safety

/-! ## Parity -/

theorem isOdd_add_one (a : Word) : isOdd (a + 1) = !isOdd a := by
  have := a.isLt
  rw [isOdd_toNat, isOdd_toNat, ← decide_not, decide_eq_decide, BitVec.toNat_add]
  simp
  omega

theorem toNat_add_one_of_even {a : Word} (h : isOdd a = false) :
    (a + 1).toNat = a.toNat + 1 :=
  BitVec.toNat_add_of_lt (even_succ_lt h)

/-! ## Byte accesses and the PSW window (R56, R58, R59) -/

theorem inPswWindow_of_not_atWindow {a : Word} {s : State} (h : ¬ AtWindow a s) :
    inPswWindow a s = false := by
  rw [← Bool.not_eq_true, inPswWindow_iff]
  exact h

theorem not_atWindow_iff (a : Word) (s : State) :
    ¬ AtWindow a s ↔ s.cfg.settings.mpsw = false ∨ a ≠ 0xFFFE := by
  rw [AtWindow, not_and_or, Bool.not_eq_true]

theorem not_atWindow_of_odd {a : Word} (s : State) (h : isOdd a = true) : ¬ AtWindow a s := by
  rintro ⟨_, rfl⟩
  exact absurd h (by decide)

theorem readByte_window {a : Word} {s : State} (h : AtWindow a s) :
    readByte a s = pswByte s.psw := by
  rw [readByte, if_pos ((inPswWindow_iff a s).2 h), psw_toByte]

theorem readByte_memory {a : Word} {s : State} (h : ¬ AtWindow a s) :
    readByte a s = s.mem.get a.toNat := by
  simp [readByte, inPswWindow_of_not_atWindow h]

theorem writeByte_window {a : Word} {s : State} (b : Byte) (h : AtWindow a s) :
    writeByte a b s = s.writePsw b := by
  rw [writeByte, if_pos ((inPswWindow_iff a s).2 h)]

theorem writeByte_memory {a : Word} {s : State} (b : Byte) (h : ¬ AtWindow a s) :
    writeByte a b s = { s with mem := s.mem.put a.toNat b } := by
  simp [writeByte, inPswWindow_of_not_atWindow h]

/-- Whichever of the two a byte is written to, no register and nothing of the rest changes. -/
theorem writeByte_frame (a : Word) (b : Byte) (s : State) :
    (∀ q, (writeByte a b s).get q = s.get q) ∧ KeepsRest s (writeByte a b s) := by
  by_cases h : AtWindow a s
  · rw [writeByte_window b h]
    exact ⟨fun _ => rfl, rfl, rfl, rfl, rfl, rfl, rfl, rfl⟩
  · rw [writeByte_memory b h]
    exact ⟨fun _ => rfl, rfl, rfl, rfl, rfl, rfl, rfl, rfl⟩

theorem storesByte_put {s : State} (hwf : s.mem.wf = true) (a : Word) (b : Byte) :
    StoresByte a b s { s with mem := s.mem.put a.toNat b } :=
  ⟨(get_put hwf _ _ b).trans (if_pos rfl), fun _ hc => get_put_other b hc s.mem⟩

/-- Settles O7, by whether the access is at the window. -/
theorem pswWindow : Obligations.PswWindow := by
  intro s a b hwf
  obtain ⟨hget, hrest⟩ := writeByte_frame a b s
  refine ⟨hget, hrest, fun hmpsw ha => ?_, fun hout => ?_, readWord_even s rfl⟩
  · have hwin : AtWindow a s := ⟨hmpsw, ha⟩
    rw [writeByte_window b hwin]
    exact ⟨readByte_window hwin, fun _ => rfl, loadedFrom_ofByte _ b⟩
  · have hmem := (not_atWindow_iff a s).2 hout
    rw [writeByte_memory b hmem]
    exact ⟨readByte_memory hmem, storesByte_put hwf a b, rfl⟩

/-! ## Word accesses (R51, R52, R55, R57) -/

theorem writeWord_odd {a : Word} (v : Word) (s : State) (h : isOdd a = true) :
    writeWord a v s = .error (.oddWordAddress a) := by simp [writeWord, h]

/-- A word stored at an even address and read back as a word, byte by byte, and as an instruction. -/
theorem stored_word_reads {s t : State} {a v : Word} (hwf : s.mem.wf = true)
    (ha : isOdd a = false) (hstore : writeWord a v s = .ok t) :
    readWord a t = .ok v ∧ (¬ AtWindow a t → readByte a t = v.extractLsb' 0 8) ∧
      readByte (a + 1) t = v.extractLsb' 8 8 ∧
      (t.get .pc = a → fetch t = .ok (v, t.set .pc (a + 2))) := by
  obtain ⟨_, rfl⟩ := writeWord_ok hstore
  obtain ⟨hlow, hhigh, _⟩ := storesWord_put hwf a v { s with mem := s.mem.putWord a v } rfl
  have hword := word_putWord_same hwf a v
  refine ⟨?_, fun hmem => (readByte_memory hmem).trans hlow, ?_, fun hpc => ?_⟩
  · rw [readWord_even _ ha, hword]
  · have hodd : isOdd (a + 1) = true := by rw [isOdd_add_one, ha]; rfl
    rw [readByte_memory (not_atWindow_of_odd _ hodd), toNat_add_one_of_even ha]
    exact hhigh
  · rw [fetch_even (by rw [hpc]; exact ha), hpc, hword]

/-- Settles O6, by the parity of the address. -/
theorem wordMemory : Obligations.WordMemory := by
  intro s a v hwf
  refine ⟨fun heven => ⟨readWord_even s heven, ?_⟩,
    fun hodd => ⟨writeWord_odd v s hodd, readWord_odd s hodd⟩⟩
  have hstore := writeWord_even v s heven
  exact ⟨_, hstore, storesWord_put hwf a v _ rfl, fun _ => rfl, rfl,
    ⟨rfl, rfl, rfl, rfl, rfl, rfl, rfl⟩, stored_word_reads hwf heven hstore⟩

/-! ## An odd PC (R53) -/

theorem runInstruction_odd {s : State} (h : isOdd (s.get .pc) = true) :
    runInstruction s = .fault (.oddPc (s.get .pc)) := by
  simp [runInstruction, fetch_odd h]

/-- Settles O9: the fault of the fetch is the fault of the step. -/
theorem oddPcStops : Obligations.OddPcStops := by
  intro s hodd
  refine ⟨fetch_odd hodd, fun hscript hrun => ?_⟩
  rw [step_of_script_nil hscript, cpuStep_running hrun, runInstruction_odd hodd]

/-! ## An odd SP (R52) -/

theorem push_odd {s : State} (v : Word) (h : isOdd (s.get .sp) = true) :
    push v s = .error (.oddWordAddress (s.get .sp - 2)) :=
  writeWord_odd v _ ((isOdd_sub_two _).trans h)

theorem pop_odd {s : State} (h : isOdd (s.get .sp) = true) :
    pop s = .error (.oddWordAddress (s.get .sp)) := by
  simp only [pop, readWord_odd s h, error_bind]

/-- The entry of a trap stops at its first push (R320). -/
theorem enter_odd (vec : Word) {s : State} (h : isOdd (s.get .sp) = true) :
    enter vec s = .error (.oddWordAddress (s.get .sp - 2)) := by
  have hpush := push_odd (s := { s with free := s.free + 1 })
    (Config.freeByte s.free ++ s.psw.toByte) h
  simp only [enter, hpush, error_bind]
  rfl

theorem raiseTrap_odd (k : Trap) {s : State} (h : isOdd (s.get .sp) = true) :
    toOutcome (raiseTrap k s) = .fault (.oddWordAddress (s.get .sp - 2)) := by
  rw [raiseTrap, enter_odd _ h]
  rfl

/-- RTI and RTT stop at their first pop (R264). -/
theorem return_odd {s : State} (h : isOdd (s.get .sp) = true) :
    returnFromInterrupt s = .error (.oddWordAddress (s.get .sp)) := by
  simp only [returnFromInterrupt, pop_odd h, error_bind]

theorem execRti_odd {s : State} (h : isOdd (s.get .sp) = true) :
    execRti s = .fault (.oddWordAddress (s.get .sp)) := by
  rw [execRti, return_odd h]
  rfl

theorem execRtt_odd {s : State} (h : isOdd (s.get .sp) = true) :
    execRtt s = .fault (.oddWordAddress (s.get .sp)) := by
  rw [execRtt, return_odd h]
  rfl

theorem execRts_odd (r : Reg) {s : State} (h : isOdd (s.get .sp) = true) :
    execRts r s = .fault (.oddWordAddress (s.get .sp)) := by
  rw [execRts, pop_odd (s := s.set .pc (s.get r)) h]
  rfl

theorem markStack_source {n : BitVec 6} {s : State} (h : s.cfg.sw.markRule = .source) :
    markStack n s = s.get .sp + n.setWidth 16 := by
  rw [markStack, h]

theorem execMark_odd {n : BitVec 6} {s : State} (h : isOdd (markStack n s) = true) :
    execMark n s = .fault (.oddWordAddress (markStack n s)) := by
  have hpop (v : Word) : pop ((s.set .sp (markStack n s)).set .pc v) =
      .error (.oddWordAddress (markStack n s)) :=
    pop_odd (s := (s.set .sp (markStack n s)).set .pc v) h
  simp only [execMark, hpop]
  rfl

theorem effectiveAddress_resolved {d : Operand} {s s1 : State} {l : Loc}
    (h : operand d .word s = .ok (l, s1)) : ∃ a, effectiveAddress d s = .ok (a, s1) := by
  simp only [effectiveAddress, h, ok_bind]
  exact ⟨_, rfl⟩

/-- JSR resolves its target before it pushes, so the SP of its push is the one the operand left. -/
theorem execJsr_odd (r : Reg) {d : Operand} {s s1 : State} {l : Loc}
    (h : operand d .word s = .ok (l, s1)) (hsp : isOdd (s1.get .sp) = true) :
    execJsr r d s = .fault (.oddWordAddress (s1.get .sp - 2)) := by
  obtain ⟨a, ha⟩ := effectiveAddress_resolved h
  simp only [execJsr, ha, ok_bind, push_odd _ hsp, error_bind]
  rfl

/-- Settles O11, instruction by instruction, each by the first push or pop it does. -/
theorem oddStackStops : Obligations.OddStackStops := by
  intro s
  refine ⟨fun hsp => ⟨fun _ => raiseTrap_odd .emt hsp, fun _ => raiseTrap_odd .trap hsp,
    raiseTrap_odd .bpt hsp, raiseTrap_odd .iot hsp, execRti_odd hsp, execRtt_odd hsp,
    fun r => execRts_odd r hsp⟩, fun n hrule hsp => ?_, fun r d s1 l hd hsp => execJsr_odd r hd hsp⟩
  rw [← markStack_source hrule] at hsp ⊢
  exact execMark_odd hsp

/-! ## The faults of an operand (R52, R120, R124) -/

section OperandFaults

variable {α β : Type} {sz : Size} {d : Operand} {s : State}

/-- `x` stops with the fault that the operand `d` meets while it is resolved in `s`. -/
def FailsUnresolved (sz : Size) (d : Operand) (s : State) (x : Except Fault α) : Prop :=
  ∀ f, operand d sz s = .error f → x = .error f

/-- `x` stops with `OddWordAddress` when the word operand `d` resolved in `s` is at an odd address. -/
def FailsOdd (d : Operand) (s : State) (x : Except Fault α) : Prop :=
  ∀ s1 a, operand d .word s = .ok (.mem a, s1) → isOdd a = true → x = .error (.oddWordAddress a)

/-- `x` stops with the fault of the word operand `d`, met while it is resolved or accessed. -/
structure FailsWord (d : Operand) (s : State) (x : Except Fault α) : Prop where
  unresolved : FailsUnresolved .word d s x
  odd : FailsOdd d s x

theorem failsUnresolved_operand : FailsUnresolved sz d s (operand d sz s) :=
  fun _ h => h

theorem failsUnresolved_bind {x : Except Fault α} {k : α → Except Fault β}
    (h : FailsUnresolved sz d s x) : FailsUnresolved sz d s (x >>= k) :=
  fun f hf => by rw [h f hf]; rfl

theorem failsOdd_bind {x : Except Fault α} {k : α → Except Fault β} (h : FailsOdd d s x) :
    FailsOdd d s (x >>= k) :=
  fun s1 a hd ha => by rw [h s1 a hd ha]; rfl

theorem failsWord_bind {x : Except Fault α} {k : α → Except Fault β} (h : FailsWord d s x) :
    FailsWord d s (x >>= k) :=
  ⟨failsUnresolved_bind h.unresolved, failsOdd_bind h.odd⟩

/-- Resolving an operand and then reading it. -/
theorem failsWord_read {k : Loc × State → Word → Except Fault α} :
    FailsWord d s (operand d .word s >>= fun p => rdWord p.1 p.2 >>= k p) where
  unresolved := failsUnresolved_bind failsUnresolved_operand
  odd s1 a hd ha := by simp only [hd, ok_bind, rdWord, readWord_odd s1 ha, error_bind]

theorem commitWord_odd {a : Word} (r : Word × Cc) (t : State) (h : isOdd a = true) :
    commitWord (.mem a) r t = .error (.oddWordAddress a) := by
  simp only [commitWord, wrWord, writeWord_odd r.1 t h, error_bind]

/-- Resolving an operand and then writing it unread, as CLR, SXT, MOV and IOR do. -/
theorem failsWord_write {r : Loc × State → Word × Cc} {t : Loc × State → State} :
    FailsWord d s (operand d .word s >>= fun p => commitWord p.1 (r p) (t p)) where
  unresolved := failsUnresolved_bind failsUnresolved_operand
  odd s1 a hd ha := by simp only [hd, ok_bind, commitWord_odd _ _ ha]

theorem failsWord_sourceWord : FailsWord d s (sourceWord d s) := failsWord_read

theorem failsWord_modifyWord {f : Cc → Word → Word × Cc} : FailsWord d s (modifyWord f d s) :=
  failsWord_read

theorem failsWord_testWord {f : Word → Cc} : FailsWord d s (testWord f d s) := failsWord_read

theorem failsWord_produceWord {f : Cc → Word × Cc} : FailsWord d s (produceWord f d s) :=
  failsWord_write

theorem failsUnresolved_sourceByte : FailsUnresolved .byte d s (sourceByte d s) :=
  failsUnresolved_bind failsUnresolved_operand

/-- A source at a register or an even address is read. -/
theorem sourceWord_writable {s1 : State} {l : Loc} (h : operand d .word s = .ok (l, s1))
    (hl : Writable l) : ∃ v, sourceWord d s = .ok (v, s1) := by
  have hread : ∃ v, rdWord l s1 = .ok v := by
    cases l with
    | reg r => exact ⟨_, rfl⟩
    | mem a => exact ⟨_, readWord_even s1 hl⟩
  obtain ⟨v, hv⟩ := hread
  exact ⟨v, by simp only [sourceWord, h, ok_bind, hv]⟩

theorem sourceByte_resolved {s1 : State} {l : Loc} (h : operand d .byte s = .ok (l, s1)) :
    sourceByte d s = .ok (rdByte l s1, s1) := by
  simp only [sourceByte, h, ok_bind]

end OperandFaults

/-! ## Instructions that stop at their operand (R52, R124) -/

theorem stopsUnresolved_of_fails {i : Operand → Instr} {sz : Size}
    {x : Operand → State → Except Fault State} (hexec : ∀ d s, exec (i d) s = toOutcome (x d s))
    (hx : ∀ d s, FailsUnresolved sz d s (x d s)) : StopsUnresolved i sz := by
  intro d s f hf
  rw [hexec, hx d s f hf]
  rfl

theorem stopsWord_of_fails {i : Operand → Instr} {x : Operand → State → Except Fault State}
    (hexec : ∀ d s, exec (i d) s = toOutcome (x d s)) (hx : ∀ d s, FailsWord d s (x d s)) :
    StopsUnresolved i .word ∧ StopsOdd i := by
  refine ⟨stopsUnresolved_of_fails hexec fun d s => (hx d s).unresolved, fun d s s1 a hd ha => ?_⟩
  rw [hexec, (hx d s).odd s1 a hd ha]
  rfl

/-- The source is met first; the destination fails in the state that the source left. -/
theorem stopsBothWord_of_fails {i : Operand → Operand → Instr}
    {k : Operand → Word × State → Except Fault State}
    (hexec : ∀ src dst s, exec (i src dst) s = toOutcome (sourceWord src s >>= k dst))
    (hk : ∀ dst p, FailsWord dst p.2 (k dst p)) :
    StopsUnresolvedBoth i .word ∧ StopsOddBoth i := by
  have hsrc (dst : Operand) := stopsWord_of_fails (i := (i · dst)) (fun src s => hexec src dst s)
    fun _ _ => failsWord_bind failsWord_sourceWord
  have hdst {src dst : Operand} {s s1 : State} {l : Loc} (h1 : operand src .word s = .ok (l, s1))
      (hl : Writable l) : ∃ v, exec (i src dst) s = toOutcome (k dst (v, s1)) := by
    obtain ⟨v, hv⟩ := sourceWord_writable h1 hl
    exact ⟨v, by rw [hexec, hv, ok_bind]⟩
  refine ⟨⟨fun src dst => (hsrc dst).1 src, fun src dst s s1 l f h1 hl h2 => ?_⟩,
    ⟨fun src dst => (hsrc dst).2 src, fun src dst s s1 s2 l a h1 hl h2 ha => ?_⟩⟩
  · obtain ⟨v, hv⟩ := hdst h1 (hl rfl)
    rw [hv, (hk dst (v, s1)).unresolved f h2]
    rfl
  · obtain ⟨v, hv⟩ := hdst h1 hl
    rw [hv, (hk dst (v, s1)).odd s2 a h2 ha]
    rfl

theorem stopsBothByte_of_fails {i : Operand → Operand → Instr}
    {k : Operand → Byte × State → Except Fault State}
    (hexec : ∀ src dst s, exec (i src dst) s = toOutcome (sourceByte src s >>= k dst))
    (hk : ∀ dst p, FailsUnresolved .byte dst p.2 (k dst p)) : StopsUnresolvedBoth i .byte := by
  refine ⟨fun src dst => ?_, fun src dst s s1 l f h1 _ h2 => ?_⟩
  · exact stopsUnresolved_of_fails (i := (i · dst)) (fun src s => hexec src dst s)
      (fun _ _ => failsUnresolved_bind failsUnresolved_sourceByte) src
  · rw [hexec, sourceByte_resolved h1, ok_bind, hk dst _ f h2]
    rfl

/-! ## The instructions by family (R62) -/

/-- An instruction that begins by resolving its operand. -/
theorem operand_stops {i : Operand → Instr} {sz : Size}
    {k : Operand → State → Loc × State → Except Fault State}
    (hexec : ∀ d s, exec (i d) s = toOutcome (operand d sz s >>= k d s)) : StopsUnresolved i sz :=
  stopsUnresolved_of_fails hexec fun _ _ => failsUnresolved_bind failsUnresolved_operand

theorem modifyWord_stops {i : Operand → Instr} {f : State → Cc → Word → Word × Cc}
    (hexec : ∀ d s, exec (i d) s = toOutcome (modifyWord (f s) d s)) :
    StopsUnresolved i .word ∧ StopsOdd i :=
  stopsWord_of_fails hexec fun _ _ => failsWord_modifyWord

theorem produceWord_stops {i : Operand → Instr} {f : Cc → Word × Cc}
    (hexec : ∀ d s, exec (i d) s = toOutcome (produceWord f d s)) :
    StopsUnresolved i .word ∧ StopsOdd i :=
  stopsWord_of_fails hexec fun _ _ => failsWord_produceWord

theorem sourceWord_stops {i : Operand → Instr} {k : Word × State → Except Fault State}
    (hexec : ∀ d s, exec (i d) s = toOutcome (sourceWord d s >>= k)) :
    StopsUnresolved i .word ∧ StopsOdd i :=
  stopsWord_of_fails hexec fun _ _ => failsWord_bind failsWord_sourceWord

theorem wordUnary_stops : ∀ i ∈ wordUnary, StopsUnresolved i .word ∧ StopsOdd i := by
  simp only [wordUnary, List.forall_mem_cons]
  refine ⟨?clr, ?com, ?inc, ?dec, ?neg, ?adc, ?sbc, ?tst, ?ror, ?rol, ?asr, ?asl, ?swab,
    ?sxt, nofun⟩
  case clr | sxt => exact produceWord_stops fun _ _ => rfl
  case tst => exact stopsWord_of_fails (fun _ _ => rfl) fun _ _ => failsWord_testWord
  case com | inc | dec | neg | adc | sbc | ror | rol | asr | asl | swab =>
    exact modifyWord_stops fun _ _ => rfl

theorem byteUnary_stops : ∀ i ∈ byteUnary, StopsUnresolved i .byte := by
  simp only [byteUnary, List.forall_mem_cons]
  refine ⟨?clrb, ?comb, ?incb, ?decb, ?negb, ?adcb, ?sbcb, ?tstb, ?rorb, ?rolb, ?asrb, ?aslb, ?mtps,
    ?mfps, nofun⟩
  case mtps =>
    exact stopsUnresolved_of_fails (fun _ _ => rfl) fun _ _ =>
      failsUnresolved_bind failsUnresolved_sourceByte
  case clrb | comb | incb | decb | negb | adcb | sbcb | tstb | rorb | rolb | asrb | aslb | mfps =>
    exact operand_stops fun _ _ => rfl

theorem wordWithReg_stops :
    ∀ i ∈ wordWithReg, ∀ r, StopsUnresolved (i r) .word ∧ StopsOdd (i r) := by
  simp only [wordWithReg, List.forall_mem_cons]
  refine ⟨?mul, ?div, ?ash, ?ashc, ?xor, ?ior, ?iow, nofun⟩
  case mul | div | ash | ashc | iow => exact fun _ => sourceWord_stops fun _ _ => rfl
  case xor => exact fun _ => stopsWord_of_fails (fun _ _ => rfl) fun _ _ => failsWord_read
  case ior => exact fun _ => stopsWord_of_fails (fun _ _ => rfl) fun _ _ => failsWord_write

theorem wordBinary_stops :
    ∀ i ∈ wordBinary, StopsUnresolvedBoth i .word ∧ StopsOddBoth i := by
  simp only [wordBinary, List.forall_mem_cons]
  refine ⟨?mov, ?cmp, ?bit, ?bic, ?bis, ?add, ?sub, nofun⟩
  case mov => exact stopsBothWord_of_fails (fun _ _ _ => rfl) fun _ _ => failsWord_produceWord
  case cmp | bit =>
    exact stopsBothWord_of_fails (fun _ _ _ => rfl) fun _ _ => failsWord_bind failsWord_sourceWord
  case bic | bis | add | sub =>
    exact stopsBothWord_of_fails (fun _ _ _ => rfl) fun _ _ => failsWord_modifyWord

theorem byteBinary_stops : ∀ i ∈ byteBinary, StopsUnresolvedBoth i .byte := by
  simp only [byteBinary, List.forall_mem_cons]
  refine ⟨?movb, ?cmpb, ?bitb, ?bicb, ?bisb, nofun⟩
  case cmpb | bitb =>
    exact stopsBothByte_of_fails (fun _ _ _ => rfl) fun _ _ =>
      failsUnresolved_bind failsUnresolved_sourceByte
  case movb | bicb | bisb =>
    exact stopsBothByte_of_fails (fun _ _ _ => rfl) fun _ _ =>
      failsUnresolved_bind failsUnresolved_operand

theorem failsUnresolved_effectiveAddress {d : Operand} {s : State} :
    FailsUnresolved .word d s (effectiveAddress d s) :=
  failsUnresolved_bind failsUnresolved_operand

theorem jmp_stops : StopsUnresolved .jmp .word :=
  stopsUnresolved_of_fails (fun _ _ => rfl) fun _ _ =>
    failsUnresolved_bind failsUnresolved_effectiveAddress

theorem jsr_stops (r : Reg) : StopsUnresolved (.jsr r) .word :=
  stopsUnresolved_of_fails (fun _ _ => rfl) fun _ _ =>
    failsUnresolved_bind failsUnresolved_effectiveAddress

/-- Settles O10, family by family. -/
theorem operandStops : Obligations.OperandStops :=
  ⟨wordUnary_stops, byteUnary_stops, wordWithReg_stops, wordBinary_stops, byteBinary_stops,
    jmp_stops, jsr_stops⟩

end Sys2Proof.Machine
end

section
/-! Encoding and decoding (30_encoding.md R80 to R102): the fields of an encoded word, the round
trip in both directions, the words no row matches, and what the CPU does with one of them. -/

namespace Sys2Proof

/-! ## The opcode fields of each format (R82 to R87) -/

section FormatFields

variable (o13 : BitVec 13) (o10 : BitVec 10) (o8 x : BitVec 8) (o7 : BitVec 7) (o4 : BitVec 4)
  (r : Reg) (s d : Operand) (n : BitVec 6)

@[simp] theorem so_bits15_12 : (encodeSo o10 d).extractLsb' 12 4 = o10.extractLsb' 6 4 :=
  so_hi _ _ 6 4
@[simp] theorem so_bits11_8 : (encodeSo o10 d).extractLsb' 8 4 = o10.extractLsb' 2 4 :=
  so_hi _ _ 2 4
@[simp] theorem so_bits7_6 : (encodeSo o10 d).extractLsb' 6 2 = o10.extractLsb' 0 2 := so_hi _ _ 0 2
@[simp] theorem mk_bits15_12 : (encodeMk o10 n).extractLsb' 12 4 = o10.extractLsb' 6 4 :=
  mk_hi _ _ 6 4
@[simp] theorem mk_bits11_8 : (encodeMk o10 n).extractLsb' 8 4 = o10.extractLsb' 2 4 :=
  mk_hi _ _ 2 4
@[simp] theorem mk_bits7_6 : (encodeMk o10 n).extractLsb' 6 2 = o10.extractLsb' 0 2 := mk_hi _ _ 0 2
@[simp] theorem br_bits15_12 : (encodeBr o8 x).extractLsb' 12 4 = o8.extractLsb' 4 4 :=
  br_hi _ _ 4 4
@[simp] theorem br_bits11_8 : (encodeBr o8 x).extractLsb' 8 4 = o8.extractLsb' 0 4 := br_hi _ _ 0 4
@[simp] theorem ro_bits15_12 : (encodeRo o7 r d).extractLsb' 12 4 = o7.extractLsb' 3 4 :=
  ro_hi _ _ _ 3 4
@[simp] theorem ro_bits11_9 : (encodeRo o7 r d).extractLsb' 9 3 = o7.extractLsb' 0 3 :=
  ro_hi _ _ _ 0 3
@[simp] theorem ro_bits15_9 : (encodeRo o7 r d).extractLsb' 9 7 = o7 :=
  (ro_hi _ _ _ 0 7).trans (extract_all _)
@[simp] theorem sb_bits15_12 : (encodeSb o7 r n).extractLsb' 12 4 = o7.extractLsb' 3 4 :=
  sb_hi _ _ _ 3 4
@[simp] theorem sb_bits11_9 : (encodeSb o7 r n).extractLsb' 9 3 = o7.extractLsb' 0 3 :=
  sb_hi _ _ _ 0 3
@[simp] theorem do_bits15_12 : (encodeDo o4 s d).extractLsb' 12 4 = o4 :=
  (do_hi _ _ _ 0 4).trans (extract_all _)

@[simp] theorem ro_bits11_8 : (encodeRo o7 r d).extractLsb' 8 4 =
    o7.extractLsb' 0 3 ++ r.bits.extractLsb' 2 1 := by
  rw [← append_extract 8 3 1, ro_hi _ _ _ 0 3, encodeRo, extract_append_hi 2 1,
    extract_append_lo 2 1 _ _ (by omega)]

@[simp] theorem rg_bits15_12 : (encodeRg o13 r).extractLsb' 12 4 = o13.extractLsb' 9 4 :=
  rg_hi _ _ 9 4
@[simp] theorem rg_bits11_8 : (encodeRg o13 r).extractLsb' 8 4 = o13.extractLsb' 5 4 :=
  rg_hi _ _ 5 4
@[simp] theorem rg_bits7_6 : (encodeRg o13 r).extractLsb' 6 2 = o13.extractLsb' 3 2 := rg_hi _ _ 3 2
@[simp] theorem rg_bits5_3 : (encodeRg o13 r).extractLsb' 3 3 = o13.extractLsb' 0 3 := rg_hi _ _ 0 3

end FormatFields

/-! ## Encoding, then decoding -/

theorem decode_of_fixed {e : Encodings} {w : Word} {i : Instr} (h : decodeFixed w = some i) :
    decode e w = .ok i := by
  simp [decode, h]

/-- The four rows whose encodings are OPEN (R94). -/
def Instr.isOpen : Instr → Bool
  | .svb | .trace | .ior _ _ | .iow _ _ => true
  | _ => false

/-- Bit 8 of a JSR is the top bit of its REG, so that the row stands twice in the table of
bits 11:8. -/
theorem decodeFixed_jsr (r : Reg) (d : Operand) :
    decodeFixed (encodeRo 0x04 r d) = some (.jsr r d) := by
  cases r <;> simp [decodeFixed, decodeLow, Reg.bits, operandAt_ro, regAt_ro]

theorem decodeFixed_ccop : ∀ set n z v c : Bool, namedCcop set n z v c = false →
    decodeFixed (encodeCc set n z v c) = some (.ccop set n z v c) := by
  decide

/-- The round trip of the fixed rows, format by format, whatever the OPEN encodings are. -/
theorem decodeFixed_encode {e : Encodings} {i : Instr} (hopen : i.isOpen = false)
    (hwf : i.wellFormed = true) : decodeFixed (encode e i) = some i := by
  cases i
  case br | bne | beq | bge | bgt | blt | ble | bpl | bmi | bhi | blos | bvc | bvs | bcc | bcs |
      emt | trap =>
    simp [encode, decodeFixed, decodeLow, decodeHigh, br_lo]
  case clr | clrb | com | comb | inc | incb | dec | decb | neg | negb | adc | adcb | sbc | sbcb |
      tst | tstb | ror | rorb | rol | rolb | asr | asrb | asl | aslb | swab | sxt | jmp | mtps |
      mfps =>
    simp [encode, decodeFixed, decodeLow, decodeHigh, decodeZero, operandAt_so]
  case mov | movb | cmp | cmpb | bit | bitb | bic | bicb | bis | bisb | add | sub =>
    simp [encode, decodeFixed, operandAt_do, operandAt_do_src]
  case mul | div | ash | ashc | xor =>
    simp [encode, decodeFixed, decodeRegisterGroup, operandAt_ro, regAt_ro]
  case jsr r d => exact decodeFixed_jsr r d
  case rts => simp [encode, decodeFixed, decodeLow, decodeZero, decodeRtsCc, regAt_rg]
  case mark => simp [encode, decodeFixed, decodeLow, mk_lo]
  case sob => simp [encode, decodeFixed, decodeRegisterGroup, regAt_sb, sb_lo]
  case ccop set n z v c =>
    exact decodeFixed_ccop set n z v c (by simpa [Instr.wellFormed] using hwf)
  case svb | trace | ior | iow => cases hopen
  case halt | wait | rti | bpt | iot | reset | rtt | mftp =>
    simp [encode, decodeFixed, decodeLow, decodeZero, decodeImplied]
  case clc | clv | clz | cln | ccc | sec | sev | sez | sen | scc | nop =>
    simp [encode, decodeFixed, decodeLow, decodeZero, decodeRtsCc, decodeCc]

/-! ## Decoding, then encoding -/

/-- The word is the code of a well-formed instruction. -/
structure Codes (e : Encodings) (w : Word) (i : Instr) : Prop where
  encode_eq : encode e i = w
  wellFormed : i.wellFormed = true

theorem operandAt_bits (k : Nat) (w : Word) : (operandAt k w).bits = w.extractLsb' k 6 := by
  simp only [Operand.bits, operandAt, regAt, reg_bits_ofBits, mode_bits_ofBits]
  exact append_extract k 3 3 w

theorem eq_three_of_ne : ∀ c : BitVec 2, c ≠ 0 → c ≠ 1 → c ≠ 2 → c = 3 := by decide

/-- Bits 5:3 past the rows of RTS and the illegal words have bit 5 set (R300). -/
theorem top_bit_of_ne : ∀ f : BitVec 3, f ≠ 0 → f ≠ 1 → f ≠ 2 → f ≠ 3 → f.extractLsb' 2 1 = 1 := by
  decide

section FieldsOfWord

variable {w : Word} {a b : BitVec 4} {c : BitVec 2} {f : BitVec 3}

theorem bits15_8 (h12 : w.extractLsb' 12 4 = a) (h8 : w.extractLsb' 8 4 = b) :
    w.extractLsb' 8 8 = a ++ b := by
  rw [← h12, ← h8, append_extract 8 4 4]

theorem bits15_6 (h12 : w.extractLsb' 12 4 = a) (h8 : w.extractLsb' 8 4 = b)
    (h6 : w.extractLsb' 6 2 = c) : w.extractLsb' 6 10 = a ++ b ++ c := by
  rw [← bits15_8 h12 h8, ← h6, append_extract 6 8 2]

theorem bits15_6_of_ne (h12 : w.extractLsb' 12 4 = a) (h8 : w.extractLsb' 8 4 = b)
    (h0 : w.extractLsb' 6 2 ≠ 0) (h1 : w.extractLsb' 6 2 ≠ 1) (h2 : w.extractLsb' 6 2 ≠ 2) :
    w.extractLsb' 6 10 = a ++ b ++ (3 : BitVec 2) :=
  bits15_6 h12 h8 (eq_three_of_ne _ h0 h1 h2)

theorem bits15_9 (h12 : w.extractLsb' 12 4 = a) (h9 : w.extractLsb' 9 3 = f) :
    w.extractLsb' 9 7 = a ++ f := by
  rw [← h12, ← h9, append_extract 9 4 3]

theorem bits11_9 (h8 : w.extractLsb' 8 4 = b) : w.extractLsb' 9 3 = b.extractLsb' 1 3 := by
  rw [← h8, ← append_extract 8 3 1, extract_append_hi 0 3, extract_all]

theorem encodeSo_of_bits {op : BitVec 10} (h : w.extractLsb' 6 10 = op) :
    encodeSo op (operandAt 0 w) = w := by
  rw [← h, encodeSo, operandAt_bits, append_extract 0 10 6, extract_all]

theorem encodeMk_of_bits {op : BitVec 10} (h : w.extractLsb' 6 10 = op) :
    encodeMk op (w.extractLsb' 0 6) = w := by
  rw [← h, encodeMk, append_extract 0 10 6, extract_all]

theorem encodeBr_of_bits {op : BitVec 8} (h : w.extractLsb' 8 8 = op) :
    encodeBr op (w.extractLsb' 0 8) = w := by
  rw [← h, encodeBr, append_extract 0 8 8, extract_all]

theorem encodeRg_of_bits {op : BitVec 13} (h : w.extractLsb' 3 13 = op) :
    encodeRg op (regAt 0 w) = w := by
  rw [← h, encodeRg, regAt, reg_bits_ofBits, append_extract 0 13 3, extract_all]

theorem encodeSb_of_bits {op : BitVec 7} (h : w.extractLsb' 9 7 = op) :
    encodeSb op (regAt 6 w) (w.extractLsb' 0 6) = w := by
  rw [← h, encodeSb, regAt, reg_bits_ofBits, append_extract 6 7 3, append_extract 0 10 6,
    extract_all]

theorem encodeRo_of_bits {op : BitVec 7} (h : w.extractLsb' 9 7 = op) :
    encodeRo op (regAt 6 w) (operandAt 0 w) = w := by
  rw [← h, encodeRo, regAt, reg_bits_ofBits, operandAt_bits, append_extract 6 7 3,
    append_extract 0 10 6, extract_all]

theorem encodeDo_of_bits {op : BitVec 4} (h : w.extractLsb' 12 4 = op) :
    encodeDo op (operandAt 6 w) (operandAt 0 w) = w := by
  rw [← h, encodeDo, operandAt_bits, operandAt_bits, append_extract 6 4 6, append_extract 0 10 6,
    extract_all]

end FieldsOfWord

/-- Whatever a table of the decoder answers for the word has the word for its code. -/
def TableCodes (e : Encodings) (w : Word) (o : Option Instr) : Prop :=
  ∀ i, o = some i → Codes e w i

theorem tableCodes_none {e : Encodings} {w : Word} : TableCodes e w none := by
  rintro _ ⟨⟩

theorem tableCodes_some {e : Encodings} {w : Word} {i : Instr} (henc : encode e i = w)
    (hwf : i.wellFormed = true) : TableCodes e w (some i) := by
  rintro _ ⟨⟩
  exact ⟨henc, hwf⟩

section Tables

variable {e : Encodings} {w : Word}

theorem encodeCc_bits : ∀ b : BitVec 5, encodeCc (b.getLsbD 4) (b.getLsbD 3) (b.getLsbD 2)
    (b.getLsbD 1) (b.getLsbD 0) = (0x005 : BitVec 11) ++ b := by decide

theorem decodeCc_wellFormed : ∀ b : BitVec 5, (decodeCc b).wellFormed = true := by decide

theorem encode_decodeCc (b : BitVec 5) : encode e (decodeCc b) = (0x005 : BitVec 11) ++ b := by
  unfold decodeCc
  split
  case h_12 => exact encodeCc_bits b
  all_goals rfl

theorem codes_decodeImplied (h : w.extractLsb' 6 10 = 0) :
    TableCodes e w (decodeImplied (w.extractLsb' 0 6)) := by
  have hw : (0 : BitVec 10) ++ w.extractLsb' 0 6 = w := by
    rw [← h, append_extract 0 10 6, extract_all]
  unfold decodeImplied
  split
  case h_9 => exact tableCodes_none
  all_goals
    next hlow =>
      rw [hlow] at hw
      exact tableCodes_some hw rfl

theorem codes_decodeRtsCc (h : w.extractLsb' 6 10 = 0x002) : TableCodes e w (decodeRtsCc w) := by
  unfold decodeRtsCc
  split
  case h_1 h3 =>
    have h13 : w.extractLsb' 3 13 = 0x010 := by rw [← append_extract 3 10 3, h, h3]; rfl
    exact tableCodes_some (encodeRg_of_bits h13) rfl
  case h_2 | h_3 | h_4 => exact tableCodes_none
  case h_5 h0 h1 h2 h3 =>
    have h5 : w.extractLsb' 5 1 = 1 := by
      rw [← top_bit_of_ne _ h0 h1 h2 h3, ← append_extract 3 1 2, extract_append_hi 0 1, extract_all]
    have h11 : w.extractLsb' 5 11 = 0x005 := by rw [← append_extract 5 10 1, h, h5]; rfl
    refine tableCodes_some ?_ (decodeCc_wellFormed _)
    rw [encode_decodeCc, ← h11, append_extract 0 11 5, extract_all]

theorem codes_decodeZero (h : w.extractLsb' 8 8 = 0) : TableCodes e w (decodeZero w) := by
  have h10 (c : BitVec 2) (h6 : w.extractLsb' 6 2 = c) :
      w.extractLsb' 6 10 = (0 : BitVec 8) ++ c := by
    rw [← h, ← h6, append_extract 6 8 2]
  unfold decodeZero
  split
  case h_1 h6 => exact codes_decodeImplied (h10 _ h6)
  case h_2 h6 => exact tableCodes_some (encodeSo_of_bits (h10 _ h6)) rfl
  case h_3 h6 => exact codes_decodeRtsCc (h10 _ h6)
  case h_4 h0 h1 h2 =>
    exact tableCodes_some (encodeSo_of_bits (h10 _ (eq_three_of_ne _ h0 h1 h2))) rfl

theorem codes_decodeLow (h12 : w.extractLsb' 12 4 = 0) : TableCodes e w (decodeLow w) := by
  unfold decodeLow
  split
  case h_1 h8 => exact codes_decodeZero (bits15_8 h12 h8)
  case h_2 h8 | h_3 h8 | h_4 h8 | h_5 h8 | h_6 h8 | h_7 h8 | h_8 h8 =>
    exact tableCodes_some (encodeBr_of_bits (bits15_8 h12 h8)) rfl
  case h_9 h8 | h_10 h8 =>
    exact tableCodes_some (encodeRo_of_bits (bits15_9 h12 (bits11_9 h8))) rfl
  case h_11 h8 | h_12 h8 | h_13 h8 =>
    split
    case h_4 h0 h1 h2 =>
      exact tableCodes_some (encodeSo_of_bits (bits15_6_of_ne h12 h8 h0 h1 h2)) rfl
    all_goals next h6 => exact tableCodes_some (encodeSo_of_bits (bits15_6 h12 h8 h6)) rfl
  case h_14 h8 =>
    split
    case h_1 h6 => exact tableCodes_some (encodeMk_of_bits (bits15_6 h12 h8 h6)) rfl
    case h_2 | h_3 => exact tableCodes_none
    case h_4 h0 h1 h2 =>
      exact tableCodes_some (encodeSo_of_bits (bits15_6_of_ne h12 h8 h0 h1 h2)) rfl
  case h_15 => exact tableCodes_none

theorem codes_decodeRegisterGroup (h12 : w.extractLsb' 12 4 = 7) :
    TableCodes e w (decodeRegisterGroup w) := by
  unfold decodeRegisterGroup
  split
  case h_6 h9 => exact tableCodes_some (encodeSb_of_bits (bits15_9 h12 h9)) rfl
  case h_7 => exact tableCodes_none
  all_goals next h9 => exact tableCodes_some (encodeRo_of_bits (bits15_9 h12 h9)) rfl

theorem codes_decodeHigh (h12 : w.extractLsb' 12 4 = 8) : TableCodes e w (decodeHigh w) := by
  unfold decodeHigh
  split
  case h_11 h8 | h_12 h8 | h_13 h8 =>
    split
    case h_4 h0 h1 h2 =>
      exact tableCodes_some (encodeSo_of_bits (bits15_6_of_ne h12 h8 h0 h1 h2)) rfl
    all_goals next h6 => exact tableCodes_some (encodeSo_of_bits (bits15_6 h12 h8 h6)) rfl
  case h_14 h8 =>
    split
    case h_1 h6 => exact tableCodes_some (encodeSo_of_bits (bits15_6 h12 h8 h6)) rfl
    case h_2 | h_3 => exact tableCodes_none
    case h_4 h0 h1 h2 =>
      exact tableCodes_some (encodeSo_of_bits (bits15_6_of_ne h12 h8 h0 h1 h2)) rfl
  case h_15 => exact tableCodes_none
  all_goals next h8 => exact tableCodes_some (encodeBr_of_bits (bits15_8 h12 h8)) rfl

/-- No table of the decoder drops a bit of the word (R95). -/
theorem codes_decodeFixed : TableCodes e w (decodeFixed w) := by
  unfold decodeFixed
  split
  case h_1 h12 => exact codes_decodeLow h12
  case h_8 h12 => exact codes_decodeRegisterGroup h12
  case h_9 h12 => exact codes_decodeHigh h12
  case h_16 => exact tableCodes_none
  all_goals next h12 => exact tableCodes_some (encodeDo_of_bits h12) rfl

end Tables

/-- Settles O3: a fixed row by `codes_decodeFixed`, an OPEN one by the bits the decoder compared. -/
theorem encodeOfDecode : Obligations.EncodeOfDecode := by
  intro e w i h
  unfold decode at h
  split at h
  · next hfixed =>
    cases h
    obtain ⟨henc, hwf⟩ := codes_decodeFixed (e := e) _ hfixed
    exact ⟨henc, hwf⟩
  · split at h
    · next hsvb => cases h; exact ⟨hsvb.symm, rfl⟩
    split at h
    · next htrace => cases h; exact ⟨htrace.symm, rfl⟩
    split at h
    · next hior => cases h; exact ⟨encodeRo_of_bits hior, rfl⟩
    split at h
    · next hiow => cases h; exact ⟨encodeRo_of_bits hiow, rfl⟩
    · cases h

/-! ## The words no row matches (R100) -/

theorem decodeImplied_none : ∀ b : BitVec 6, decodeImplied b = none ↔ 8 ≤ b.toNat := by decide

section Unmatched

variable {w : Word}

theorem decodeRtsCc_none : decodeRtsCc w = none ↔
    w.extractLsb' 3 3 = 1 ∨ w.extractLsb' 3 3 = 2 ∨ w.extractLsb' 3 3 = 3 := by
  unfold decodeRtsCc
  split <;> simp_all

theorem decodeZero_none : decodeZero w = none ↔
    w.extractLsb' 6 2 = 0 ∧ 8 ≤ (w.extractLsb' 0 6).toNat ∨
    w.extractLsb' 6 2 = 2 ∧ decodeRtsCc w = none := by
  unfold decodeZero
  split <;> simp_all [decodeImplied_none]

theorem decodeLow_none : decodeLow w = none ↔
    w.extractLsb' 8 4 = 0 ∧ decodeZero w = none ∨
    w.extractLsb' 8 4 = 13 ∧ (w.extractLsb' 6 2 = 1 ∨ w.extractLsb' 6 2 = 2) ∨
    w.extractLsb' 8 4 = 14 ∨ w.extractLsb' 8 4 = 15 := by
  unfold decodeLow
  split
  case h_11 | h_12 | h_13 | h_14 => split <;> simp_all
  case h_15 =>
    simp [← BitVec.toNat_inj] at *
    omega
  all_goals simp [*]

theorem decodeRegisterGroup_none : decodeRegisterGroup w = none ↔
    w.extractLsb' 9 3 = 5 ∨ w.extractLsb' 9 3 = 6 := by
  unfold decodeRegisterGroup
  split
  case h_7 =>
    simp [← BitVec.toNat_inj] at *
    omega
  all_goals simp [*]

theorem decodeHigh_none : decodeHigh w = none ↔
    w.extractLsb' 8 4 = 13 ∧ (w.extractLsb' 6 2 = 1 ∨ w.extractLsb' 6 2 = 2) ∨
    w.extractLsb' 8 4 = 14 ∨ w.extractLsb' 8 4 = 15 := by
  unfold decodeHigh
  split
  case h_11 | h_12 | h_13 | h_14 => split <;> simp_all
  case h_15 =>
    simp [← BitVec.toNat_inj] at *
    omega
  all_goals simp [*]

theorem decodeFixed_none : decodeFixed w = none ↔
    w.extractLsb' 12 4 = 0 ∧ decodeLow w = none ∨
    w.extractLsb' 12 4 = 7 ∧ decodeRegisterGroup w = none ∨
    w.extractLsb' 12 4 = 8 ∧ decodeHigh w = none ∨ w.extractLsb' 12 4 = 15 := by
  unfold decodeFixed
  split
  case h_16 =>
    simp [← BitVec.toNat_inj] at *
    omega
  all_goals simp [*]

/-- The eight ranges of R100 are what the tables leave out. -/
theorem decodeFixed_none_iff : decodeFixed w = none ↔ inIllegalSet w = true := by
  have := w.isLt
  simp only [decodeFixed_none, decodeLow_none, decodeZero_none, decodeRtsCc_none,
    decodeRegisterGroup_none, decodeHigh_none, ← BitVec.toNat_inj, extract_toNat, inIllegalSet,
    Bool.or_eq_true, Bool.and_eq_true, decide_eq_true_eq, BitVec.toNat_ofNat,
    BitVec.ofNat_eq_ofNat]
  omega

end Unmatched

theorem decode_error_iff {e : Encodings} {w : Word} : (∃ r, decode e w = .error r) ↔
    decodeFixed w = none ∧ w ≠ e.svb ∧ w ≠ e.trace ∧ w.extractLsb' 9 7 ≠ e.ior ∧
      w.extractLsb' 9 7 ≠ e.iow := by
  unfold decode
  cases decodeFixed w with
  | some i => simp
  | none =>
    simp only
    split_ifs <;> simp_all

/-- Settles O4: an error is a word no fixed row matches that is no OPEN code either, and the words
no fixed row matches are the eight ranges. -/
theorem illegalWords : Obligations.IllegalWords := by
  intro e w
  rw [decode_error_iff, decodeFixed_none_iff]
  simp only [inIllegalSet, Bool.or_eq_true, Bool.and_eq_true, decide_eq_true_eq, or_assoc]

/-! ## The OPEN encodings (R94) -/

theorem inIllegalSet_of_block {w : Word} (h : inIllegalBlock (w.extractLsb' 9 7) = true) :
    inIllegalSet w = true := by
  have := w.isLt
  simp only [inIllegalBlock, inIllegalSet, Bool.or_eq_true, Bool.and_eq_true, decide_eq_true_eq,
    ← BitVec.toNat_inj, extract_toNat, BitVec.reduceToNat] at *
  omega

theorem encodings_ok_iff (e : Encodings) : e.ok = true ↔
    inIllegalSet e.svb = true ∧ inIllegalSet e.trace = true ∧ inIllegalBlock e.ior = true ∧
    inIllegalBlock e.iow = true ∧ e.svb ≠ e.trace ∧ e.ior ≠ e.iow ∧
    e.svb.extractLsb' 9 7 ≠ e.ior ∧ e.svb.extractLsb' 9 7 ≠ e.iow ∧
    e.trace.extractLsb' 9 7 ≠ e.ior ∧ e.trace.extractLsb' 9 7 ≠ e.iow := by
  simp only [Encodings.ok, Bool.and_eq_true, bne_iff_ne, and_assoc]

theorem decode_of_illegal {e : Encodings} {w : Word} (h : inIllegalSet w = true) :
    decode e w =
      if w = e.svb then .ok .svb
      else if w = e.trace then .ok .trace
      else if w.extractLsb' 9 7 = e.ior then .ok (.ior (regAt 6 w) (operandAt 0 w))
      else if w.extractLsb' 9 7 = e.iow then .ok (.iow (regAt 6 w) (operandAt 0 w))
      else .error (.illegalOpcode w) := by
  rw [decode, decodeFixed_none_iff.2 h]

theorem ne_of_bits15_9 {v w : Word} {op : BitVec 7} (hw : w.extractLsb' 9 7 = op)
    (hv : v.extractLsb' 9 7 ≠ op) : w ≠ v := by
  rintro rfl
  exact hv hw

theorem decode_encode_open {e : Encodings} {i : Instr} (hok : e.ok = true)
    (hopen : i.isOpen = true) : decode e (encode e i) = .ok i := by
  obtain ⟨hsvb, htrace, hior, hiow, hst, hio, hsr, hsw, htr, htw⟩ := (encodings_ok_iff e).1 hok
  cases i
  case svb => simp only [encode, decode_of_illegal hsvb, if_true]
  case trace => simp only [encode, decode_of_illegal htrace, hst.symm, if_true, if_false]
  case ior r d =>
    have hbits : (encodeRo e.ior r d).extractLsb' 9 7 = e.ior := ro_bits15_9 _ r d
    rw [encode, decode_of_illegal (inIllegalSet_of_block (by rwa [hbits])),
      if_neg (ne_of_bits15_9 hbits hsr), if_neg (ne_of_bits15_9 hbits htr), if_pos hbits, regAt_ro,
      operandAt_ro]
  case iow r d =>
    have hbits : (encodeRo e.iow r d).extractLsb' 9 7 = e.iow := ro_bits15_9 _ r d
    rw [encode, decode_of_illegal (inIllegalSet_of_block (by rwa [hbits])),
      if_neg (ne_of_bits15_9 hbits hsw), if_neg (ne_of_bits15_9 hbits htw), hbits, if_neg hio.symm,
      if_pos rfl, regAt_ro, operandAt_ro]
  all_goals cases hopen

/-- Settles O2: the fixed rows need no constraint on the OPEN encodings, the four OPEN ones are no
fixed row and share no word. -/
theorem decodeOfEncode : Obligations.DecodeOfEncode := by
  intro e i hok hwf
  cases hopen : i.isOpen with
  | true => exact decode_encode_open hok hopen
  | false => exact decode_of_fixed (decodeFixed_encode hopen hwf)

/-- Settles O5, by evaluating the decoder on each word. -/
theorem sampleWords : Obligations.SampleWords :=
  fun _ => ⟨rfl, rfl, rfl, rfl, rfl, rfl, rfl, rfl, rfl, rfl, rfl, rfl, rfl⟩

end Sys2Proof

namespace Sys2Proof.Machine

open Sys2Proof Sys2Proof.Safety

/-! ## An illegal word in the instruction cycle (R100, R317) -/

theorem perform_rejected {w : Word} {s : State} {r : DecodeReject}
    (h : decode s.cfg.enc w = .error r) : perform w s = toOutcome (illegalOpcode s) := by
  simp [perform, h]

theorem step_rejected {s : State} {r : DecodeReject} (hscript : s.script = [])
    (hrun : s.run = .running) (hpc : isOdd (s.get .pc) = false)
    (hdec : decode s.cfg.enc (s.mem.word (s.get .pc)) = .error r) :
    step s = complete (toOutcome (illegalOpcode (s.set .pc (s.get .pc + 2)))) := by
  rw [step_of_script_nil hscript, cpuStep_running hrun, runInstruction_even hpc,
    perform_rejected (by rwa [set_cfg])]

theorem illegalOpcode_skips {s : State} (h : s.cfg.settings.ile = false) :
    illegalOpcode s = .ok s := by
  simp [illegalOpcode, h]

theorem illegalOpcode_traps {s : State} (h : s.cfg.settings.ile = true) :
    illegalOpcode s = enter (vectorAddress s.cfg.vec.illegal) s := by
  simp [illegalOpcode, h]

theorem complete_of_running {t : State} (h : t.run = .running) :
    complete (toOutcome (.ok t)) = toOutcome (endCheck t) :=
  complete_of_not_halted (by simp [h])

theorem vectorAddress_eq (n : BitVec 15) : vectorAddress n = BitVec.ofNat 16 (2 * n.toNat) :=
  append_zero_eq_double n

theorem enters_running {vec : Word} {s t : State} (h : Enters vec s t) : t.run = .running := by
  obtain ⟨_, _, _, _, _, _, hrun, _⟩ := h
  exact hrun

end Sys2Proof.Machine

namespace Sys2Proof

open Sys2Proof.Machine

/-- Settles O51: the fetched word is rejected, so the step completes `illegalOpcode` of the state
past the word, by the value of ILE. -/
theorem illegalOpcode : Obligations.IllegalOpcode := by
  intro s r hscript hrun hpc hdec s1
  have hstep : step s = complete (toOutcome (Machine.illegalOpcode s1)) :=
    step_rejected hscript hrun hpc hdec
  refine ⟨fun hile => ?_, fun hile hwf hsp => ?_⟩
  · have hskip : Machine.illegalOpcode s1 = .ok s1 := illegalOpcode_skips hile
    rw [hstep, hskip, complete_of_running (t := s1) hrun]
  · have htrap := illegalOpcode_traps (s := s1) hile
    obtain ⟨t, henter, henters, hirq, htinh, _⟩ :=
      enter_effect (s := s1) hwf hsp (vectorAddress_even s1.cfg.vec.illegal)
    refine ⟨t, by rwa [vectorAddress_eq] at henters, hirq, htinh, ?_⟩
    rw [hstep, htrap, henter, complete_of_running (enters_running henters)]

end Sys2Proof
end

section
/-! Operand resolution (40_addressing_modes.md): the step of modes 2 and 4, the faults of a mode that
reads a word, and what each mode that does so answers. -/

namespace Sys2Proof.Machine

open Sys2Proof

/-! ## The step of modes 2 and 4 (R123) -/

theorem stepDelta_eq (sz : Size) (r : Reg) (s : State) :
    stepDelta sz r s =
      if sz = .word ∨ r = .pc ∨ (r = .sp ∧ s.cfg.sw.spByteStep = .two) then 2 else 1 := by
  cases sz with
  | word => simp [stepDelta]
  | byte =>
    cases r with
    | sp => cases hstep : s.cfg.sw.spByteStep <;> simp [stepDelta, hstep]
    | pc => simp [stepDelta]
    | r0 | r1 | r2 | r3 | r4 | r5 => simp [stepDelta]

/-! ## Computations that begin by reading a word (R52, R53) -/

theorem readWord_bind {α : Type} (a : Word) (s : State) (k : Word → Except Fault α) :
    (readWord a s >>= k) =
      if isOdd a then .error (.oddWordAddress a) else k (s.mem.word a) := by
  cases hodd : isOdd a with
  | true => rw [readWord_odd s hodd]; rfl
  | false => rw [readWord_even s hodd]; rfl

theorem fetch_bind {α : Type} (s : State) (k : Word × State → Except Fault α) :
    (fetch s >>= k) =
      if isOdd (s.get .pc) then .error (.oddPc (s.get .pc))
      else k (s.mem.word (s.get .pc), s.set .pc (s.get .pc + 2)) := by
  cases hodd : isOdd (s.get .pc) with
  | true => rw [fetch_odd hodd]; rfl
  | false => rw [fetch_even hodd]; rfl

/-! ## The modes that read a word (R114, R116, R117, R118) -/

/-- The address modes 6 and 7 compute: Rn, read after the PC is stepped past the index word, plus that
word (R117). -/
def indexedAddress (rn : Reg) (s : State) : Word :=
  (if rn = .pc then s.get .pc + 2 else s.get rn) + s.mem.word (s.get .pc)

theorem get_past_index (rn : Reg) (s : State) :
    (s.set .pc (s.get .pc + 2)).get rn + s.mem.word (s.get .pc) = indexedAddress rn s := by
  rw [get_set, indexedAddress]

theorem operand_autoincDeferred (rn : Reg) (sz : Size) (s : State) :
    operand ⟨.autoincDeferred, rn⟩ sz s =
      if isOdd (s.get rn) then .error (.oddWordAddress (s.get rn))
      else .ok (.mem (s.mem.word (s.get rn)), s.set rn (s.get rn + 2)) :=
  readWord_bind _ _ _

theorem operand_autodecDeferred (rn : Reg) (sz : Size) (s : State) :
    operand ⟨.autodecDeferred, rn⟩ sz s =
      if isOdd (s.get rn - 2) then .error (.oddWordAddress (s.get rn - 2))
      else .ok (.mem (s.mem.word (s.get rn - 2)), s.set rn (s.get rn - 2)) :=
  readWord_bind _ _ _

theorem operand_indexed (rn : Reg) (sz : Size) (s : State) :
    operand ⟨.indexed, rn⟩ sz s =
      if isOdd (s.get .pc) then .error (.oddPc (s.get .pc))
      else .ok (.mem (indexedAddress rn s), s.set .pc (s.get .pc + 2)) := by
  rw [← get_past_index]
  exact fetch_bind _ _

theorem operand_indexedDeferred (rn : Reg) (sz : Size) (s : State) :
    operand ⟨.indexedDeferred, rn⟩ sz s =
      if isOdd (s.get .pc) then .error (.oddPc (s.get .pc))
      else if isOdd (indexedAddress rn s) then .error (.oddWordAddress (indexedAddress rn s))
      else .ok (.mem (s.mem.word (indexedAddress rn s)), s.set .pc (s.get .pc + 2)) := by
  rw [← get_past_index]
  refine (fetch_bind _ _).trans (if_congr Iff.rfl rfl ?_)
  exact readWord_bind _ _ _

/-- Settles O8, mode by mode: modes 0 to 2 and 4 by the definition and the step's value, the others by
the word they read. -/
theorem operandModes : Obligations.OperandModes := by
  intro rn sz s x delta word next indexed
  have hdelta : stepDelta sz rn s = delta := stepDelta_eq sz rn s
  refine ⟨rfl, rfl, ?autoinc, ?autodec, operand_autoincDeferred rn sz s,
    operand_autodecDeferred rn sz s, operand_indexed rn sz s, operand_indexedDeferred rn sz s⟩
  case autoinc => rw [← hdelta]; rfl
  case autodec => rw [← hdelta]; rfl

end Sys2Proof.Machine
end

section
/-! The single-operand instructions (41_single_operand.md R140 to R154): their words, what each
computes as arithmetic on the operand, for every width, and their effects. -/

namespace Sys2Proof

open Sys2Proof.Safety

/-! ## Words of format SO (R82) -/

/-- An opcode above an operand specifier, as a number. -/
theorem ofNat_specifier (op : BitVec 10) (d : Operand) :
    BitVec.ofNat 16 (64 * op.toNat + specifier d) = encodeSo op d := by
  have hop := op.isLt
  have hmode := d.mode.bits.isLt
  have hrn := d.rn.bits.isLt
  have hbits : d.bits.toNat = specifier d := by
    rw [Operand.bits, BitVec.toNat_append, ← Nat.shiftLeft_add_eq_or_of_lt hrn, Nat.shiftLeft_eq,
      specifier]
    omega
  apply BitVec.eq_of_toNat_eq
  rw [encodeSo, BitVec.toNat_append, ← Nat.shiftLeft_add_eq_or_of_lt d.bits.isLt, hbits,
    Nat.shiftLeft_eq, BitVec.toNat_ofNat, specifier]
  omega

/-- What the encoder writes as format SO decodes back (R82). -/
theorem codedSo_of_encode {base : Nat} {op : BitVec 10} {i : Operand → Instr}
    (hrow : ∀ e d, encode e (i d) = encodeSo op d ∧ (i d).isOpen = false ∧
      (i d).wellFormed = true)
    (hbase : base = 64 * op.toNat) : CodedSo base i := by
  intro e d
  obtain ⟨henc, hopen, hwf⟩ := hrow e d
  rw [hbase, ofNat_specifier, ← henc]
  exact decode_of_fixed (decodeFixed_encode hopen hwf)

end Sys2Proof

namespace Sys2Proof.Machine

open Sys2Proof Sys2Proof.Safety

/-! ## Effects by template (R140) -/

theorem exec_next {o : Host.Outcome State Fault Refusal} {x : Except Fault State}
    {P : State → Prop} (ho : o = toOutcome x) (hx : ∃ t, x = .ok t ∧ P t) :
    ∃ t, o = .next t ∧ P t := by
  obtain ⟨t, hok, hP⟩ := hx
  exact ⟨t, by rw [ho, hok]; rfl, hP⟩

/-- A word form and a byte form of one rule, from what the model computes at every width. -/
theorem modifiesBoth_of_alu (alu : {w : Nat} → Cc → BitVec w → BitVec w × Cc)
    {iw ib : Operand → Instr} {f : (w : Nat) → Cc → BitVec w → BitVec w × Cc}
    (hexec : ∀ d s, exec (iw d) s = toOutcome (modifyWord alu d s) ∧
      exec (ib d) s = toOutcome (modifyByte alu d s))
    (halu : ∀ w cc (d : BitVec w), alu cc d = f w cc d) : ModifiesBoth iw ib f := by
  refine ⟨fun d s s1 l x hwf hd hx => ?_, fun d s s1 l hwf hd => ?_⟩
  · rw [← halu]
    exact exec_next (hexec d s).1 (modifyWord_effect alu hwf hd hx)
  · rw [← halu]
    exact exec_next (hexec d s).2 (modifyByte_effect alu hwf hd)

theorem producesWord_of_alu {i : Operand → Instr} {f : Cc → Word × Cc}
    (hexec : ∀ d s, exec (i d) s = toOutcome (produceWord f d s)) : ProducesWord i f :=
  fun d s _ _ hwf hd hl => exec_next (hexec d s) (produceWord_effect f hwf hd hl)

theorem producesByte_of_alu {i : Operand → Instr} {f : Cc → Byte × Cc}
    (hexec : ∀ d s, exec (i d) s = toOutcome (produceByte f d s)) : ProducesByte i f :=
  fun d s _ _ hwf hd => exec_next (hexec d s) (produceByte_effect f hwf hd)

theorem testsBoth_of_alu (alu : {w : Nat} → BitVec w → Cc) {iw ib : Operand → Instr}
    {f : (w : Nat) → BitVec w → Cc}
    (hexec : ∀ d s, exec (iw d) s = toOutcome (testWord alu d s) ∧
      exec (ib d) s = toOutcome (testByte alu d s))
    (halu : ∀ w (d : BitVec w), alu d = f w d) : TestsBoth iw ib f := by
  refine ⟨fun d s s1 l x hd hx => ?_, fun d s s1 l hd => ?_⟩
  · rw [← halu]
    exact exec_next (hexec d s).1 (testWord_effect alu hd hx)
  · rw [← halu]
    exact exec_next (hexec d s).2 (testByte_effect alu hd)

section Arithmetic

variable {w : Nat} (cc : Cc) (d : BitVec w)

/-! ## N and Z of a result (R26, R27) -/

theorem nzOf_eq_codes (r : BitVec w) (v c : Bool) : nzOf r v c = codes r v c := by
  rw [nzOf, codes, BitVec.msb_eq_getLsbD_last, beq_eq_decide]

/-- A result and its codes, once the result is known as a number. -/
theorem result_codes {r r' : BitVec w} (v c : Bool) (hr : r = r') :
    (r, nzOf r v c) = (r', codes r' v c) := by
  rw [nzOf_eq_codes, hr]

/-- The same for a shift or a rotate, whose V is the new N xor the new C. -/
theorem result_shiftCodes {r r' : BitVec w} (c : Bool) (hr : r = r') :
    (r, ccShift r c) = (r', codes r' (r'.getLsbD (w - 1) ^^ c) c) := by
  rw [ccShift, nzOf_eq_codes, BitVec.msb_eq_getLsbD_last, hr]

/-! ## Results as numbers -/

theorem toNat_lt_two_halves : d.toNat < 2 * 2 ^ (w - 1) := by
  have hd := d.isLt
  cases w with
  | zero => omega
  | succ n => rwa [Nat.pow_succ, Nat.mul_comm] at hd

theorem not_eq_ofNat : ~~~d = BitVec.ofNat w (2 ^ w - 1 - d.toNat) := by
  rw [← BitVec.toNat_not, BitVec.ofNat_toNat, BitVec.setWidth_eq]

theorem add_eq_ofNat (k : Nat) : d + BitVec.ofNat w k = BitVec.ofNat w (d.toNat + k) := by
  rw [BitVec.ofNat_add, BitVec.ofNat_toNat, BitVec.setWidth_eq]

theorem sub_eq_ofInt (k : Nat) : d - BitVec.ofNat w k = BitVec.ofInt w (d.toNat - k) := by
  rw [Int.sub_eq_add_neg, BitVec.ofInt_add, BitVec.ofInt_neg, BitVec.ofInt_natCast,
    BitVec.ofInt_natCast, BitVec.ofNat_toNat, BitVec.setWidth_eq, BitVec.sub_eq_add_neg]

theorem neg_eq_ofInt : -d = BitVec.ofInt w (0 - d.toNat) := by
  rw [Int.zero_sub, BitVec.ofInt_neg, BitVec.ofInt_natCast, BitVec.ofNat_toNat, BitVec.setWidth_eq]

theorem sshiftRight_one_eq_ofInt : d.sshiftRight 1 = BitVec.ofInt w (d.toInt / 2) := by
  rw [BitVec.sshiftRight_eq, Int.shiftRight_eq_div_pow]
  rfl

theorem shiftLeft_eq_ofNat (k : Nat) : d <<< k = BitVec.ofNat w (d.toNat <<< k) := rfl

theorem shiftRight_eq_ofNat (k : Nat) : d >>> k = BitVec.ofNat w (d.toNat >>> k) := by
  rw [← BitVec.toNat_ushiftRight, BitVec.ofNat_toNat, BitVec.setWidth_eq]

theorem shiftLeft_one_eq_ofNat : d <<< 1 = BitVec.ofNat w (2 * d.toNat) := by
  rw [shiftLeft_eq_ofNat, Nat.shiftLeft_eq, Nat.mul_comm]

/-- The old C above bits W-1:1. -/
theorem rorResult_eq_ofNat (c : Bool) :
    rorResult c d = BitVec.ofNat w (c.toNat * 2 ^ (w - 1) + d.toNat / 2) := by
  have hhalf : d.toNat / 2 < 2 ^ (w - 1) := Nat.div_lt_of_lt_mul (toNat_lt_two_halves d)
  have hsplit : c.toNat * 2 ^ (w - 1) + d.toNat / 2 = d.toNat >>> 1 ||| c.toNat * 2 ^ (w - 1) := by
    rw [Nat.mul_comm, Nat.two_pow_add_eq_or_of_lt hhalf, Nat.or_comm]
    rfl
  rw [hsplit, BitVec.ofNat_or, ← shiftRight_eq_ofNat, rorResult]
  cases c <;> simp

/-- Bits W-2:0 above the old C. -/
theorem rolResult_eq_ofNat (c : Bool) : rolResult c d = BitVec.ofNat w (2 * d.toNat + c.toNat) := by
  have hsplit : 2 * d.toNat + c.toNat = d.toNat <<< 1 ||| c.toNat := by
    rw [← Nat.shiftLeft_add_eq_or_of_lt (Bool.toNat_lt c), Nat.shiftLeft_eq, Nat.mul_comm,
      Nat.pow_one]
  rw [hsplit, BitVec.ofNat_or, ← shiftLeft_eq_ofNat, rolResult]
  cases c <;> rfl

/-! ## Signed overflow at the ends of the range (R25) -/

theorem toInt_eq_of_half : d.toInt =
    if d.toNat < 2 ^ (w - 1) then (d.toNat : Int) else d.toNat - 2 * (2 ^ (w - 1) : Nat) := by
  cases w with
  | zero => simp [BitVec.of_length_zero]
  | succ n =>
    have htop : 2 * d.toNat < 2 ^ (n + 1) ↔ d.toNat < 2 ^ n := by rw [Nat.pow_succ]; omega
    simp only [BitVec.toInt_eq_toNat_cond, htop, Nat.add_sub_cancel]
    rw [Nat.pow_succ, Nat.mul_comm, Nat.cast_mul]
    rfl

theorem outOfRange_eq_natCast (v : Int) : outOfRange w v =
    decide (v < -((2 ^ (w - 1) : Nat) : Int) ∨ ((2 ^ (w - 1) : Nat) : Int) ≤ v) := by
  rw [outOfRange, Nat.cast_pow, Nat.cast_ofNat]

/-- Adding a carry leaves the signed range only from its upper end. -/
theorem outOfRange_add_carry (c : Bool) :
    outOfRange w (d.toInt + c.toNat) = (decide (d.toNat = 2 ^ (w - 1) - 1) && c) := by
  have hd := toNat_lt_two_halves d
  rw [outOfRange_eq_natCast, toInt_eq_of_half]
  generalize 2 ^ (w - 1) = half at *
  cases c with
  | false => simp only [Bool.toNat_false, Bool.and_false, decide_eq_false_iff_not]; omega
  | true => simp only [Bool.toNat_true, Bool.and_true, decide_eq_decide]; omega

/-- Subtracting a borrow leaves the signed range only from its lower end. -/
theorem outOfRange_sub_borrow (c : Bool) :
    outOfRange w (d.toInt - c.toNat) = (decide (d.toNat = 2 ^ (w - 1)) && c) := by
  have hd := toNat_lt_two_halves d
  rw [outOfRange_eq_natCast, toInt_eq_of_half]
  generalize 2 ^ (w - 1) = half at *
  cases c with
  | false => simp only [Bool.toNat_false, Bool.and_false, decide_eq_false_iff_not]; omega
  | true => simp only [Bool.toNat_true, Bool.and_true, decide_eq_decide]; omega

/-! ## What each rule computes, at every width -/

/-- R142. -/
theorem aluCom_eq : aluCom cc d =
    let r := BitVec.ofNat w (2 ^ w - 1 - d.toNat)
    (r, codes r false true) :=
  result_codes _ _ (not_eq_ofNat d)

/-- R143. -/
theorem aluInc_eq : aluInc cc d =
    let r := BitVec.ofNat w (d.toNat + 1)
    (r, codes r (decide (d.toNat = 2 ^ (w - 1) - 1)) cc.c) := by
  rw [aluInc, beq_eq_decide]
  exact result_codes _ _ (add_eq_ofNat d 1)

/-- R144. -/
theorem aluDec_eq : aluDec cc d =
    let r := BitVec.ofInt w (d.toNat - 1)
    (r, codes r (decide (d.toNat = 2 ^ (w - 1))) cc.c) := by
  rw [aluDec, beq_eq_decide]
  exact result_codes _ _ (sub_eq_ofInt d 1)

/-- R145. -/
theorem aluNeg_eq : aluNeg cc d =
    let r := BitVec.ofInt w (0 - d.toNat)
    (r, codes r (decide (r.toNat = 2 ^ (w - 1))) (decide (r ≠ 0))) := by
  rw [aluNeg, ← neg_eq_ofInt, beq_eq_decide, bne, beq_eq_decide, ← decide_not]
  exact result_codes _ _ rfl

/-- R147. -/
theorem aluAsr_eq : aluAsr cc d =
    let r := BitVec.ofInt w (d.toInt / 2)
    (r, codes r (r.getLsbD (w - 1) ^^ d.getLsbD 0) (d.getLsbD 0)) :=
  result_shiftCodes _ (sshiftRight_one_eq_ofInt d)

/-- R148. -/
theorem aluAsl_eq : aluAsl cc d =
    let r := BitVec.ofNat w (2 * d.toNat)
    (r, codes r (r.getLsbD (w - 1) ^^ d.getLsbD (w - 1)) (d.getLsbD (w - 1))) := by
  rw [aluAsl, BitVec.msb_eq_getLsbD_last d]
  exact result_shiftCodes _ (shiftLeft_one_eq_ofNat d)

/-- R149. -/
theorem aluRor_eq : aluRor cc d =
    let r := BitVec.ofNat w (cc.c.toNat * 2 ^ (w - 1) + d.toNat / 2)
    (r, codes r (r.getLsbD (w - 1) ^^ d.getLsbD 0) (d.getLsbD 0)) :=
  result_shiftCodes _ (rorResult_eq_ofNat d cc.c)

/-- R150. -/
theorem aluRol_eq : aluRol cc d =
    let r := BitVec.ofNat w (2 * d.toNat + cc.c.toNat)
    (r, codes r (r.getLsbD (w - 1) ^^ d.getLsbD (w - 1)) (d.getLsbD (w - 1))) := by
  rw [aluRol, BitVec.msb_eq_getLsbD_last d]
  exact result_shiftCodes _ (rolResult_eq_ofNat d cc.c)

/-- R152. -/
theorem aluAdc_eq : aluAdc cc d =
    let r := BitVec.ofNat w (d.toNat + cc.c.toNat)
    (r, codes r (outOfRange w (d.toInt + cc.c.toNat)) (decide (2 ^ w ≤ d.toNat + cc.c.toNat))) := by
  rw [outOfRange_add_carry, ← beq_eq_decide]
  exact result_codes _ _ (add_eq_ofNat d cc.c.toNat)

/-- R153: C is the borrow (D19). -/
theorem aluSbc_eq : aluSbc cc d =
    let r := BitVec.ofInt w (d.toNat - cc.c.toNat)
    (r, codes r (outOfRange w (d.toInt - cc.c.toNat)) (decide (d.toNat < cc.c.toNat))) := by
  rw [outOfRange_sub_borrow, ← beq_eq_decide]
  exact result_codes _ _ (sub_eq_ofInt d cc.c.toNat)

end Arithmetic

/-! ## SWAB and SXT, words only (R151, R154) -/

theorem swapped_eq_ofNat (x : Word) :
    (x.extractLsb' 0 8 ++ x.extractLsb' 8 8 : Word) =
      BitVec.ofNat 16 (x.toNat % 256 * 256 + x.toNat / 256) := by
  have hhigh : x.toNat / 256 < 256 := Nat.div_lt_of_lt_mul x.isLt
  have hsum : x.toNat % 256 * 256 + x.toNat / 256 < 2 ^ 16 := by omega
  apply BitVec.eq_of_toNat_eq
  rw [BitVec.toNat_ofNat, Nat.mod_eq_of_lt hsum, BitVec.toNat_append,
    ← Nat.shiftLeft_add_eq_or_of_lt (BitVec.isLt _), Nat.shiftLeft_eq]
  simp only [extract_toNat, Nat.reducePow, Nat.div_one, Nat.mod_eq_of_lt hhigh]

/-- N and Z of the low byte of a word (SWAB_FLAGS_LOW_BYTE, log 23). -/
theorem nzOf_lowByte (r : Word) (v c : Bool) : nzOf (r.extractLsb' 0 8) v c =
    { n := r.getLsbD 7, z := decide (r.toNat % 256 = 0), v := v, c := c } := by
  have hz : r.extractLsb' 0 8 = 0 ↔ r.toNat % 256 = 0 := by
    rw [← BitVec.toNat_inj, extract_toNat]
    simp
  have hn : (r.extractLsb' 0 8).getLsbD 7 = r.getLsbD 7 := by simp
  rw [nzOf_eq_codes, codes, hn, decide_eq_decide.2 hz]

/-- R151, by the switch of D31. -/
theorem aluSwab_eq (flagsLowByte : Bool) (cc : Cc) (x : Word) : aluSwab flagsLowByte cc x =
    let r : Word := BitVec.ofNat 16 (x.toNat % 256 * 256 + x.toNat / 256)
    (r, if flagsLowByte then
        { n := r.getLsbD 7, z := decide (r.toNat % 256 = 0), v := false, c := false }
      else codes r false false) := by
  rw [aluSwab, swapped_eq_ofNat, nzOf_lowByte, nzOf_eq_codes]

/-- R154: Z is the complement of N. -/
theorem aluSxt_eq (cc : Cc) :
    aluSxt cc = (if cc.n then 0xFFFF else 0x0000, { cc with z := !cc.n }) := by
  rw [aluSxt]
  cases cc.n <;> rfl

/-! ## The instructions -/

/-- Settles O12, by the template that writes its destination without reading it. -/
theorem clrResult : Obligations.ClrResult :=
  ⟨codedSo_of_encode (fun _ _ => ⟨rfl, rfl, rfl⟩) rfl,
    codedSo_of_encode (fun _ _ => ⟨rfl, rfl, rfl⟩) rfl,
    producesWord_of_alu fun _ _ => rfl, producesByte_of_alu fun _ _ => rfl⟩

/-- Settles O13: the complement is 2^W - 1 - d at both widths. -/
theorem comResult : Obligations.ComResult :=
  ⟨codedSo_of_encode (fun _ _ => ⟨rfl, rfl, rfl⟩) rfl,
    codedSo_of_encode (fun _ _ => ⟨rfl, rfl, rfl⟩) rfl,
    modifiesBoth_of_alu aluCom (fun _ _ => ⟨rfl, rfl⟩) fun _ => aluCom_eq⟩

/-- Settles O14: both rules as sums on the operand's value, C from the old codes. -/
theorem incDecResult : Obligations.IncDecResult :=
  ⟨codedSo_of_encode (fun _ _ => ⟨rfl, rfl, rfl⟩) rfl,
    codedSo_of_encode (fun _ _ => ⟨rfl, rfl, rfl⟩) rfl,
    codedSo_of_encode (fun _ _ => ⟨rfl, rfl, rfl⟩) rfl,
    codedSo_of_encode (fun _ _ => ⟨rfl, rfl, rfl⟩) rfl,
    modifiesBoth_of_alu aluInc (fun _ _ => ⟨rfl, rfl⟩) fun _ => aluInc_eq,
    modifiesBoth_of_alu aluDec (fun _ _ => ⟨rfl, rfl⟩) fun _ => aluDec_eq⟩

/-- Settles O15: V and C are read off the result, 0 - d. -/
theorem negResult : Obligations.NegResult :=
  ⟨codedSo_of_encode (fun _ _ => ⟨rfl, rfl, rfl⟩) rfl,
    codedSo_of_encode (fun _ _ => ⟨rfl, rfl, rfl⟩) rfl,
    modifiesBoth_of_alu aluNeg (fun _ _ => ⟨rfl, rfl⟩) fun _ => aluNeg_eq⟩

/-- Settles O16, by the template that stores nothing. -/
theorem tstResult : Obligations.TstResult :=
  ⟨codedSo_of_encode (fun _ _ => ⟨rfl, rfl, rfl⟩) rfl,
    codedSo_of_encode (fun _ _ => ⟨rfl, rfl, rfl⟩) rfl,
    testsBoth_of_alu ccTst (fun _ _ => ⟨rfl, rfl⟩) fun _ d => nzOf_eq_codes d false false⟩

/-- Settles O17: a shift is a halving or a doubling, with the codes of every shift. -/
theorem asrAslResult : Obligations.AsrAslResult :=
  ⟨codedSo_of_encode (fun _ _ => ⟨rfl, rfl, rfl⟩) rfl,
    codedSo_of_encode (fun _ _ => ⟨rfl, rfl, rfl⟩) rfl,
    codedSo_of_encode (fun _ _ => ⟨rfl, rfl, rfl⟩) rfl,
    codedSo_of_encode (fun _ _ => ⟨rfl, rfl, rfl⟩) rfl,
    modifiesBoth_of_alu aluAsr (fun _ _ => ⟨rfl, rfl⟩) fun _ => aluAsr_eq,
    modifiesBoth_of_alu aluAsl (fun _ _ => ⟨rfl, rfl⟩) fun _ => aluAsl_eq⟩

/-- Settles O18: the old C and the operand's other bits do not overlap, so that a rotate is a sum. -/
theorem rorRolResult : Obligations.RorRolResult :=
  ⟨codedSo_of_encode (fun _ _ => ⟨rfl, rfl, rfl⟩) rfl,
    codedSo_of_encode (fun _ _ => ⟨rfl, rfl, rfl⟩) rfl,
    codedSo_of_encode (fun _ _ => ⟨rfl, rfl, rfl⟩) rfl,
    codedSo_of_encode (fun _ _ => ⟨rfl, rfl, rfl⟩) rfl,
    modifiesBoth_of_alu aluRor (fun _ _ => ⟨rfl, rfl⟩) fun _ => aluRor_eq,
    modifiesBoth_of_alu aluRol (fun _ _ => ⟨rfl, rfl⟩) fun _ => aluRol_eq⟩

/-- Settles O19: a carry leaves the signed range only at its upper end, a borrow at its lower. -/
theorem adcSbcResult : Obligations.AdcSbcResult :=
  ⟨codedSo_of_encode (fun _ _ => ⟨rfl, rfl, rfl⟩) rfl,
    codedSo_of_encode (fun _ _ => ⟨rfl, rfl, rfl⟩) rfl,
    codedSo_of_encode (fun _ _ => ⟨rfl, rfl, rfl⟩) rfl,
    codedSo_of_encode (fun _ _ => ⟨rfl, rfl, rfl⟩) rfl,
    modifiesBoth_of_alu aluAdc (fun _ _ => ⟨rfl, rfl⟩) fun _ => aluAdc_eq,
    modifiesBoth_of_alu aluSbc (fun _ _ => ⟨rfl, rfl⟩) fun _ => aluSbc_eq⟩

/-- Settles O20, by the template at the switch's value in the state. -/
theorem swabResult : Obligations.SwabResult := by
  refine ⟨codedSo_of_encode (fun _ _ => ⟨rfl, rfl, rfl⟩) rfl, ?_⟩
  intro d s s1 l x hwf hd hx
  have heffect := modifyWord_effect (aluSwab s.cfg.sw.swabFlagsLowByte) hwf hd hx
  rw [aluSwab_eq] at heffect
  exact exec_next rfl heffect

/-- Settles O21, by the template that does not read its destination. -/
theorem sxtResult : Obligations.SxtResult := by
  refine ⟨codedSo_of_encode (fun _ _ => ⟨rfl, rfl, rfl⟩) rfl, ?_⟩
  rw [← funext aluSxt_eq]
  exact producesWord_of_alu fun _ _ => rfl

end Sys2Proof.Machine
end

section
/-! The double-operand instructions (42_double_operand.md R170 to R177): their words, what each
computes as arithmetic on its operands, for every width, and their effects. -/

namespace Sys2Proof

open Sys2Proof.Safety

/-! ## Words of format DO (R83) -/

theorem operand_bits_toNat (o : Operand) : o.bits.toNat = specifier o := by
  rw [Operand.bits, BitVec.toNat_append, ← Nat.shiftLeft_add_eq_or_of_lt o.rn.bits.isLt,
    Nat.shiftLeft_eq, specifier]
  omega

/-- A format DO word is a format SO word whose opcode ends in the source specifier. -/
theorem ofNat_specifiers (op : BitVec 4) (s d : Operand) :
    BitVec.ofNat 16 (4096 * op.toNat + 64 * specifier s + specifier d) = encodeDo op s d := by
  have hop : (op ++ s.bits : BitVec 10).toNat = 64 * op.toNat + specifier s := by
    rw [BitVec.toNat_append, ← Nat.shiftLeft_add_eq_or_of_lt s.bits.isLt, operand_bits_toNat,
      Nat.shiftLeft_eq]
    omega
  have hbase : 4096 * op.toNat + 64 * specifier s = 64 * (op ++ s.bits : BitVec 10).toNat := by
    rw [hop]
    omega
  rw [hbase]
  exact ofNat_specifier (op ++ s.bits) d

/-- What the encoder writes as format DO decodes back (R83). -/
theorem codedDo_of_encode {base : Nat} {op : BitVec 4} {i : Operand → Operand → Instr}
    (hrow : ∀ e s d, encode e (i s d) = encodeDo op s d ∧ (i s d).isOpen = false ∧
      (i s d).wellFormed = true)
    (hbase : base = 4096 * op.toNat) : CodedDo base i := by
  intro e s d
  obtain ⟨henc, hopen, hwf⟩ := hrow e s d
  rw [hbase, ofNat_specifiers, ← henc]
  exact decode_of_fixed (decodeFixed_encode hopen hwf)

end Sys2Proof

namespace Sys2Proof.Machine

open Sys2Proof Sys2Proof.Safety

/-! ## Effects by template (R170) -/

theorem combinesWord_of_alu (alu : Cc → Word → Word → Word × Cc) {i : Operand → Operand → Instr}
    {f : Cc → Word → Word → Word × Cc}
    (hexec : ∀ src dst s, exec (i src dst) s = toOutcome (combineWord alu src dst s))
    (halu : ∀ cc x y, alu cc x y = f cc x y) : CombinesWord i f := by
  intro src dst s s1 s2 x y l hwf hsrc hdst hy
  rw [← halu]
  exact exec_next (hexec src dst s) (combineWord_effect alu hwf hsrc hdst hy)

theorem combinesByte_of_alu (alu : Cc → Byte → Byte → Byte × Cc) {i : Operand → Operand → Instr}
    {f : Cc → Byte → Byte → Byte × Cc}
    (hexec : ∀ src dst s, exec (i src dst) s = toOutcome (combineByte alu src dst s))
    (halu : ∀ cc x y, alu cc x y = f cc x y) : CombinesByte i f := by
  intro src dst s s1 s2 x l hwf hsrc hdst
  rw [← halu]
  exact exec_next (hexec src dst s) (combineByte_effect alu hwf hsrc hdst)

/-- A word form and a byte form of one comparison, from what the model computes at every width. -/
theorem comparesBoth_of_alu (alu : {w : Nat} → Cc → BitVec w → BitVec w → Cc)
    {iw ib : Operand → Operand → Instr} {f : (w : Nat) → Cc → BitVec w → BitVec w → Cc}
    (hexec : ∀ src dst s, exec (iw src dst) s = toOutcome (compareWord alu src dst s) ∧
      exec (ib src dst) s = toOutcome (compareByte alu src dst s))
    (halu : ∀ w cc (x y : BitVec w), alu cc x y = f w cc x y) : ComparesBoth iw ib f := by
  refine ⟨fun src dst s s1 s2 x y hsrc hdst => ?_, fun src dst s s1 s2 x y hsrc hdst => ?_⟩
  · rw [← halu]
    exact exec_next (hexec src dst s).1 (compareWord_effect alu hsrc hdst)
  · rw [← halu]
    exact exec_next (hexec src dst s).2 (compareByte_effect alu hsrc hdst)

/-! ## MOV and MOVB (R171): the destination is written without being read -/

section Move

variable {src dst : Operand} {s s1 s2 : State} {l : Loc}

theorem mov_effect {x : Word} (hwf : s.mem.wf = true) (hsrc : sourceWord src s = .ok (x, s1))
    (hdst : operand dst .word s1 = .ok (l, s2)) (hl : Writable l) :
    ∃ t, exec (.mov src dst) s = .next t ∧
      WordEffect l x (ccLogic s.psw.cc x) (operandSteps src dst .word s) s t := by
  obtain ⟨_, hsrcLoc, _⟩ := sourceWord_ok hsrc
  have hm := operands_ok hsrcLoc hdst
  have hexec : exec (.mov src dst) s = toOutcome (commitWord l (x, ccLogic s.psw.cc x) s2) := by
    simp only [exec, execMov, produceWord, hsrc, hdst, ok_bind, moves_psw hm]
  exact exec_next hexec (commitWord_effect hm hwf hl _)

/-- Resolving the source byte and then the destination of MOVB. -/
theorem movb_operands {x : Byte} (hsrc : sourceByte src s = .ok (x, s1))
    (hdst : operand dst .byte s1 = .ok (l, s2)) : Moves (operandSteps src dst .byte s) s s2 := by
  obtain ⟨_, hsrcLoc, _⟩ := sourceByte_ok hsrc
  exact operands_ok hsrcLoc hdst

/-- A register takes the byte sign-extended, as a whole word. -/
theorem movb_register_effect {x : Byte} {r : Reg} (hwf : s.mem.wf = true)
    (hsrc : sourceByte src s = .ok (x, s1)) (hdst : operand dst .byte s1 = .ok (.reg r, s2)) :
    ∃ t, exec (.movb src dst) s = .next t ∧
      WordEffect (.reg r) (x.signExtend 16) (ccLogic s.psw.cc x) (operandSteps src dst .byte s)
        s t := by
  have hm := movb_operands hsrc hdst
  have hexec : exec (.movb src dst) s =
      toOutcome (commitWord (.reg r) (x.signExtend 16, ccLogic s.psw.cc x) s2) := by
    simp only [exec, execMovb, moveByte, hsrc, hdst, ok_bind, moves_psw hm, commitWord, wrWord]
  exact exec_next hexec (commitWord_effect (l := .reg r) hm hwf trivial _)

/-- Memory takes the byte. -/
theorem movb_memory_effect {x : Byte} {a : Word} (hwf : s.mem.wf = true)
    (hsrc : sourceByte src s = .ok (x, s1)) (hdst : operand dst .byte s1 = .ok (.mem a, s2)) :
    ∃ t, exec (.movb src dst) s = .next t ∧
      ByteEffect (.mem a) x (ccLogic s.psw.cc x) (operandSteps src dst .byte s) s t := by
  have hm := movb_operands hsrc hdst
  refine ⟨_, ?_, commitByte_effect hm hwf (.mem a) (x, ccLogic s.psw.cc x)⟩
  simp only [exec, execMovb, moveByte, hsrc, hdst, ok_bind, moves_psw hm, toOutcome]

end Move

section Arithmetic

variable {w : Nat} (cc : Cc) (x y : BitVec w)

/-! ## Results as numbers -/

theorem add_eq_ofNat_sum : x + y = BitVec.ofNat w (x.toNat + y.toNat) := by
  rw [← add_eq_ofNat, BitVec.ofNat_toNat, BitVec.setWidth_eq]

theorem sub_eq_ofInt_difference : x - y = BitVec.ofInt w (x.toInt - y.toInt) := by
  rw [Int.sub_eq_add_neg, BitVec.ofInt_add, BitVec.ofInt_neg, BitVec.ofInt_toInt,
    BitVec.ofInt_toInt, BitVec.sub_eq_add_neg]

/-! ## Signed overflow by the signs of the operands and of the result (R25) -/

/-- A sum leaves the signed range when the operands have one sign and the sum the other. -/
theorem add_overflow_eq : (x.msb == y.msb && (x + y).msb != y.msb) =
    outOfRange w (x.toInt + y.toInt) := by
  have hrange : outOfRange w (x.toInt + y.toInt) = x.saddOverflow y := by
    rw [outOfRange, BitVec.saddOverflow, Bool.decide_or, Bool.or_comm]
  rw [hrange, BitVec.saddOverflow_eq]
  cases x.msb <;> cases y.msb <;> rfl

/-- A difference leaves the signed range when the operands have different signs and the difference
that of the subtrahend. -/
theorem sub_overflow_eq : (x.msb != y.msb && (x - y).msb == y.msb) =
    outOfRange w (x.toInt - y.toInt) := by
  have hrange : outOfRange w (x.toInt - y.toInt) = x.ssubOverflow y := by
    rw [outOfRange, BitVec.ssubOverflow, Bool.decide_or, Bool.or_comm]
  rw [hrange, BitVec.ssubOverflow_eq]
  cases x.msb <;> cases y.msb <;> cases (x - y).msb <;> rfl

/-! ## What each rule computes, at every width -/

/-- R171, R175 to R177: C is kept. -/
theorem ccLogic_eq_codes : ccLogic cc x = codes x false cc.c :=
  nzOf_eq_codes x false cc.c

theorem ccAdd_eq : ccAdd x y =
    codes (x + y) (outOfRange w (x.toInt + y.toInt)) (decide (2 ^ w ≤ x.toNat + y.toNat)) := by
  rw [ccAdd, nzOf_eq_codes, add_overflow_eq]

/-- C is the borrow (D19). -/
theorem ccSub_eq : ccSub x y =
    codes (x - y) (outOfRange w (x.toInt - y.toInt)) (decide (x.toNat < y.toNat)) := by
  rw [ccSub, nzOf_eq_codes, sub_overflow_eq]

/-- R172. -/
theorem ccCmp_eq : ccCmp cc x y =
    codes (BitVec.ofInt w (x.toInt - y.toInt)) (outOfRange w (x.toInt - y.toInt))
      (decide (x.toNat < y.toNat)) := by
  rw [ccCmp, ccSub_eq, sub_eq_ofInt_difference]

/-- R175. -/
theorem ccBit_eq : ccBit cc x y = codes (x &&& y) false cc.c :=
  ccLogic_eq_codes cc (x &&& y)

/-- R176. -/
theorem aluBic_eq : aluBic cc x y = (y &&& ~~~x, codes (y &&& ~~~x) false cc.c) := by
  rw [aluBic, ccLogic_eq_codes]

/-- R177. -/
theorem aluBis_eq : aluBis cc x y = (y ||| x, codes (y ||| x) false cc.c) := by
  rw [aluBis, ccLogic_eq_codes]

end Arithmetic

/-- R173: the codes are of source plus destination. -/
theorem aluAdd_eq (cc : Cc) (x y : Word) : aluAdd cc x y =
    let r : Word := BitVec.ofNat 16 (y.toNat + x.toNat)
    (r, codes r (outOfRange 16 (y.toInt + x.toInt)) (decide (2 ^ 16 ≤ y.toNat + x.toNat))) := by
  rw [aluAdd, ccAdd_eq, BitVec.add_comm x y, Int.add_comm x.toInt, Nat.add_comm x.toNat,
    add_eq_ofNat_sum]

/-- R174: C is the borrow (D19). -/
theorem aluSub_eq (cc : Cc) (x y : Word) : aluSub cc x y =
    let r : Word := BitVec.ofInt 16 (y.toInt - x.toInt)
    (r, codes r (outOfRange 16 (y.toInt - x.toInt)) (decide (y.toNat < x.toNat))) := by
  rw [aluSub, ccSub_eq, sub_eq_ofInt_difference]

/-! ## The instructions -/

/-- Settles O22: MOV by its one write, MOVB by whether the destination is a register. -/
theorem movResult : Obligations.MovResult := by
  refine ⟨codedDo_of_encode (fun _ _ _ => ⟨rfl, rfl, rfl⟩) rfl,
    codedDo_of_encode (fun _ _ _ => ⟨rfl, rfl, rfl⟩) rfl,
    fun src dst s s1 s2 x l hwf hsrc hdst hl => ?mov,
    fun src dst s s1 s2 x l hwf hsrc hdst => ?movb⟩
  case mov =>
    rw [← ccLogic_eq_codes]
    exact mov_effect hwf hsrc hdst hl
  case movb =>
    rw [← ccLogic_eq_codes]
    cases l with
    | reg r => exact movb_register_effect hwf hsrc hdst
    | mem a => exact movb_memory_effect hwf hsrc hdst

/-- Settles O23: both widths by the one subtraction, source minus destination. -/
theorem cmpResult : Obligations.CmpResult :=
  ⟨codedDo_of_encode (fun _ _ _ => ⟨rfl, rfl, rfl⟩) rfl,
    codedDo_of_encode (fun _ _ _ => ⟨rfl, rfl, rfl⟩) rfl,
    comparesBoth_of_alu ccCmp (fun _ _ _ => ⟨rfl, rfl⟩) fun _ => ccCmp_eq⟩

/-- Settles O24: both rules as a sum or a difference of the operands' values. -/
theorem addSubResult : Obligations.AddSubResult :=
  ⟨codedDo_of_encode (fun _ _ _ => ⟨rfl, rfl, rfl⟩) rfl,
    codedDo_of_encode (fun _ _ _ => ⟨rfl, rfl, rfl⟩) rfl,
    combinesWord_of_alu aluAdd (fun _ _ _ => rfl) aluAdd_eq,
    combinesWord_of_alu aluSub (fun _ _ _ => rfl) aluSub_eq⟩

/-- Settles O25: each result bit by bit, with the codes of every logic instruction. -/
theorem bitResult : Obligations.BitResult :=
  ⟨codedDo_of_encode (fun _ _ _ => ⟨rfl, rfl, rfl⟩) rfl,
    codedDo_of_encode (fun _ _ _ => ⟨rfl, rfl, rfl⟩) rfl,
    codedDo_of_encode (fun _ _ _ => ⟨rfl, rfl, rfl⟩) rfl,
    codedDo_of_encode (fun _ _ _ => ⟨rfl, rfl, rfl⟩) rfl,
    codedDo_of_encode (fun _ _ _ => ⟨rfl, rfl, rfl⟩) rfl,
    codedDo_of_encode (fun _ _ _ => ⟨rfl, rfl, rfl⟩) rfl,
    comparesBoth_of_alu ccBit (fun _ _ _ => ⟨rfl, rfl⟩) fun _ => ccBit_eq,
    combinesWord_of_alu aluBic (fun _ _ _ => rfl) aluBic_eq,
    combinesByte_of_alu aluBic (fun _ _ _ => rfl) aluBic_eq,
    combinesWord_of_alu aluBis (fun _ _ _ => rfl) aluBis_eq,
    combinesByte_of_alu aluBis (fun _ _ _ => rfl) aluBis_eq⟩

end Sys2Proof.Machine
end

section
/-! The register-operand instructions (43_register_operand.md R190 to R195): their words, what each
computes as arithmetic on the register or the pair, and their effects. -/

namespace Sys2Proof

open Sys2Proof.Safety

/-! ## Words of format RO (R84) -/

/-- A format RO word is a format SO word whose opcode ends in the register field. -/
theorem ofNat_register_specifier (op : BitVec 7) (r : Reg) (d : Operand) :
    BitVec.ofNat 16 (512 * op.toNat + 64 * r.bits.toNat + specifier d) = encodeRo op r d := by
  have hop : (op ++ r.bits : BitVec 10).toNat = 8 * op.toNat + r.bits.toNat := by
    rw [BitVec.toNat_append, ← Nat.shiftLeft_add_eq_or_of_lt r.bits.isLt, Nat.shiftLeft_eq]
    omega
  have hbase : 512 * op.toNat + 64 * r.bits.toNat = 64 * (op ++ r.bits : BitVec 10).toNat := by
    rw [hop]
    omega
  rw [hbase]
  exact ofNat_specifier (op ++ r.bits) d

/-- What the encoder writes as format RO decodes back (R84). -/
theorem codedRo_of_encode {base : Nat} {op : BitVec 7} {i : Reg → Operand → Instr}
    (hrow : ∀ e r d, encode e (i r d) = encodeRo op r d ∧ (i r d).isOpen = false ∧
      (i r d).wellFormed = true)
    (hbase : base = 512 * op.toNat) : CodedRo base i := by
  intro e r d
  obtain ⟨henc, hopen, hwf⟩ := hrow e r d
  rw [hbase, ofNat_register_specifier, ← henc]
  exact decode_of_fixed (decodeFixed_encode hopen hwf)

end Sys2Proof

namespace Sys2Proof.Machine

open Sys2Proof Sys2Proof.Safety

/-! ## The pair of a register (R190) -/

theorem regIsOdd_eq_bit (r : Reg) : regIsOdd r = r.bits.getLsbD 0 := by
  cases r <;> rfl

theorem bits_eq_succ_iff (r q : Reg) : q.bits = r.bits ||| 1 ↔ q = regSucc r := by
  cases r <;> cases q <;> decide

theorem setPair_get (r q : Reg) (v : Long) (s : State) :
    (setPair r v s).get q = if q = regSucc r then v.extractLsb' 0 16
      else if q = r then v.extractLsb' 16 16 else s.get q := by
  rw [setPair, get_set, get_set]

theorem append_words_eq_ofNat (hi lo : Word) :
    (hi ++ lo : Long) = BitVec.ofNat 32 (hi.toNat * 65536 + lo.toNat) := by
  rw [← Nat.shiftLeft_eq hi.toNat 16, Nat.shiftLeft_add_eq_or_of_lt lo.isLt,
    ← BitVec.toNat_append, BitVec.ofNat_toNat, BitVec.setWidth_eq]

theorem append_words_toInt (hi lo : Word) :
    (hi ++ lo : Long).toInt = hi.toInt * 65536 + lo.toNat := by
  rw [BitVec.toInt_append, Int.mul_comm]
  rfl

theorem ofInt_upper_half (p : Int) :
    (BitVec.ofInt 32 p).extractLsb' 16 16 = BitVec.ofInt 16 (p / 65536) := by
  apply BitVec.eq_of_toNat_eq
  rw [BitVec.extractLsb'_toNat, Nat.shiftRight_eq_div_pow, BitVec.toNat_ofInt, BitVec.toNat_ofInt]
  omega

theorem ofInt_lower_half (p : Int) :
    (BitVec.ofInt 32 p).extractLsb' 0 16 = BitVec.ofInt 16 p := by
  apply BitVec.eq_of_toNat_eq
  rw [BitVec.extractLsb'_toNat, Nat.shiftRight_zero, BitVec.toNat_ofInt, BitVec.toNat_ofInt]
  omega

/-! ## Writing registers and the condition codes after the source is read -/

section Written

variable {f : Reg → Word} {s s1 : State}

theorem setCc_registerEffect {regs : Reg → Word} {u : State} (hm : Moves f s s1)
    (hu : u = { s1 with regs := u.regs }) (hregs : ∀ q, u.get q = regs q) (cc : Cc) :
    RegisterEffect regs cc s (u.setCc cc) := by
  obtain ⟨x, rfl⟩ : ∃ x, u = { s with regs := x } := ⟨u.regs, by rw [hu, hm.2]⟩
  exact ⟨hregs, fun _ => rfl, ⟨rfl, rfl, rfl⟩, ⟨rfl, rfl, rfl, rfl, rfl, rfl, rfl⟩⟩

theorem set_registerEffect (hm : Moves f s s1) (r : Reg) (v : Word) (cc : Cc) :
    RegisterEffect (fun q => if q = r then v else s.get q + f q) cc s ((s1.set r v).setCc cc) :=
  setCc_registerEffect hm rfl (fun q => by rw [get_set, hm.1]) cc

theorem setPair_registerEffect (hm : Moves f s s1) (r : Reg) (v : Long) (cc : Cc) :
    RegisterEffect (pairWritten r (v.extractLsb' 16 16) (v.extractLsb' 0 16) f s) cc s
      ((setPair r v s1).setCc cc) :=
  setCc_registerEffect hm rfl
    (fun q => by rw [setPair_get, hm.1, pairWritten, if_congr (bits_eq_succ_iff r q) rfl rfl]) cc

end Written

/-! ## What each rule computes -/

/-- R191: C as the rule prints it (log 22). -/
theorem aluMul_eq (a b : Word) : aluMul a b =
    let p : Int := a.toInt * b.toInt
    (BitVec.ofInt 32 p, { n := decide (p < 0), z := decide (p = 0), v := false,
                          c := decide (p < -32768 ∨ p ≥ 32767) }) := by
  simp only [aluMul, ge_iff_le, Bool.decide_or]

/-- R195. -/
theorem aluXor_eq (cc : Cc) (x y : Word) :
    aluXor cc x y = (x ^^^ y, codes (x ^^^ y) false cc.c) := by
  rw [aluXor, ccLogic_eq_codes]

/-! ## Shifts (R193, R194) -/

theorem shiftCount_eq (x : Word) : shiftCount x = shiftCount6 x := by
  rw [shiftCount, BitVec.toInt_eq_toNat_cond, extract_toNat, shiftCount6]
  simp only [Nat.pow_zero, Nat.div_one]
  split <;> split <;> omega

section Shifts

variable {w : Nat} (v : BitVec w)

/-- Past the width an arithmetic right shift leaves the sign in every bit. -/
theorem sshiftRight_getElem_of_le {m i : Nat} (hm : w - 1 ≤ m) (hi : i < w) :
    (v.sshiftRight m)[i] = v.msb := by
  rw [BitVec.getElem_sshiftRight]
  split
  · next h =>
    have hlast : m + i = w - 1 := by omega
    rw [← BitVec.getLsbD_eq_getElem, hlast, BitVec.msb_eq_getLsbD_last]
  · rfl

theorem sshiftRight_min (m : Nat) : v.sshiftRight (min m (w - 1)) = v.sshiftRight m := by
  rcases Nat.le_total m (w - 1) with hm | hm
  · rw [Nat.min_eq_left hm]
  · ext i hi
    rw [Nat.min_eq_right hm, sshiftRight_getElem_of_le v (Nat.le_refl _) hi,
      sshiftRight_getElem_of_le v hm hi]

theorem shiftRightBy_eq (m : Nat) : shiftRightBy m v =
    (BitVec.ofInt w (v.toInt / 2 ^ m),
      if m ≤ w then v.getLsbD (m - 1) else v.getLsbD (w - 1)) := by
  rw [shiftRightBy, sshiftRight_min, BitVec.sshiftRight_eq, Int.shiftRight_eq_div_pow,
    BitVec.msb_eq_getLsbD_last]
  rfl

theorem shiftLeft_eq_ofNat_mul (k : Nat) : v <<< k = BitVec.ofNat w (v.toNat * 2 ^ k) := by
  rw [shiftLeft_eq_ofNat, Nat.shiftLeft_eq]

/-- V of a left shift: the sign differed from the first one after some single place. -/
theorem shiftLeftBy_eq (k : Nat) : shiftLeftBy k v =
    (BitVec.ofNat w (v.toNat * 2 ^ k), decide (k ≤ w) && v.getLsbD (w - k),
      decide (∃ i < k, (BitVec.ofNat w (v.toNat * 2 ^ (i + 1))).getLsbD (w - 1) ≠
        v.getLsbD (w - 1))) := by
  rw [shiftLeftBy, shiftLeft_eq_ofNat_mul, List.any_eq]
  simp only [List.mem_range, bne_iff_ne, shiftLeft_eq_ofNat_mul, BitVec.msb_eq_getLsbD_last]

/-- R193 and R194, at every width: zero, left and right by the sign of the count. -/
theorem aluShift_eq (s : State) (n : Int) :
    aluShift s.cfg.sw.ashCOnZero s.psw.cc n v = shifted w (zeroShiftCarry s) n v := by
  match n with
  | .ofNat 0 => exact congrArg (v, ·) (nzOf_eq_codes v _ _)
  | .ofNat (k + 1) =>
    have hpos : 0 < Int.ofNat (k + 1) := Int.natCast_succ_pos k
    simp only [aluShift, shiftLeftBy_eq, nzOf_eq_codes, shifted, if_pos hpos]
    rfl
  | .negSucc m =>
    have hneg : Int.negSucc m < 0 := Int.negSucc_lt_zero m
    simp only [aluShift, shiftRightBy_eq, nzOf_eq_codes, shifted, if_neg hneg.asymm, if_pos hneg]
    rfl

end Shifts

/-! ## DIV by its DIV_NUMERICS (R192, D20) -/

/-- The row listed for the operands, as the rule states it. -/
theorem divListed_eq (cfg : Config) (hi lo src : Word) : divListed cfg hi lo src =
    (cfg.div.find? fun e => e.hi = hi ∧ e.lo = lo ∧ e.src = src).map (·.rule) := by
  simp only [divListed, beq_eq_decide, Bool.decide_and, Bool.and_assoc]

theorem append_words_toInt_eq_min_iff (hi lo : Word) :
    hi.toInt * 65536 + lo.toNat = -2147483648 ↔ hi = 0x8000 ∧ lo = 0 := by
  have hlo := lo.isLt
  rw [← BitVec.toInt_inj, ← BitVec.toNat_inj (y := 0)]
  simp only [BitVec.reduceToInt, BitVec.reduceToNat]
  omega

theorem toInt_eq_neg_one_iff (x : Word) : x.toInt = -1 ↔ x = 0xFFFF := by
  rw [← BitVec.toInt_inj]
  rfl

/-- The one quotient that does not fit is the rule's own (U6). -/
theorem divResult_of_overflow (rule : DivRule) {hi lo x : Word}
    (hmin : hi.toInt * 65536 + lo.toNat = -2147483648) (hx : x.toInt = -1) :
    divResult rule hi lo x = rule.pair := by
  obtain ⟨hhi, hlo⟩ := (append_words_toInt_eq_min_iff hi lo).1 hmin
  rw [divResult, if_pos ⟨hhi, hlo, (toInt_eq_neg_one_iff x).1 hx⟩]

theorem divResult_of_fits (rule : DivRule) {hi lo x : Word}
    (h : ¬ (hi.toInt * 65536 + lo.toNat = -2147483648 ∧ x.toInt = -1)) :
    divResult rule hi lo x =
      BitVec.ofInt 32 (divQuotient rule.rounding (hi.toInt * 65536 + lo.toNat) x.toInt) := by
  rw [append_words_toInt_eq_min_iff, toInt_eq_neg_one_iff, and_assoc] at h
  rw [divResult, if_neg h, append_words_toInt]

theorem aluDiv_zero (rule : DivRule) (hi lo : Word) : aluDiv rule hi lo 0 =
    (some rule.pair, { n := rule.n, z := rule.z, v := true, c := true }) := rfl

theorem aluDiv_nonzero (rule : DivRule) (hi lo : Word) {x : Word} (hx : x ≠ 0) :
    aluDiv rule hi lo x =
      let q := divResult rule hi lo x
      let v := divV rule.vReading hi (hi.toInt * 65536 + lo.toNat) x.toInt
      (if v && !rule.writesOnV then none else some q, codes q v false) := by
  simp only [aluDiv, if_neg hx, append_words_toInt, nzOf_eq_codes]

/-! ## What runs once the source is read (R190) -/

section Executed

variable {reg : Reg} {src : Operand} {s s1 : State} {x : Word}
  (hsrc : sourceWord src s = .ok (x, s1))

include hsrc

theorem exec_mul :
    let r := aluMul (s1.get reg) x
    exec (.mul reg src) s = .next ((if regIsOdd reg then s1.set reg (r.1.extractLsb' 0 16)
      else setPair reg r.1 s1).setCc r.2) := by
  simp only [exec, execMul, hsrc, ok_bind, toOutcome]

theorem exec_ash :
    let r := aluShift s1.cfg.sw.ashCOnZero s1.psw.cc (shiftCount x) (s1.get reg)
    exec (.ash reg src) s = .next ((s1.set reg r.1).setCc r.2) := by
  simp only [exec, execAsh, hsrc, ok_bind, toOutcome]

theorem exec_ashc_even (heven : regIsOdd reg = false) :
    let r := aluShift s1.cfg.sw.ashCOnZero s1.psw.cc (shiftCount x) (pairValue reg s1)
    exec (.ashc reg src) s = .next ((setPair reg r.1 s1).setCc r.2) := by
  simp only [exec, execAshc, hsrc, ok_bind, toOutcome, heven, Bool.false_eq_true, if_false]

theorem exec_ashc_odd (hodd : regIsOdd reg = true) :
    exec (.ashc reg src) s = .fault (.oddRegisterPair reg) := by
  simp only [exec, execAshc, hsrc, ok_bind, toOutcome, hodd, if_true]

theorem exec_div_odd (hodd : regIsOdd reg = true) :
    exec (.div reg src) s = .fault (.oddRegisterPair reg) := by
  simp only [exec, execDiv, hsrc, ok_bind, toOutcome, hodd, if_true]

section Division

variable {hi lo : Word} {q : Long} {cc : Cc} (heven : regIsOdd reg = false)
  (hhi : hi = s.get reg + operandStep src .word s reg)
  (hlo : lo = s.get (regSucc reg) + operandStep src .word s (regSucc reg))

include heven hhi hlo

theorem div_written_effect (hq : aluDiv (divRule s.cfg hi lo x) hi lo x = (some q, cc)) :
    ∃ t, exec (.div reg src) s = .next t ∧
      RegisterEffect (pairWritten reg (q.extractLsb' 16 16) (q.extractLsb' 0 16)
        (operandStep src .word s) s) cc s t := by
  have hm := sourceWord_moves hsrc
  rw [← moves_cfg hm, hhi, hlo, ← hm.1, ← hm.1] at hq
  refine ⟨_, ?_, setPair_registerEffect hm reg q cc⟩
  simp only [exec, execDiv, hsrc, ok_bind, toOutcome, heven, Bool.false_eq_true, if_false, hq]

theorem div_kept_effect (hq : aluDiv (divRule s.cfg hi lo x) hi lo x = (none, cc)) :
    ∃ t, exec (.div reg src) s = .next t ∧
      RegisterEffect (fun r => s.get r + operandStep src .word s r) cc s t := by
  have hm := sourceWord_moves hsrc
  rw [← moves_cfg hm, hhi, hlo, ← hm.1, ← hm.1] at hq
  refine ⟨_, ?_, setCc_codesOnly hm cc⟩
  simp only [exec, execDiv, hsrc, ok_bind, toOutcome, heven, Bool.false_eq_true, if_false, hq]

/-- A divisor that is not zero: the pair is kept when V is set and the rule does not write it. -/
theorem div_nonzero_effect (hx : x ≠ 0) :
    let rule := divRule s.cfg hi lo x
    let q := divResult rule hi lo x
    let v := divV rule.vReading hi (hi.toInt * 65536 + lo.toNat) x.toInt
    ∃ t, exec (.div reg src) s = .next t ∧
      RegisterEffect
        (if v && !rule.writesOnV then fun r => s.get r + operandStep src .word s r
          else pairWritten reg (q.extractLsb' 16 16) (q.extractLsb' 0 16)
            (operandStep src .word s) s)
        (codes q v false) s t := by
  intro rule q v
  have halu : aluDiv rule hi lo x =
      (if v && !rule.writesOnV then none else some q, codes q v false) :=
    aluDiv_nonzero rule hi lo hx
  split
  · next hkept => exact div_kept_effect hsrc heven hhi hlo (by rw [halu, if_pos hkept])
  · next hwritten => exact div_written_effect hsrc heven hhi hlo (by rw [halu, if_neg hwritten])

end Division

end Executed

/-! ## The instructions -/

/-- Settles O26: the product's halves are its value and its value by 65536, modulo 2^16. -/
theorem mulResult : Obligations.MulResult := by
  refine ⟨codedRo_of_encode (fun _ _ _ => ⟨rfl, rfl, rfl⟩) rfl, ?_⟩
  intro reg src s s1 x hsrc step p cc
  have hm := sourceWord_moves hsrc
  have hexec := exec_mul (reg := reg) hsrc
  rw [hm.1, aluMul_eq] at hexec
  refine ⟨_, hexec, fun heven => ?even, fun hodd => ?odd⟩
  case even =>
    rw [← regIsOdd_eq_bit] at heven
    rw [heven, ← ofInt_upper_half, ← ofInt_lower_half]
    exact setPair_registerEffect hm reg _ cc
  case odd =>
    rw [← regIsOdd_eq_bit] at hodd
    rw [hodd, ← ofInt_lower_half]
    exact set_registerEffect hm reg _ cc

/-- Settles O28: the shift of every width at 16 bits. -/
theorem ashResult : Obligations.AshResult := by
  refine ⟨codedRo_of_encode (fun _ _ _ => ⟨rfl, rfl, rfl⟩) rfl, ?_⟩
  intro reg src s s1 x hsrc step r
  have hm := sourceWord_moves hsrc
  have hexec := exec_ash (reg := reg) hsrc
  rw [moves_cfg hm, moves_psw hm, aluShift_eq, shiftCount_eq, hm.1] at hexec
  exact ⟨_, hexec, set_registerEffect hm reg r.1 r.2⟩

/-- Settles O29: the shift of every width at 32 bits, on the pair as one number. -/
theorem ashcResult : Obligations.AshcResult := by
  refine ⟨codedRo_of_encode (fun _ _ _ => ⟨rfl, rfl, rfl⟩) rfl, ?_⟩
  intro reg src s s1 x hsrc heven step pair r
  rw [← regIsOdd_eq_bit] at heven
  have hm := sourceWord_moves hsrc
  have hpair : pairValue reg s1 = pair := by
    rw [pairValue, append_words_eq_ofNat, hm.1, hm.1]
  have hexec := exec_ashc_even hsrc heven
  rw [moves_cfg hm, moves_psw hm, aluShift_eq, shiftCount_eq, hpair] at hexec
  exact ⟨_, hexec, setPair_registerEffect hm reg r.1 r.2⟩

/-- Settles O31, by the write of a word result, with REG as the resolved destination left it. -/
theorem xorResult : Obligations.XorResult := by
  refine ⟨codedRo_of_encode (fun _ _ _ => ⟨rfl, rfl, rfl⟩) rfl, ?_⟩
  intro reg d s s1 l x hwf hd hx r
  have hm := (operand_ok hd).1
  have hexec : exec (.xor reg d) s = toOutcome (commitWord l (r, codes r false s.psw.cc.c) s1) := by
    simp only [exec, execXor, hd, hx, ok_bind, moves_psw hm, hm.1, aluXor_eq, r]
  exact exec_next hexec (commitWord_effect hm hwf (rdWord_writable hx) _)

/-- Settles O30: the parity of REG is tested after the source is read. -/
theorem oddRegisterPairStops : Obligations.OddRegisterPairStops := by
  intro reg src s s1 x hsrc hodd
  rw [← regIsOdd_eq_bit] at hodd
  exact ⟨exec_div_odd hsrc hodd, exec_ashc_odd hsrc hodd⟩

end Sys2Proof.Machine

namespace Sys2Proof

open Sys2Proof.Machine

/-- Settles O27, by whether the divisor is zero and, where it is not, whether the pair is kept. -/
theorem divResult : Obligations.DivResult := by
  refine ⟨codedRo_of_encode (fun _ _ _ => ⟨rfl, rfl, rfl⟩) rfl, ?_⟩
  intro reg src s s1 x hsrc heven step hi lo dividend listed rounding vReading writesOnV
  rw [← regIsOdd_eq_bit] at heven
  have hlisted : divListed s.cfg hi lo x = listed := divListed_eq s.cfg hi lo x
  have hrule : ∀ rule, listed = some rule → divRule s.cfg hi lo x = rule :=
    fun rule h => divRule_listed s.cfg hi lo x (hlisted.trans h)
  refine ⟨fun hx => ?nonzero, fun hx => ?zero⟩
  case nonzero =>
    obtain ⟨t, hexec, heffect⟩ := div_nonzero_effect hsrc heven rfl rfl hx
    rw [divRule_vReading, divRule_writesOnV, hlisted] at heffect
    refine ⟨t, _, hexec, fun hfits => ?_, fun hmin hone rule h => ?_, heffect⟩
    · rw [divResult_of_fits _ hfits, divRule_rounding, hlisted]
      rfl
    · rw [divResult_of_overflow _ hmin hone, hrule rule h]
  case zero =>
    subst hx
    obtain ⟨t, hexec, heffect⟩ := div_written_effect hsrc heven rfl rfl (aluDiv_zero _ hi lo)
    refine ⟨t, _, _, _, hexec, fun rule h => ?_, heffect⟩
    rw [hrule rule h]
    exact ⟨rfl, rfl, rfl⟩

end Sys2Proof
end

section
/-! The branches (44_branch.md R210 to R225): their words, the target as arithmetic on the PC and the
signed offset, and when each jumps. -/

namespace Sys2Proof

open Sys2Proof.Safety

/-! ## Words of formats BR and TR (R85) -/

/-- An opcode above the offset or code of a word, as a number. -/
theorem ofNat_offset (op x : BitVec 8) :
    BitVec.ofNat 16 (256 * op.toNat + x.toNat) = encodeBr op x := by
  apply BitVec.eq_of_toNat_eq
  rw [encodeBr, BitVec.toNat_append, ← Nat.shiftLeft_add_eq_or_of_lt x.isLt, Nat.shiftLeft_eq,
    BitVec.toNat_ofNat]
  omega

/-- What the encoder writes as format BR or TR decodes back (R85). -/
theorem codedBr_of_encode {base : Nat} {op : BitVec 8} {i : BitVec 8 → Instr}
    (hrow : ∀ e x, encode e (i x) = encodeBr op x ∧ (i x).isOpen = false ∧
      (i x).wellFormed = true)
    (hbase : base = 256 * op.toNat) : CodedBr base i := by
  intro e x
  obtain ⟨henc, hopen, hwf⟩ := hrow e x
  rw [hbase, ofNat_offset, ← henc]
  exact decode_of_fixed (decodeFixed_encode hopen hwf)

end Sys2Proof

namespace Sys2Proof.Machine

open Sys2Proof Sys2Proof.Safety

/-! ## Jumping (R210) -/

theorem set_pc_jumpsTo (target : Word) (s : State) : JumpsTo target s (s.set .pc target) :=
  ⟨fun q => get_set s .pc q target, fun _ => rfl, rfl, ⟨rfl, rfl, rfl, rfl, rfl, rfl, rfl⟩⟩

/-- The target in 16 bits is the one computed with integers and cut to 16 bits. -/
theorem branchTarget_eq_ofInt (x : BitVec 8) (s : State) :
    branchTarget x s = BitVec.ofInt 16 ((s.get .pc).toNat + 2 * x.toInt) := by
  have hoffset : x.signExtend 16 = BitVec.ofInt 16 x.toInt := rfl
  rw [branchTarget, hoffset, BitVec.ofInt_add, BitVec.ofInt_mul, BitVec.ofInt_natCast,
    BitVec.ofNat_toNat, BitVec.setWidth_eq]
  rfl

theorem branchIf_taken {c : Bool} (x : BitVec 8) (s : State) (h : c = true) :
    JumpsTo (BitVec.ofInt 16 ((s.get .pc).toNat + 2 * x.toInt)) s (branchIf c x s) := by
  rw [branchIf, if_pos h, branchTarget_eq_ofInt]
  exact set_pc_jumpsTo _ s

theorem branchIf_not_taken {c : Bool} (x : BitVec 8) (s : State) (h : ¬ c = true) :
    branchIf c x s = s :=
  if_neg h

/-- An instruction that is `branchIf` on a test of the condition codes branches on what it tests. -/
theorem branchesOn_of_branchIf {i : BitVec 8 → Instr} {cond : Cc → Prop} (test : Cc → Bool)
    (hexec : ∀ x s, exec (i x) s = .next (branchIf (test s.psw.cc) x s))
    (htest : ∀ cc, test cc = true ↔ cond cc) : BranchesOn i cond := by
  intro x s
  have hiff := htest s.psw.cc
  exact ⟨_, hexec x s, fun h => branchIf_taken x s (hiff.2 h),
    fun h => branchIf_not_taken x s (mt hiff.1 h)⟩

theorem branchesOn_set {i : BitVec 8 → Instr} (code : Cc → Bool)
    (hexec : ∀ x s, exec (i x) s = .next (branchIf (code s.psw.cc) x s)) :
    BranchesOn i (fun cc => code cc = true) :=
  branchesOn_of_branchIf code hexec fun _ => Iff.rfl

theorem branchesOn_clear {i : BitVec 8 → Instr} (code : Cc → Bool)
    (hexec : ∀ x s, exec (i x) s = .next (branchIf (!code s.psw.cc) x s)) :
    BranchesOn i (fun cc => code cc = false) :=
  branchesOn_of_branchIf (!code ·) hexec fun cc => iff_of_eq (Bool.not_eq_true' (code cc))

/-! ## The tests of the signed comparisons (R220 to R223) -/

theorem signedLess_iff (cc : Cc) : (cc.n ^^ cc.v) = true ↔ cc.n ≠ cc.v :=
  Bool.xor_iff_ne

theorem not_signedLess_iff (cc : Cc) : (!(cc.n ^^ cc.v)) = true ↔ cc.n = cc.v := by
  rw [Bool.not_eq_true', ← Bool.not_eq_true, signedLess_iff, not_not]

theorem signedGreater_iff (cc : Cc) :
    (!cc.z && !(cc.n ^^ cc.v)) = true ↔ cc.z = false ∧ cc.n = cc.v := by
  rw [Bool.and_eq_true, Bool.not_eq_true', not_signedLess_iff]

theorem signedLessOrEqual_iff (cc : Cc) :
    (cc.z || (cc.n ^^ cc.v)) = true ↔ cc.z = true ∨ cc.n ≠ cc.v := by
  rw [Bool.or_eq_true, signedLess_iff]

/-! ## The test of BHI (R224) -/

theorem unsignedHigher_iff (cc : Cc) :
    (!cc.c && !cc.z) = true ↔ cc.c = false ∧ cc.z = false := by
  rw [Bool.and_eq_true, Bool.not_eq_true', Bool.not_eq_true']

/-! ## The instructions -/

/-- Settles O32: each is `branchIf` on one condition code or its complement. -/
theorem simpleBranches : Obligations.SimpleBranches :=
  ⟨codedBr_of_encode (fun _ _ => ⟨rfl, rfl, rfl⟩) rfl,
    codedBr_of_encode (fun _ _ => ⟨rfl, rfl, rfl⟩) rfl,
    codedBr_of_encode (fun _ _ => ⟨rfl, rfl, rfl⟩) rfl,
    codedBr_of_encode (fun _ _ => ⟨rfl, rfl, rfl⟩) rfl,
    codedBr_of_encode (fun _ _ => ⟨rfl, rfl, rfl⟩) rfl,
    codedBr_of_encode (fun _ _ => ⟨rfl, rfl, rfl⟩) rfl,
    codedBr_of_encode (fun _ _ => ⟨rfl, rfl, rfl⟩) rfl,
    codedBr_of_encode (fun _ _ => ⟨rfl, rfl, rfl⟩) rfl,
    codedBr_of_encode (fun _ _ => ⟨rfl, rfl, rfl⟩) rfl,
    branchesOn_of_branchIf (fun _ => true) (fun _ _ => rfl) fun _ => iff_of_true rfl trivial,
    branchesOn_clear Cc.z (fun _ _ => rfl),
    branchesOn_set Cc.z (fun _ _ => rfl),
    branchesOn_clear Cc.n (fun _ _ => rfl),
    branchesOn_set Cc.n (fun _ _ => rfl),
    branchesOn_clear Cc.v (fun _ _ => rfl),
    branchesOn_set Cc.v (fun _ _ => rfl),
    branchesOn_clear Cc.c (fun _ _ => rfl),
    branchesOn_set Cc.c (fun _ _ => rfl)⟩

/-- Settles O33: each is `branchIf` on a comparison of the condition codes. -/
theorem comparisonBranches : Obligations.ComparisonBranches :=
  ⟨codedBr_of_encode (fun _ _ => ⟨rfl, rfl, rfl⟩) rfl,
    codedBr_of_encode (fun _ _ => ⟨rfl, rfl, rfl⟩) rfl,
    codedBr_of_encode (fun _ _ => ⟨rfl, rfl, rfl⟩) rfl,
    codedBr_of_encode (fun _ _ => ⟨rfl, rfl, rfl⟩) rfl,
    codedBr_of_encode (fun _ _ => ⟨rfl, rfl, rfl⟩) rfl,
    codedBr_of_encode (fun _ _ => ⟨rfl, rfl, rfl⟩) rfl,
    branchesOn_of_branchIf _ (fun _ _ => rfl) not_signedLess_iff,
    branchesOn_of_branchIf _ (fun _ _ => rfl) signedLess_iff,
    branchesOn_of_branchIf _ (fun _ _ => rfl) signedGreater_iff,
    branchesOn_of_branchIf _ (fun _ _ => rfl) signedLessOrEqual_iff,
    branchesOn_of_branchIf _ (fun _ _ => rfl) unsignedHigher_iff,
    branchesOn_of_branchIf _ (fun _ _ => rfl) fun _ => Bool.or_eq_true_iff⟩

end Sys2Proof.Machine
end

section
/-! Jumps and subroutine linkage (45_jump_subroutine.md R240 to R244): their words, the target of a
jump, the push and the pop of the link register, and the count of SOB. -/

namespace Sys2Proof

open Sys2Proof.Safety

/-! ## Words of formats RG, MK and SB (R87) -/

theorem append_toNat {n m : Nat} (x : BitVec n) (y : BitVec m) :
    (x ++ y).toNat = 2 ^ m * x.toNat + y.toNat := by
  rw [BitVec.toNat_append, ← Nat.shiftLeft_add_eq_or_of_lt y.isLt, Nat.shiftLeft_eq, Nat.mul_comm]

theorem encodeRg_toNat (op : BitVec 13) (r : Reg) :
    (encodeRg op r).toNat = 8 * op.toNat + r.bits.toNat :=
  append_toNat op r.bits

theorem encodeMk_toNat (op : BitVec 10) (n : BitVec 6) :
    (encodeMk op n).toNat = 64 * op.toNat + n.toNat :=
  append_toNat op n

theorem encodeSb_toNat (op : BitVec 7) (r : Reg) (x : BitVec 6) :
    (encodeSb op r x).toNat = 512 * op.toNat + 64 * r.bits.toNat + x.toNat := by
  rw [encodeSb, append_toNat, append_toNat]
  omega

/-- The number of a fixed row's word decodes to that row, whatever the OPEN encodings are. -/
theorem decode_of_encode_toNat {i : Instr} {k : Nat} (e : Encodings) (hopen : i.isOpen = false)
    (hwf : i.wellFormed = true) (hk : (encode e i).toNat = k) :
    decode e (BitVec.ofNat 16 k) = .ok i := by
  rw [← hk, BitVec.ofNat_toNat, BitVec.setWidth_eq]
  exact decode_of_fixed (decodeFixed_encode hopen hwf)

end Sys2Proof

namespace Sys2Proof.Machine

open Sys2Proof Sys2Proof.Safety

/-! ## Frames -/

/-- The frame of JMP, RTS, MARK and SOB, which write registers only. -/
theorem frame_of_regs {s t : State} (h : t = { s with regs := t.regs }) :
    KeepsMemory s t ∧ t.psw = s.psw ∧ KeepsRest s t := by
  rw [h]
  exact ⟨fun _ => rfl, rfl, rfl, rfl, rfl, rfl, rfl, rfl, rfl⟩

/-- An offset of six bits counts words (R243, R244). -/
theorem two_mul_zeroExtend (n : BitVec 6) :
    2 * n.zeroExtend 16 = BitVec.ofNat 16 (2 * n.toNat) := by
  rw [BitVec.ofNat_mul, BitVec.ofNat_toNat]
  rfl

/-! ## The target of JMP and JSR (R129) -/

/-- Where a jump through a resolved operand goes; `s` is the state before the operand. -/
def jumpTarget (l : Loc) (s : State) : Word :=
  match l with
  | .reg r => s.get r
  | .mem a => a

theorem effectiveAddress_ok {d : Operand} {s s1 : State} {l : Loc}
    (h : operand d .word s = .ok (l, s1)) :
    effectiveAddress d s = .ok (jumpTarget l s, s1) := by
  simp only [effectiveAddress, h, ok_bind]
  cases l with
  | mem a => rfl
  | reg r =>
    obtain ⟨_, _, hs⟩ := (operand_ok h).2 r rfl
    rw [hs]
    rfl

theorem execJmp_resolved {d : Operand} {s s1 : State} {l : Loc}
    (h : operand d .word s = .ok (l, s1)) :
    execJmp d s = .next (s1.set .pc (jumpTarget l s)) := by
  rw [execJmp, effectiveAddress_ok h]
  rfl

/-- JSR pushes REG and takes the link as the resolved operand left them. -/
theorem execJsr_resolved (reg : Reg) {d : Operand} {s s1 u : State} {l : Loc}
    (h : operand d .word s = .ok (l, s1)) (hpush : push (s1.get reg) s1 = .ok u) :
    execJsr reg d s = .next ((u.set reg (u.get .pc)).set .pc (jumpTarget l s)) := by
  simp only [execJsr, effectiveAddress_ok h, ok_bind, hpush]
  rfl

/-- Settles O34: the operand moves its registers, then the target goes into the PC. -/
theorem jmpResult : Obligations.JmpResult := by
  refine ⟨codedSo_of_encode (fun _ _ => ⟨rfl, rfl, rfl⟩) rfl, ?_⟩
  intro d s s1 l hd
  have hm := (operand_ok hd).1
  have hget (q : Reg) : (s1.set .pc (jumpTarget l s)).get q =
      if q = .pc then jumpTarget l s else s.get q + operandStep d .word s q := by
    rw [get_set, hm.1]
  exact ⟨_, execJmp_resolved hd, hget, frame_of_regs (by rw [hm.2]; rfl)⟩

/-! ## The push of JSR (R241) -/

/-- Everything a push to an even address does. -/
theorem push_effect {s : State} (v : Word) (hwf : s.mem.wf = true)
    (heven : isOdd (s.get .sp - 2) = false) :
    ∃ t, push v s = .ok t ∧ (∀ q, t.get q = if q = .sp then s.get .sp - 2 else s.get q) ∧
      StoresWord (s.get .sp - 2) v s t ∧ t.psw = s.psw ∧ KeepsRest s t :=
  ⟨_, push_even v heven, fun q => get_set s .sp q _, storesWord_put hwf _ v _ rfl, rfl,
    rfl, rfl, rfl, rfl, rfl, rfl, rfl⟩

/-- Settles O35: JSR is the resolved operand, a push, and the link and the PC written after it. -/
theorem jsrResult : Obligations.JsrResult := by
  refine ⟨codedRo_of_encode (fun _ _ _ => ⟨rfl, rfl, rfl⟩) rfl, ?_⟩
  intro reg d s s1 l hwf hd step sp hsp
  have hm := (operand_ok hd).1
  have hmem := moves_mem hm
  have hsp1 : s1.get .sp - 2 = sp := by rw [hm.1]
  have heven : isOdd (s1.get .sp - 2) = false := by
    rw [hsp1]
    exact hsp
  obtain ⟨u, hpush, hregs, hstores, hpsw, hrest⟩ :=
    push_effect (s1.get reg) (by rw [hmem]; exact hwf) heven
  rw [hsp1] at hregs hstores
  have hget (q : Reg) : ((u.set reg (u.get .pc)).set .pc (jumpTarget l s)).get q =
      if q = .pc then jumpTarget l s else if q = reg then s.get .pc + step .pc
        else if q = .sp then sp else s.get q + step q := by
    rw [get_set, get_set, hregs, hregs, hm.1, hm.1]
    rfl
  obtain ⟨hlow, hhigh, hother⟩ := hstores
  rw [hm.1] at hlow hhigh
  exact ⟨_, execJsr_resolved reg hd hpush, hget,
    ⟨hlow, hhigh, fun b h0 h1 => by rw [← hmem]; exact hother b h0 h1⟩,
    hpsw.trans (moves_psw hm), keepsRest_trans (moves_keepsRest hm) hrest⟩

/-! ## The pop of RTS and MARK (R242, R243) -/

/-- The state RTS leaves: the PC from Rn, the SP past the word popped, and Rn written last. -/
def returned (r : Reg) (s : State) : State :=
  ((s.set .pc (s.get r)).set .sp (s.get .sp + 2)).set r (s.mem.word (s.get .sp))

theorem execRts_even (r : Reg) {s : State} (h : isOdd (s.get .sp) = false) :
    execRts r s = .next (returned r s) := by
  rw [execRts, pop_even (s := s.set .pc (s.get r)) h]
  rfl

theorem returned_get (r q : Reg) (s : State) : (returned r s).get q =
    if q = r then s.mem.word (s.get .sp) else if q = .pc then s.get r
      else if q = .sp then s.get .sp + 2 else s.get q := by
  have hdistinct : q = .sp → ¬ q = .pc := by
    rintro rfl
    decide
  rw [returned, get_set, get_set, get_set, ite_ite_comm (h := hdistinct)]

/-- Settles O36, by the one pop of RTS. -/
theorem rtsResult : Obligations.RtsResult := by
  refine ⟨fun e r => decode_of_encode_toNat e rfl rfl (encodeRg_toNat 0x010 r), ?_⟩
  intro r s hsp
  exact ⟨_, execRts_even r hsp, fun q => returned_get r q s, frame_of_regs rfl⟩

/-- After the SP is computed MARK is an RTS through R5. -/
theorem execMark_eq_rts (n : BitVec 6) (s : State) :
    execMark n s = execRts .r5 (s.set .sp (markStack n s)) := rfl

theorem markStack_eq (n : BitVec 6) (s : State) : markStack n s =
    match s.cfg.sw.markRule with
    | .source => s.get .sp + BitVec.ofNat 16 n.toNat
    | .pdp11 => s.get .pc + BitVec.ofNat 16 (2 * n.toNat) := by
  unfold markStack
  cases s.cfg.sw.markRule with
  | source => exact congrArg (s.get .sp + ·) (BitVec.ofNat_toNat 16 n).symm
  | pdp11 => exact congrArg (s.get .pc + ·) (two_mul_zeroExtend n)

/-- Settles O37, as the RTS through R5 that follows the SP's rule. -/
theorem markResult : Obligations.MarkResult := by
  refine ⟨fun e n => decode_of_encode_toNat e rfl rfl (encodeMk_toNat 0x034 n), ?_⟩
  intro n s sp hsp
  have hstack : markStack n s = sp := markStack_eq n s
  have hexec : exec (.mark n) s = .next (returned .r5 (s.set .sp sp)) := by
    rw [← hstack] at hsp ⊢
    exact (execMark_eq_rts n s).trans (execRts_even .r5 hsp)
  exact ⟨_, hexec, fun q => by cases q <;> rfl, frame_of_regs rfl⟩

/-! ## The count of SOB (R244) -/

/-- A register write with the PC told apart first: SOB's REG may be the PC (R244). -/
theorem set_get_pc_first (reg : Reg) (v : Word) (s : State) (q : Reg) : (s.set reg v).get q =
    if q = .pc then (if reg = .pc then v else s.get .pc) else if q = reg then v else s.get q := by
  rw [get_set]
  by_cases hq : q = .pc
  · subst hq
    rw [if_pos rfl]
    exact if_congr eq_comm rfl rfl
  · rw [if_neg hq]

theorem sub_words_eq_ofInt (pc : Word) (x : BitVec 6) :
    pc - 2 * x.zeroExtend 16 = BitVec.ofInt 16 (pc.toNat - 2 * x.toNat) := by
  rw [two_mul_zeroExtend, sub_eq_ofInt, Nat.cast_mul]
  rfl

theorem execSob_zero {reg : Reg} {s : State} (x : BitVec 6) (h : s.get reg - 1 = 0) :
    execSob reg x s = .next (s.set reg (s.get reg - 1)) := by
  have hcount : (s.set reg (s.get reg - 1)).get reg = 0 := by rwa [get_set, if_pos rfl]
  exact congrArg _ (if_pos hcount)

theorem execSob_nonzero {reg : Reg} {s : State} (x : BitVec 6) (h : s.get reg - 1 ≠ 0) :
    let s1 := s.set reg (s.get reg - 1)
    execSob reg x s = .next (s1.set .pc (BitVec.ofInt 16 ((s1.get .pc).toNat - 2 * x.toNat))) := by
  intro s1
  have hcount : s1.get reg ≠ 0 := by rwa [get_set, if_pos rfl]
  rw [← sub_words_eq_ofInt]
  exact congrArg _ (if_neg hcount)

/-- Settles O38, by whether the count became zero. -/
theorem sobResult : Obligations.SobResult := by
  refine ⟨fun e r x => decode_of_encode_toNat e rfl rfl (encodeSb_toNat 0x3F r x), ?_⟩
  intro reg x s count pc
  have hpc : (s.set reg count).get .pc = pc := set_get_pc_first reg count s .pc
  by_cases hzero : count = 0
  · rw [if_pos hzero]
    exact ⟨_, execSob_zero x hzero, set_get_pc_first reg count s, frame_of_regs rfl⟩
  · rw [if_neg hzero, ← hpc]
    have hget (target : Word) (q : Reg) : ((s.set reg count).set .pc target).get q =
        if q = .pc then target else if q = reg then count else s.get q := by
      rw [get_set, get_set]
    exact ⟨_, execSob_nonzero x hzero, hget _, frame_of_regs rfl⟩

end Sys2Proof.Machine
end

section
/-! Traps, returns, halt and processor status (46_trap_system.md R260 to R274): their words, the
entries and the returns, and the PSW as it is stored and loaded. -/

namespace Sys2Proof

open Sys2Proof.Safety

/-! ## Words of format IM (R86) -/

/-- The one word of a fixed row without fields decodes to it, whatever the OPEN encodings are. -/
theorem codedIm_of_encode {w : Word} {i : Instr}
    (hrow : ∀ e, encode e i = w ∧ i.isOpen = false ∧ i.wellFormed = true) : CodedIm w i := by
  intro e
  obtain ⟨henc, hopen, hwf⟩ := hrow e
  rw [← henc]
  exact decode_of_fixed (decodeFixed_encode hopen hwf)

end Sys2Proof

namespace Sys2Proof.Machine

open Sys2Proof Sys2Proof.Safety

/-! ## Entries (R260 to R263, R320) -/

/-- An instruction that is an entry through the vector of that number, at an even SP. -/
theorem entry_effect {i : Instr} {number : BitVec 15} {s : State} (hwf : s.mem.wf = true)
    (hsp : isOdd (s.get .sp) = false)
    (hexec : exec i s = toOutcome (enter (vectorAddress number) s)) :
    ∃ t, exec i s = .next t ∧ Enters (BitVec.ofNat 16 (2 * number.toNat)) s t ∧
      t.irq = s.irq ∧ t.tinh = s.tinh := by
  obtain ⟨t, henter, henters, hirq, htinh, _⟩ := enter_effect hwf hsp (vectorAddress_even number)
  rw [vectorAddress_eq] at henters
  exact exec_next hexec ⟨t, henter, henters, hirq, htinh⟩

/-- Settles O39: the four differ in the parameter that numbers their vector. -/
theorem trapInstructions : Obligations.TrapInstructions := by
  refine ⟨codedBr_of_encode (fun _ _ => ⟨rfl, rfl, rfl⟩) rfl,
    codedBr_of_encode (fun _ _ => ⟨rfl, rfl, rfl⟩) rfl,
    codedIm_of_encode fun _ => ⟨rfl, rfl, rfl⟩,
    codedIm_of_encode fun _ => ⟨rfl, rfl, rfl⟩, fun s hwf hsp => ?_⟩
  exact ⟨fun _ => entry_effect hwf hsp rfl, fun _ => entry_effect hwf hsp rfl,
    entry_effect hwf hsp rfl, entry_effect hwf hsp rfl⟩

/-! ## Returns (R264, R265) -/

/-- The frame of what writes registers and the PSW only. -/
theorem frame_of_regs_psw {s t : State} (h : t = { s with regs := t.regs, psw := t.psw }) :
    KeepsMemory s t ∧ KeepsRest s t := by
  rw [h]
  exact ⟨fun _ => rfl, rfl, rfl, rfl, rfl, rfl, rfl, rfl⟩

/-- Settles O40: both are the one return, and RTT raises the trace inhibit after it. -/
theorem returnInstructions : Obligations.ReturnInstructions := by
  refine ⟨codedIm_of_encode fun _ => ⟨rfl, rfl, rfl⟩,
    codedIm_of_encode fun _ => ⟨rfl, rfl, rfl⟩, fun s hsp => ?_⟩
  obtain ⟨t, hreturn, hregs, hpsw, hframe⟩ := return_effect hsp
  have hrti : exec .rti s = .next t := by
    simp only [exec, execRti, hreturn, toOutcome]
  have hrtt : exec .rtt s = .next { t with tinh := true } := by
    simp only [exec, execRtt, hreturn, ok_bind, toOutcome]
  exact ⟨t, hrti, hrtt, hregs, hpsw, frame_of_regs_psw hframe⟩

/-! ## Storing the PSW (R271) -/

theorem ccMfps_eq_codes (v : Byte) (cc : Cc) : ccMfps v cc = codes v false cc.c :=
  ccLogic_eq_codes cc v

/-- Each of the 256 PSWs, loaded from its own byte, is as it was but for T, which TEN gates (R28). -/
theorem psw_ofByte_toByte (ten : Bool) (p : Psw) :
    Psw.ofByte ten p.toByte = { p with t := p.t && ten } := by
  obtain ⟨prio, t, n, z, v, c⟩ := p
  revert ten prio t n z v c
  decide

theorem writePsw_pswByte (s : State) :
    s.writePsw (pswByte s.psw) =
      { s with psw := { s.psw with t := s.psw.t && s.cfg.settings.ten } } := by
  rw [State.writePsw, ← psw_toByte, psw_ofByte_toByte]

section Mfps

variable {d : Operand} {s s1 : State} {l : Loc}

theorem wrByte_psw (b : Byte) (hout : hitsPswWindow l s = false) : (wrByte l b s).psw = s.psw := by
  cases l with
  | reg r => rfl
  | mem a =>
    have hmem : inPswWindow a s = false := hout
    simp [wrByte, writeByte, hmem]

/-- Outside the PSW window MFPS is the write of a byte result with its codes. -/
theorem mfps_byteEffect (hwf : s.mem.wf = true) (hd : operand d .byte s = .ok (l, s1))
    (hout : hitsPswWindow l s1 = false) :
    ∃ t, exec (.mfps d) s = .next t ∧
      ByteEffect l (pswByte s.psw) (codes (pswByte s.psw) false s.psw.cc.c) (operandStep d .byte s)
        s t := by
  have hm := (operand_ok hd).1
  refine ⟨_, ?_, commitByte_effect hm hwf l (pswByte s.psw, codes (pswByte s.psw) false s.psw.cc.c)⟩
  simp only [exec, execMfps, hd, ok_bind, toOutcome, wrByte_psw _ hout, commitByte, hout,
    ccMfps_eq_codes, psw_toByte, moves_psw hm, Bool.false_eq_true, if_false]

/-- Through the PSW window the write gates T by TEN, and the codes come after it (log 17). -/
theorem exec_mfps_window {a : Word} (hd : operand d .byte s = .ok (.mem a, s1))
    (hwin : AtWindow a s1) :
    exec (.mfps d) s = .next { s1 with
      psw := {
        prio := s1.psw.prio
        t := s1.psw.t && s1.cfg.settings.ten
        cc := codes (pswByte s1.psw) false s1.psw.cc.c } } := by
  have hwrite : wrByte (.mem a) (pswByte s1.psw) s1 =
      { s1 with psw := { s1.psw with t := s1.psw.t && s1.cfg.settings.ten } } := by
    rw [wrByte, writeByte_window _ hwin, writePsw_pswByte]
  simp only [exec, execMfps, hd, ok_bind, toOutcome, psw_toByte, hwrite, State.setCc,
    ccMfps_eq_codes]

end Mfps

/-- Settles O42, by whether the byte goes to a register, to memory or through the PSW window. -/
theorem mfpsResult : Obligations.MfpsResult := by
  refine ⟨codedSo_of_encode (fun _ _ => ⟨rfl, rfl, rfl⟩) rfl, ?_⟩
  intro d s s1 l hwf hd v step
  obtain ⟨hm, hreg⟩ := operand_ok hd
  have hatWindow (a : Word) : AtWindow a s1 ↔ AtWindow a s := by
    rw [AtWindow, AtWindow, moves_cfg hm]
  cases l with
  | reg r =>
    obtain ⟨t, hexec, hrest, hregs, hmem, hprio, ht, hcc⟩ := mfps_byteEffect hwf hd rfl
    obtain ⟨_, _, rfl⟩ := hreg r rfl
    refine ⟨t, hexec, hrest, hprio, hcc, fun q => ?_, hmem, ht⟩
    rw [hregs, ← hm.1]
  | mem a =>
    by_cases hwin : AtWindow a s
    · have hexec := exec_mfps_window hd ((hatWindow a).2 hwin)
      have hrest := moves_keepsRest hm
      rw [moves_psw hm] at hexec
      exact ⟨_, hexec, hrest, rfl, rfl, hm.1, fun hout => absurd hwin hout,
        fun _ => ⟨fun b => by rw [moves_mem hm], by rw [moves_cfg hm]⟩⟩
    · have hout : hitsPswWindow (.mem a) s1 = false :=
        inPswWindow_of_not_atWindow (mt (hatWindow a).1 hwin)
      obtain ⟨t, hexec, hrest, hregs, hstored, _⟩ := mfps_byteEffect hwf hd hout
      obtain ⟨hbyte, hprio, ht, hcc⟩ := hstored hwin
      exact ⟨t, hexec, hrest, hprio, hcc, hregs, fun _ => ⟨hbyte, ht⟩, fun h => absurd h hwin⟩

/-! ## Loading the PSW (R272) -/

/-- Settles O43: the source is read, and then its byte is loaded. -/
theorem mtpsResult : Obligations.MtpsResult := by
  refine ⟨codedSo_of_encode (fun _ _ => ⟨rfl, rfl, rfl⟩) rfl, ?_⟩
  intro src s s1 x hsrc
  have hm := sourceByte_moves hsrc
  have hexec : exec (.mtps src) s = .next (s1.writePsw x) := by
    simp only [exec, execMtps, hsrc, ok_bind, toOutcome]
  have hframe : s1.writePsw x = { s with regs := s1.regs, psw := (s1.writePsw x).psw } := by
    rw [hm.2]
    rfl
  obtain ⟨hmem, hrest⟩ := frame_of_regs_psw hframe
  refine ⟨_, hexec, hm.1, hmem, ?_, hrest⟩
  rw [← moves_cfg hm]
  exact loadedFrom_ofByte _ x

/-! ## The implied instructions (R266 to R270, R274) -/

/-- SVB's mask leaves the upper eleven bits (R269). -/
theorem svb_mask_eq_append (v : Word) : v &&& 0xFFE0 = v.extractLsb' 5 11 ++ 0#5 := by
  have hsplit : v.extractLsb' 5 11 ++ v.extractLsb' 0 5 = v :=
    (append_extract 0 11 5 v).trans (extract_all v)
  calc v &&& 0xFFE0
    _ = (v.extractLsb' 5 11 ++ v.extractLsb' 0 5) &&& (BitVec.allOnes 11 ++ 0#5) := by
      rw [hsplit]
      rfl
    _ = v.extractLsb' 5 11 ++ 0#5 := by
      rw [BitVec.and_append, BitVec.and_allOnes, BitVec.and_zero]

theorem svb_mask_toNat (v : Word) : (v &&& 0xFFE0).toNat = v.toNat / 32 * 32 := by
  have := v.isLt
  rw [svb_mask_eq_append, append_toNat, extract_toNat, BitVec.toNat_zero]
  omega

/-- Settles O41: the words by the encoder, each effect by the definition, IVB as the masked R0. -/
theorem impliedInstructions : Obligations.ImpliedInstructions := by
  refine ⟨codedIm_of_encode fun _ => ⟨rfl, rfl, rfl⟩,
    codedIm_of_encode fun _ => ⟨rfl, rfl, rfl⟩,
    codedIm_of_encode fun _ => ⟨rfl, rfl, rfl⟩,
    codedIm_of_encode fun _ => ⟨rfl, rfl, rfl⟩,
    fun e hok => ⟨decodeOfEncode e .svb hok rfl, decodeOfEncode e .trace hok rfl⟩, fun s => ?_⟩
  have hsvb : exec .svb s = .next { s with ivb := s.get .r0 &&& 0xFFE0 } := rfl
  exact ⟨rfl, rfl, rfl, ⟨_, hsvb, rfl, svb_mask_toNat (s.get .r0)⟩, rfl, rfl⟩

end Sys2Proof.Machine
end

section
/-! Internal I/O (47_io.md R290 to R293): the I/O map, which words a register may read as, what a
write leaves in the peripherals, and the two instructions. -/

namespace Sys2Proof

open Sys2Proof.Safety

/-! ## Words of the OPEN rows of format RO (R84, R94) -/

/-- The word of an instruction whose opcode is one of the lost encodings decodes to it. -/
theorem decode_open_ro {e : Encodings} {op : BitVec 7} {i : Instr} {r : Reg} {d : Operand}
    (hok : e.ok = true) (henc : encode e i = encodeRo op r d) (hwf : i.wellFormed = true) :
    decode e (BitVec.ofNat 16 (512 * op.toNat + 64 * r.bits.toNat + specifier d)) = .ok i := by
  rw [ofNat_register_specifier, ← henc]
  exact decodeOfEncode e i hok hwf

end Sys2Proof

namespace Sys2Proof.Machine

open Sys2Proof Sys2Proof.Safety

/-! ## The I/O map (R350) -/

/-- The I/O address of a register. -/
def IoReg.address : IoReg → Nat
  | .ddra => 0x00
  | .porta => 0x01
  | .pina => 0x02
  | .inta => 0x03
  | .t0pre => 0x04
  | .t1pre => 0x05
  | .ttop0 => 0x06
  | .ttop1 => 0x07
  | .tmr0 => 0x08
  | .tmr1 => 0x09
  | .tint => 0x0A
  | .sdiv => 0x0B
  | .sdr => 0x0C
  | .sbys => 0x0D
  | .udiv => 0x0E
  | .udr => 0x0F
  | .ubsy => 0x10

/-- An I/O address is that of a connected register, or above them all. -/
theorem ioReg_cases (a : Byte) :
    (∃ r, ioReg a = some r ∧ a.toNat = r.address) ∨ ioReg a = none ∧ 0x10 < a.toNat := by
  unfold ioReg
  split
  case h_18 =>
    refine .inr ⟨rfl, ?_⟩
    simp only [imp_false] at *
    omega
  all_goals
    next ha => exact .inl ⟨_, rfl, ha⟩

theorem ioReg_of_address {a : Byte} {r : IoReg} (h : a.toNat = r.address) : ioReg a = some r := by
  cases r <;> simp only [ioReg, h, IoReg.address]

theorem lowByte_toNat (v : Word) : (lowByte v).toNat = v.toNat % 256 :=
  (extract_toNat v 0 8).trans (by rw [Nat.pow_zero, Nat.div_one]; rfl)

theorem lowByte_eq_setWidth (v : Word) : lowByte v = v.setWidth 8 :=
  (BitVec.setWidth_eq_extractLsb' (by decide)).symm

/-! ## A register as a word (R290) -/

theorem lowBits_getLsbD (n : Nat) (v : Word) (j : Nat) :
    (lowBits n v).getLsbD j = (decide (j < n) && v.getLsbD j) := by
  rw [lowBits, BitVec.getLsbD_and, BitVec.getLsbD_ofNat, Nat.testBit_two_pow_sub_one]
  by_cases hj : j < 16
  · rw [decide_eq_true hj, Bool.true_and, Bool.and_comm]
  · rw [BitVec.getLsbD_of_ge v j (Nat.le_of_not_lt hj), Bool.false_and, Bool.and_false]

/-- Cutting a word by a mask is cutting its value (R291). -/
theorem lowBits_eq_cut (n : Nat) (v : Word) : lowBits n v = cut n v := by
  apply BitVec.eq_of_getLsbD_eq
  intro j hj
  rw [lowBits_getLsbD, cut, BitVec.getLsbD_ofNat, Nat.testBit_mod_two_pow, decide_eq_true hj,
    Bool.true_and]
  rfl

/-- The bits that a policy fills are those above the width. -/
theorem aboveBits_getLsbD (n j : Nat) :
    (~~~(lowBits n 0xFFFF)).getLsbD j = (decide (j < 16) && !decide (j < n)) := by
  have hones : (0xFFFF : Word) = BitVec.allOnes 16 := rfl
  rw [BitVec.getLsbD_not, lowBits_getLsbD, hones, BitVec.getLsbD_allOnes]
  by_cases hj : j < 16 <;> simp [hj]

/-- Under every policy for the bits above it, a register reads with its own bits below its width. -/
theorem readsLow_withUnused (s : State) (n : Nat) (x u : Word) :
    ReadsLow s n x (withUnused s.cfg.sw.ioUnusedBits n x u) := by
  refine ⟨fun j hj => ?_, fun hzero j hj => ?_, fun hones j hj hj16 => ?_⟩
  · have hlow : (lowBits n x).getLsbD j = x.getLsbD j := by
      rw [lowBits_getLsbD, decide_eq_true hj, Bool.true_and]
    have habove : (~~~(lowBits n 0xFFFF)).getLsbD j = false := by
      rw [aboveBits_getLsbD, decide_eq_true hj, Bool.not_true, Bool.and_false]
    cases s.cfg.sw.ioUnusedBits with
    | zero => exact hlow
    | ones => rw [withUnused, BitVec.getLsbD_or, hlow, habove, Bool.or_false]
    | any =>
      rw [withUnused, BitVec.getLsbD_or, BitVec.getLsbD_and, hlow, habove, Bool.and_false,
        Bool.or_false]
  · rw [hzero, withUnused, lowBits_getLsbD, decide_eq_false (Nat.not_lt.mpr hj), Bool.false_and]
  · rw [hones, withUnused, BitVec.getLsbD_or, aboveBits_getLsbD, decide_eq_true hj16,
      decide_eq_false (Nat.not_lt.mpr hj), Bool.not_false, Bool.and_true, Bool.or_true]

/-! ## Reading (R290, R351 to R377, R380) -/

theorem readsAs_congr {s t : State} {a : Nat} {v : Word} (hio : t.io = s.io)
    (hcfg : t.cfg = s.cfg) : ReadsAs t a v ↔ ReadsAs s a v := by
  unfold ReadsAs ReadsLow
  rw [hio, hcfg]

theorem flagWord_toNat (b : Bool) : (flagWord b).toNat = b.toNat := by
  cases b <;> rfl

/-- An input pin reads its level (R353). -/
theorem pinaBits_input {io : Periph} {j : Nat} (u : Word) (hj : j < 7)
    (hin : io.ddra.getLsbD j = false) : (pinaBits io u).getLsbD j = io.pins.getLsbD j := by
  rw [pinaBits, BitVec.getLsbD_or, BitVec.getLsbD_and, BitVec.getLsbD_and, BitVec.getLsbD_not, hin]
  simp [hj]

/-- The enables stand in bits 4:1 (R354). -/
theorem intaBits_enable {io : Periph} {j : Nat} (u : Word) (hj : j < 4) :
    (intaBits io u).getLsbD (j + 1) = io.inta.getLsbD j := by
  rw [intaBits, BitVec.getLsbD_append, BitVec.getLsbD_append]
  simp [hj]

/-- What the model reads from a connected register is a word it may read as, whatever stands for the
unspecified bits. -/
theorem readsAs_ioRegRead (s : State) (u : Word) (r : IoReg) :
    ReadsAs s r.address (ioRegRead s.cfg s.io u r) := by
  cases r with
  | ttop0 | ttop1 | tmr0 | tmr1 => exact rfl
  | sbys | ubsy => exact flagWord_toNat _
  | ddra | porta | t0pre | t1pre | tint | sdiv | udiv | udr => exact readsLow_withUnused s _ _ u
  | pina =>
    obtain ⟨hlow, habove⟩ := readsLow_withUnused s 7 ((pinaBits s.io u).zeroExtend 16) u
    refine ⟨fun j hj hin => (hlow j hj).trans ?_, habove⟩
    rw [← pinaBits_input u hj hin, BitVec.getLsbD_setWidth, decide_eq_true (by omega : j < 16),
      Bool.true_and]
  | inta =>
    obtain ⟨hlow, habove⟩ := readsLow_withUnused s 7 ((intaBits s.io u).zeroExtend 16) u
    refine ⟨fun j hj => (hlow (j + 1) (by omega)).trans ?_, habove⟩
    rw [← intaBits_enable u hj, BitVec.getLsbD_setWidth, decide_eq_true (by omega : j + 1 < 16),
      Bool.true_and]
  | sdr =>
    obtain ⟨hlow, habove⟩ := readsLow_withUnused s 8 ((sdrByte s.io u).zeroExtend 16) u
    refine ⟨fun hidle j hj => (hlow j hj).trans ?_, habove⟩
    rw [sdrByte, hidle, BitVec.getLsbD_setWidth, decide_eq_true (by omega : j < 16), Bool.true_and]
    rfl

theorem readsAs_unconnected (s : State) {a : Nat} (h : 0x10 < a) : ReadsAs s a 0xFFFF := by
  unfold ReadsAs
  split
  case h_18 => rfl
  all_goals omega

theorem readsAs_ioRead (a : Byte) (s : State) : ReadsAs s a.toNat (ioRead a s).1 := by
  obtain ⟨r, hr, ha⟩ | ⟨hnone, ha⟩ := ioReg_cases a
  · rw [ioRead, hr, ha]
    exact readsAs_ioRegRead s _ r
  · rw [ioRead, hnone]
    exact readsAs_unconnected s ha

/-! ## Drawing an unspecified value -/

theorem moves_drawn {f : Reg → Word} {s t : State} (h : Moves f s t) (n : Nat) :
    Moves f { s with free := n } { t with free := n } :=
  ⟨h.1, by rw [h.2]⟩

/-- No effect speaks of how many unspecified values have been drawn. -/
theorem wordEffect_drawn {l : Loc} {v : Word} {cc : Cc} {f : Reg → Word} {s t : State} {n : Nat}
    (h : WordEffect l v cc f { s with free := n } t) : WordEffect l v cc f s t := by
  cases l with
  | reg r => exact h
  | mem a => exact h

/-! ## IOR (R292) -/

/-- Settles O44: the word read is one the register may read as, and it is stored as a word
result. -/
theorem iorResult : Obligations.IorResult := by
  refine ⟨fun e r d hok => decode_open_ro hok rfl rfl, ?_⟩
  intro reg d s s1 l hwf hd hl step
  have hm := (operand_ok hd).1
  let v := (ioRead (lowByte (s1.get reg)) s1).1
  have hreads : ReadsAs s ((s.get reg + step reg).toNat % 256) v := by
    rw [← readsAs_congr (moves_io hm) (moves_cfg hm), ← hm.1, ← lowByte_toNat]
    exact readsAs_ioRead _ s1
  have hexec : exec (.ior reg d) s =
      toOutcome (commitWord l (v, codes v false s.psw.cc.c) { s1 with free := s1.free + 1 }) := by
    simp only [exec, execIor, hd, ok_bind, ccLogic_eq_codes, ioRead, moves_psw hm, v]
  obtain ⟨t, ht, heffect⟩ := exec_next hexec
    (commitWord_effect (moves_drawn hm (s1.free + 1)) hwf hl _)
  exact ⟨t, v, ht, hreads, wordEffect_drawn heffect⟩

/-! ## Writing (R291, R351 to R377) -/

/-- A write to a port that is not busy, register by register. -/
theorem ioWrite_connected {a : Byte} {r : IoReg} (v : Word) {s : State} (hr : ioReg a = some r)
    (hidle : ¬ PortBusy s r.address) :
    ioWrite a v s = .ok (s.setIo (afterIoWrite s r.address v)) := by
  unfold ioWrite
  rw [hr]
  cases r with
  | pina | sbys | ubsy | ttop0 | ttop1 | tmr0 | tmr1 | inta => rfl
  | ddra | porta | tint =>
    rw [← BitVec.setWidth_eq_extractLsb' (by decide)]
    rfl
  | t0pre | t1pre | sdiv | udiv =>
    simp only [lowBits_eq_cut]
    rfl
  | sdr =>
    have hfree : ¬ s.io.sbys = true := fun h => hidle (.inl ⟨rfl, h⟩)
    rw [lowByte_eq_setWidth]
    exact if_neg hfree
  | udr =>
    have hfree : ¬ s.io.ubsy = true := fun h => hidle (.inr ⟨rfl, h⟩)
    rw [lowByte_eq_setWidth]
    exact if_neg hfree

theorem afterIoWrite_unconnected (s : State) {a : Nat} (v : Word) (h : 0x10 < a) :
    afterIoWrite s a v = s.io := by
  unfold afterIoWrite
  split
  case h_15 => rfl
  all_goals omega

theorem ioWrite_idle {a : Byte} (v : Word) {s : State} (hidle : ¬ PortBusy s a.toNat) :
    ioWrite a v s = .ok (s.setIo (afterIoWrite s a.toNat v)) := by
  obtain ⟨r, hr, ha⟩ | ⟨hnone, ha⟩ := ioReg_cases a
  · rw [ha] at hidle ⊢
    exact ioWrite_connected v hr hidle
  · rw [afterIoWrite_unconnected s v ha, ioWrite, hnone]
    rfl

theorem ioWrite_spi_busy {a : Byte} (v : Word) {s : State} (ha : a.toNat = 0x0C)
    (hbusy : s.io.sbys = true) : ioWrite a v s = .error .spiWriteWhileBusy := by
  simp only [ioWrite, ioReg_of_address (r := .sdr) ha, hbusy, if_true]

theorem ioWrite_uart_busy {a : Byte} (v : Word) {s : State} (ha : a.toNat = 0x0F)
    (hbusy : s.io.ubsy = true) : ioWrite a v s = .error .uartWriteWhileBusy := by
  simp only [ioWrite, ioReg_of_address (r := .udr) ha, hbusy, if_true]

theorem afterIoWrite_congr {s t : State} (a : Nat) (v : Word) (hio : t.io = s.io)
    (hcfg : t.cfg = s.cfg) : afterIoWrite t a v = afterIoWrite s a v := by
  unfold afterIoWrite
  rw [hio, hcfg]

/-! ## IOW (R293) -/

section Iow

variable {reg : Reg} {src : Operand} {s s1 : State} {x : Word}

theorem exec_iow (hsrc : sourceWord src s = .ok (x, s1)) :
    exec (.iow reg src) s = toOutcome (ioWrite (lowByte (s1.get reg)) x s1) := by
  simp only [exec, execIow, hsrc, ok_bind]

/-- The I/O address of an IOW, from the state before its source. -/
theorem iow_address (hsrc : sourceWord src s = .ok (x, s1)) :
    (lowByte (s1.get reg)).toNat = (s.get reg + operandStep src .word s reg).toNat % 256 := by
  rw [lowByte_toNat, (sourceWord_moves hsrc).1]

end Iow

/-- Settles O45: the source is read, and then the one register is written. -/
theorem iowResult : Obligations.IowResult := by
  refine ⟨fun e r d hok => decode_open_ro hok rfl rfl, ?_⟩
  intro reg src s s1 x hsrc step a hidle
  have hm := sourceWord_moves hsrc
  have ha : (lowByte (s1.get reg)).toNat = a := iow_address hsrc
  have hidle1 : ¬ PortBusy s1 (lowByte (s1.get reg)).toNat := by
    rwa [ha, PortBusy, moves_io hm]
  have hexec : exec (.iow reg src) s = .next (s1.setIo (afterIoWrite s a x)) := by
    rw [exec_iow hsrc, ioWrite_idle x hidle1, ha,
      afterIoWrite_congr a x (moves_io hm) (moves_cfg hm)]
    rfl
  obtain ⟨hivb, hirq, hrun, htinh, _, hcfg, hscript⟩ := moves_keepsRest hm
  exact ⟨_, hexec, rfl, hm.1, fun b => by rw [setIo_mem, moves_mem hm],
    (setIo_psw s1 _).trans (moves_psw hm), hivb, hirq,
    hrun, htinh, hcfg, hscript⟩

/-- Settles O46: the source is read before the write that stops. -/
theorem busyWriteStops : Obligations.BusyWriteStops := by
  intro reg src s s1 x hsrc a
  have hm := sourceWord_moves hsrc
  have ha : (lowByte (s1.get reg)).toNat = a := iow_address hsrc
  rw [exec_iow hsrc, ← moves_io hm, ← ha]
  exact ⟨fun hspi hbusy => by rw [ioWrite_spi_busy x hspi hbusy]; rfl,
    fun huart hbusy => by rw [ioWrite_uart_busy x huart hbusy]; rfl⟩

end Sys2Proof.Machine
end

section
/-! The condition code operators (48_condition_codes.md R300 to R302): the 32 words and what each
selects. -/

namespace Sys2Proof

/-! ## The 32 words (R300) -/

theorem decodeCc_not_open : ∀ b : BitVec 5, (decodeCc b).isOpen = false := by decide

/-- The word of each mask decodes by its five bits, whatever the OPEN encodings are. -/
theorem decode_ccWord (e : Encodings) (b : BitVec 5) :
    decode e (BitVec.ofNat 16 (0x00A0 + b.toNat)) = .ok (decodeCc b) := by
  refine decode_of_encode_toNat e (decodeCc_not_open b) (decodeCc_wellFormed b) ?_
  rw [encode_decodeCc]
  exact append_toNat (0x005 : BitVec 11) b

end Sys2Proof

namespace Sys2Proof.Machine

open Sys2Proof Sys2Proof.Safety

/-- An operator by name is the general operator with the mask of its word. -/
theorem exec_decodeCc (b : BitVec 5) (s : State) :
    exec (decodeCc b) s = .next (operateCc (b.getLsbD 4) (b.getLsbD 3) (b.getLsbD 2) (b.getLsbD 1)
      (b.getLsbD 0) s) := by
  unfold decodeCc
  split <;> rfl

/-- Settles O47: the 32 words by their bits, the named ones among them, and each named operator by
its own mask. -/
theorem ccOperators : Obligations.CcOperators := by
  refine ⟨fun e => decode_ccWord e 0x01, fun e => decode_ccWord e 0x02,
    fun e => decode_ccWord e 0x04, fun e => decode_ccWord e 0x08, fun e => decode_ccWord e 0x11,
    fun e => decode_ccWord e 0x12, fun e => decode_ccWord e 0x14, fun e => decode_ccWord e 0x18,
    fun e => decode_ccWord e 0x1F, fun e => decode_ccWord e 0x0F, fun e => decode_ccWord e 0x00,
    fun e b s => ?_, fun _ _ _ _ _ _ => rfl,
    fun _ => ⟨rfl, rfl, rfl, rfl, rfl, rfl, rfl, rfl, rfl, rfl, rfl⟩⟩
  exact ⟨decodeCc b, _, decode_ccWord e b, exec_decodeCc b s, rfl, rfl, rfl, rfl, rfl⟩

end Sys2Proof.Machine
end

section
/-! Events between instructions (60_exceptions.md R323 to R377): the end-of-instruction check, the
wait state, a halted CPU, and the events of the timers, the pins and the serial ports. -/

namespace Sys2Proof.Machine

open Sys2Proof Sys2Proof.Safety

/-! ## The service of a request (R324, R325) -/

theorem irqVector_eq (s : State) (k : Irq) :
    irqVector s k = BitVec.ofNat 16 (s.ivb.toNat + 4 * k.number) :=
  add_eq_ofNat s.ivb (4 * k.number)

/-! ## The end-of-instruction check (R330, R333) -/

theorem traceDue_iff (s : State) :
    (s.psw.t && !s.tinh) = true ↔ s.psw.t = true ∧ s.tinh = false := by
  rw [Bool.and_eq_true, Bool.not_eq_true']

theorem endCheck_of_none {s : State} (h : highestAcceptable s = none) :
    endCheck s = if s.psw.t && !s.tinh then raiseTrap .trace { s with tinh := false }
      else .ok { s with tinh := false } := by
  have hs1 : highestAcceptable { s with tinh := false } = none := h
  simp only [endCheck, hs1]

theorem endCheck_of_some {s : State} {k : Irq} (h : highestAcceptable s = some k) :
    endCheck s = if (s.psw.t && !s.tinh) && s.cfg.sw.eventOrder == .traceFirst then
        raiseTrap .trace { s with tinh := false }
      else serveIrq k { s with tinh := false } := by
  have hs1 : highestAcceptable { s with tinh := false } = some k := h
  simp only [endCheck, hs1]

/-- A trace trap that is due is raised when nothing competes with it, or it comes first (D16). -/
theorem endCheck_raises {s : State} (htraced : s.psw.t = true ∧ s.tinh = false)
    (hfirst : (∀ k, ¬ Acceptable s k) ∨ s.cfg.sw.eventOrder = .traceFirst) :
    endCheck s = raiseTrap .trace { s with tinh := false } := by
  have hdue := (traceDue_iff s).2 htraced
  cases hirq : highestAcceptable s with
  | none => rw [endCheck_of_none hirq, if_pos hdue]
  | some k =>
    have hacc : Acceptable s k := (acceptable_iff s k).1 (find_byPriority_some hirq).1
    have horder : s.cfg.sw.eventOrder = .traceFirst := hfirst.resolve_left fun h => h k hacc
    rw [endCheck_of_some hirq, hdue, horder]
    rfl

/-- The highest acceptable request is served when no trace trap is due, or requests come first
(D16). -/
theorem endCheck_serves {s : State} {k : Irq} (hk : HighestAcceptable s k)
    (hfirst : ¬ (s.psw.t = true ∧ s.tinh = false) ∨ s.cfg.sw.eventOrder = .irqFirst) :
    endCheck s = serveIrq k { s with tinh := false } := by
  rw [endCheck_of_some (highestAcceptable_some hk), if_neg]
  rw [Bool.and_eq_true, traceDue_iff]
  rintro ⟨htraced, horder⟩
  obtain hnot | hirqFirst := hfirst
  · exact hnot htraced
  · rw [hirqFirst] at horder
    cases horder

/-- Settles O49: which of its three outcomes the check has, and what an entry and a service do. No
effect of either speaks of the trace inhibit that the check consumes first. -/
theorem endOfInstruction : Obligations.EndOfInstruction := by
  intro s traced
  refine ⟨fun hnot hnone => ?_,
    fun hwf hsp => ⟨fun htraced hfirst => ?_, fun hivb k hk hfirst => ?_⟩⟩
  · rw [endCheck_of_none (highestAcceptable_none hnone), if_neg (mt (traceDue_iff s).1 hnot)]
  · obtain ⟨t, henter, henters, hirq, htinh, _⟩ := enter_effect (s := { s with tinh := false })
      hwf hsp (vectorAddress_even s.cfg.vec.trace)
    rw [vectorAddress_eq] at henters
    exact ⟨t, (endCheck_raises htraced hfirst).trans henter, henters, hirq, htinh⟩
  · obtain ⟨t, hserve, henters, hclears, htinh, _⟩ := serveIrq_effect (k := k)
      (s := { s with tinh := false }) hwf hsp hivb
    rw [irqVector_eq] at henters
    exact ⟨t, (endCheck_serves hk hfirst).trans hserve, henters, hclears, htinh⟩

/-! ## The wait state (R335) -/

/-- Whether request `k` ends a wait. -/
def endsWait (s : State) (k : Irq) : Bool :=
  if s.cfg.sw.waitWakeIgnoresPrio then s.irq.get k else acceptable s k

theorem wakingIrq_eq (s : State) : wakingIrq s = Irq.byPriority.find? (endsWait s) := by
  unfold wakingIrq endsWait
  cases s.cfg.sw.waitWakeIgnoresPrio <;> rfl

theorem endsWait_iff (s : State) (k : Irq) : endsWait s k = true ↔
    if s.cfg.sw.waitWakeIgnoresPrio then s.irq.get k = true else Acceptable s k := by
  unfold endsWait
  split
  · exact Iff.rfl
  · exact acceptable_iff s k

theorem waitStep_stays {s : State} (h : ∀ k, ¬ endsWait s k = true) : waitStep s = .ok s := by
  have hnone : wakingIrq s = none := by
    rw [wakingIrq_eq]
    exact List.find?_eq_none.2 fun k _ => h k
  simp only [waitStep, hnone]

theorem waitStep_serves {s : State} {k : Irq} (hk : endsWait s k = true)
    (hmax : ∀ j, endsWait s j = true → j.number ≤ k.number) : waitStep s = serveIrq k s := by
  have hsome : wakingIrq s = some k := (wakingIrq_eq s).trans (find_byPriority_eq hk hmax)
  simp only [waitStep, hsome]

theorem step_waiting {s : State} (hscript : s.script = []) (hrun : s.run = .waiting) :
    step s = toOutcome (waitStep s) := by
  rw [step_of_script_nil hscript]
  simp only [cpuStep, hrun]

/-- Settles O50: the waking request is the highest that ends a wait, and it is served. -/
theorem waitState : Obligations.WaitState := by
  intro s hscript hrun wakes
  have hwakes (k : Irq) : endsWait s k = true ↔ wakes k := endsWait_iff s k
  refine ⟨fun hnone => ?_, fun hwf hsp hivb k hk hmax => ?_⟩
  · rw [step_waiting hscript hrun, waitStep_stays fun k => mt (hwakes k).1 (hnone k)]
    rfl
  · obtain ⟨t, hserve, henters, hclears, htinh, _⟩ := serveIrq_effect (k := k) hwf hsp hivb
    rw [irqVector_eq] at henters
    refine exec_next (step_waiting hscript hrun) ⟨t, ?_, henters, hclears, htinh⟩
    rw [waitStep_serves ((hwakes k).2 hk) fun j hj => hmax j ((hwakes j).1 hj), hserve]

/-! ## A halted CPU (R336) -/

theorem cpuStep_halted {s : State} (h : s.run = .halted) : cpuStep s = .next s := by
  simp only [cpuStep, h]

/-- Every step of a halted CPU is one of the peripherals or none at all, the host's reset set
aside. -/
theorem step_halted {s : State} (hrun : s.run = .halted)
    (hreset : ∀ st rest, s.script ≠ .reset st :: rest) :
    ∃ t rest, step s = .next t ∧ Peripheral { s with script := rest } t := by
  cases hscript : s.script with
  | nil =>
    refine ⟨s, s.script, ?_, peripheral_refl s⟩
    rw [step_of_script_nil hscript, cpuStep_halted hrun]
  | cons e rest =>
    refine ⟨applyEvent e { s with script := rest }, rest, ?_, applyEvent_peripheral e _ ?_⟩
    · by_cases hcpu : e = .cpu
      · subst hcpu
        exact (step_of_script_cpu hscript).trans (cpuStep_halted hrun)
      · exact step_of_script_event hscript hcpu
    · rintro st rfl
      exact hreset st rest hscript

/-- Settles O52: a peripheral event changes the peripherals and latches only, the latches upward. -/
theorem haltedForever : Obligations.HaltedForever := by
  intro s hrun hreset
  obtain ⟨t, rest, hstep, hper⟩ := step_halted hrun hreset
  refine ⟨t, hstep, ?_⟩
  rw [hper.eq]
  exact ⟨hrun, fun _ => rfl, rfl, rfl, rfl, rfl, rfl, hper.latches⟩

/-! ## The tick of a timer (R363, R364) -/

/-- A timer's registers after its tick. -/
def TimerRegs.ticked (r : TimerRegs) : TimerRegs :=
  { r with count := if r.top ≤ r.count then 0 else r.count + 1, presc := 0 }

/-- The latches after a tick of timer `n`: its request is set when the tick resets it and its bit of
TINT is set. -/
def tickedIrq (n : Timer) (s : State) : IrqLatches :=
  if (s.io.timer n).top ≤ (s.io.timer n).count ∧ n.enabled s.io = true then s.irq.set n.irq true
  else s.irq

/-- Everything a tick does. -/
theorem timerTick_eq (n : Timer) (s : State) :
    timerTick n s =
      { s with io := s.io.setTimer n (s.io.timer n).ticked, irq := tickedIrq n s } := by
  unfold timerTick tickedIrq TimerRegs.ticked
  by_cases hreset : (s.io.timer n).top ≤ (s.io.timer n).count
  · cases henabled : n.enabled s.io with
    | true =>
      simp only [hreset, and_self, if_true]
      rfl
    | false =>
      simp only [hreset, Bool.false_eq_true, and_false, if_true, if_false]
      rfl
  · simp only [hreset, false_and, if_false]
    rfl

theorem tickedIrq_get (n : Timer) (s : State) (k : Irq) :
    (tickedIrq n s).get k = true ↔ s.irq.get k = true ∨
      ((s.io.timer n).top ≤ (s.io.timer n).count ∧ n.enabled s.io = true ∧ k = n.irq) := by
  unfold tickedIrq
  split
  · next h =>
    rw [irq_get_set]
    by_cases hk : k = n.irq <;> simp [hk, h]
  · next h => simp only [← and_assoc, h, false_and, or_false]

theorem ticked_count (r : TimerRegs) : r.ticked.count.toNat =
    if r.top.toNat ≤ r.count.toNat then 0 else r.count.toNat + 1 := by
  have := r.top.isLt
  unfold TimerRegs.ticked
  simp only [BitVec.le_def]
  split
  · rfl
  · rw [BitVec.toNat_add_of_lt] <;> simp only [BitVec.reduceToNat]
    omega

theorem setTimer_io (io : Periph) (n : Timer) (r : TimerRegs) : io.setTimer n r =
    { io with t0 := (io.setTimer n r).t0, t1 := (io.setTimer n r).t1 } := by
  cases n <;> rfl

/-! ## A run of clock periods (R361, log 8) -/

@[simp] theorem setTimer_setTimer (io : Periph) (n : Timer) (r r' : TimerRegs) :
    (io.setTimer n r).setTimer n r' = io.setTimer n r' := by
  cases n <;> rfl

@[simp] theorem setTimer_timer (io : Periph) (n : Timer) : io.setTimer n (io.timer n) = io := by
  cases n <;> rfl

theorem enabled_setTimer (io : Periph) (n m : Timer) (r : TimerRegs) :
    m.enabled (io.setTimer n r) = m.enabled io :=
  timerEnabled_eq m (by cases n <;> rfl)

/-- The state of a machine whose timer `n` has its prescaler counter at `k`. -/
def State.setPresc (s : State) (n : Timer) (k : Nat) : State :=
  s.setIo (s.io.setTimer n { s.io.timer n with presc := BitVec.ofNat 16 k })

theorem setPresc_timer (s : State) (n : Timer) (k : Nat) :
    (s.setPresc n k).io.timer n = { s.io.timer n with presc := BitVec.ofNat 16 k } := by
  rw [State.setPresc, setIo_io, timer_setTimer, if_pos rfl]

theorem setPresc_setPresc (s : State) (n : Timer) (j k : Nat) :
    (s.setPresc n j).setPresc n k = s.setPresc n k := by
  unfold State.setPresc
  simp only [setIo_io, timer_setTimer, setTimer_setTimer, if_true]
  rfl

theorem setPresc_zero {s : State} {n : Timer} (h : (s.io.timer n).presc = 0) :
    s.setPresc n 0 = s := by
  rw [State.setPresc, show BitVec.ofNat 16 0 = (s.io.timer n).presc from h.symm, setTimer_timer]
  rfl

/-- A tick starts the prescaler over, so where it stood plays no part. -/
theorem timerTick_setPresc (s : State) (n : Timer) (k : Nat) :
    timerTick n (s.setPresc n k) = timerTick n s := by
  rw [timerTick_eq, timerTick_eq, tickedIrq, setPresc_timer, State.setPresc, setIo_io,
    enabled_setTimer, setTimer_setTimer]
  rfl

/-- The clock periods of a timer up to its tick. -/
def TimerRegs.period (r : TimerRegs) : Nat :=
  max r.pre.toNat 1

theorem period_le (r : TimerRegs) : r.period ≤ 65535 := by
  have := r.pre.isLt
  unfold TimerRegs.period
  omega

section Period

variable {n : Timer} {s : State}

theorem prescale_setPresc_counts {k : Nat} (hk : k + 1 < (s.io.timer n).period) :
    prescale n (s.setPresc n k) = s.setPresc n (k + 1) := by
  have hle := period_le (s.io.timer n)
  have hcount : (BitVec.ofNat 16 k).toNat = k := Nat.mod_eq_of_lt (by omega)
  have hsucc : ((s.setPresc n k).io.timer n).presc + 1 = BitVec.ofNat 16 (k + 1) := by
    rw [setPresc_timer]
    exact (BitVec.ofNat_add k 1).symm
  rw [prescale_counts (by rw [setPresc_timer]; exact hcount.symm ▸ hk), hsucc]
  exact setPresc_setPresc s n k (k + 1)

theorem prescale_setPresc_expires {k : Nat} (hk : k + 1 = (s.io.timer n).period) :
    prescale n (s.setPresc n k) = timerTick n s := by
  have hle := period_le (s.io.timer n)
  have hcount : (BitVec.ofNat 16 k).toNat = k := Nat.mod_eq_of_lt (by omega)
  rw [prescale_expires (by rw [setPresc_timer]; exact hcount.symm ▸ hk.ge), timerTick_setPresc]

/-- Fewer clock periods than a timer's period only count its prescaler up. -/
theorem prescale_iterate (hzero : (s.io.timer n).presc = 0) {k : Nat}
    (hk : k < (s.io.timer n).period) : (prescale n)^[k] s = s.setPresc n k := by
  induction k with
  | zero => exact (setPresc_zero hzero).symm
  | succ k ih => rw [Function.iterate_succ_apply', ih (by omega), prescale_setPresc_counts hk]

/-- As many as the period are one tick. -/
theorem prescale_iterate_period (hzero : (s.io.timer n).presc = 0) :
    (prescale n)^[(s.io.timer n).period] s = timerTick n s := by
  obtain ⟨k, hk⟩ : ∃ k, (s.io.timer n).period = k + 1 :=
    Nat.exists_eq_add_one.2 (Nat.lt_of_lt_of_le Nat.one_pos (Nat.le_max_right _ 1))
  rw [hk, Function.iterate_succ_apply', prescale_iterate hzero (by omega),
    prescale_setPresc_expires hk.symm]

end Period

/-! ## One timer of the machine (R360) -/

/-- Two states agree in what timer `n` works on: its registers, its request latch and its enable. -/
structure SameTimer (n : Timer) (s t : State) : Prop where
  timer : t.io.timer n = s.io.timer n
  latch : t.irq.get n.irq = s.irq.get n.irq
  enabled : n.enabled t.io = n.enabled s.io

theorem sameTimer_trans {n : Timer} {s t u : State} (a : SameTimer n s t) (b : SameTimer n t u) :
    SameTimer n s u :=
  ⟨b.timer.trans a.timer, b.latch.trans a.latch, b.enabled.trans a.enabled⟩

theorem clocked_enabled {s t : State} (n : Timer) (h : Clocked s t) :
    n.enabled t.io = n.enabled s.io :=
  timerEnabled_eq n (by rw [h.io])

theorem timerTick_sameTimer {n : Timer} {s t : State} (h : SameTimer n s t) :
    SameTimer n (timerTick n s) (timerTick n t) where
  timer := by rw [(timerTick_timer n t).1, (timerTick_timer n s).1, h.timer]
  latch := by rw [(timerTick_timer n t).2, (timerTick_timer n s).2, h.timer, h.latch, h.enabled]
  enabled := by
    rw [clocked_enabled n (timerTick_clocked n t), clocked_enabled n (timerTick_clocked n s),
      h.enabled]

/-- What a timer's prescaler does to the timer and its latch depends on nothing else. -/
theorem prescale_sameTimer {n : Timer} {s t : State} (h : SameTimer n s t) :
    SameTimer n (prescale n s) (prescale n t) := by
  by_cases hend : max (s.io.timer n).pre.toNat 1 ≤ (s.io.timer n).presc.toNat + 1
  · rw [prescale_expires hend, prescale_expires (s := t) (by rwa [h.timer])]
    exact timerTick_sameTimer h
  · have hcounts := Nat.lt_of_not_le hend
    rw [prescale_counts hcounts, prescale_counts (s := t) (by rwa [h.timer])]
    exact ⟨by simp [h.timer], h.latch, by simp only [setIo_io, enabled_setTimer, h.enabled]⟩

/-- Clock periods of the machine do to a timer what its own prescaler does. -/
theorem clockTick_iterate_sameTimer (n : Timer) (k : Nat) (s : State) :
    SameTimer n ((prescale n)^[k] s) (clockTick^[k] s) := by
  induction k with
  | zero => exact ⟨rfl, rfl, rfl⟩
  | succ k ih =>
    rw [Function.iterate_succ_apply', Function.iterate_succ_apply']
    obtain ⟨htimer, hlatch⟩ := clockTick_timer n (clockTick^[k] s)
    refine sameTimer_trans (prescale_sameTimer ih) ⟨htimer, hlatch, ?_⟩
    rw [clocked_enabled n (clockTick_clocked _), clocked_enabled n (prescale_clocked n _)]

/-- Settles O54: the law of the prescaler, and by it the run of clock periods, whose other effects
are those of `Clocked`. -/
theorem timerRate : Obligations.TimerRate := by
  intro n s hzero r period latch
  have hlatch : latch = n.irq := by cases n <;> rfl
  refine ⟨⟨prescale_iterate_period hzero, fun k hk => ?_⟩, fun k rest hk hscript => ?_⟩
  · rw [prescale_iterate hzero hk]
    exact ⟨by rw [setPresc_timer], rfl⟩
  · have hclocked := clockTick_iterate_clocked k s
    have hsame := clockTick_iterate_sameTimer n k s
    refine ⟨_, run_clocks k hscript, fun hlt => ?_, fun hend => ?_, fun m _ => ⟨hclocked.pre m,
      hclocked.top m⟩, hclocked.io, hclocked.latches, hclocked.others,
      congrArg (fun t => { t with script := rest }) hclocked.eq⟩
    · rw [prescale_iterate hzero hlt] at hsame
      exact ⟨hsame.timer.trans (setPresc_timer s n k), hlatch ▸ hsame.latch⟩
    · subst hend
      have htick : (prescale n)^[period] s = timerTick n s := prescale_iterate_period hzero
      rw [htick, timerTick_eq] at hsame
      refine ⟨hsame.timer.trans ?_, ?_⟩
      · rw [timer_setTimer, if_pos rfl]
        exact congrArg (fun p : Word => { r.ticked with presc := p }) hzero.symm
      · rw [hlatch]
        refine (Eq.congr_left hsame.latch).trans ((tickedIrq_get n s n.irq).trans ?_)
        cases n <;> simp only [and_true] <;> rfl

/-! ## A pin (R355) -/

theorem setPin_getLsbD (pins : BitVec 7) (i : Fin 7) (level : Bool) {j : Nat} (hj : j < 7) :
    (setPin pins i level).getLsbD j = if j = i.val then level else pins.getLsbD j := by
  have hmask : (pinMask i).getLsbD j = decide (i.val = j) := by
    rw [pinMask, ← BitVec.twoPow_eq, BitVec.getLsbD_twoPow, decide_eq_true i.isLt, Bool.true_and]
  rw [setPin, BitVec.getLsbD_or, BitVec.getLsbD_and, BitVec.getLsbD_not, hmask, decide_eq_true hj]
  by_cases hij : j = i.val
  · rw [if_pos hij, decide_eq_true hij.symm]
    cases level with
    | true => rw [if_pos rfl, hmask, decide_eq_true hij.symm, Bool.or_true]
    | false => simp
  · rw [if_neg hij, decide_eq_false (Ne.symm hij)]
    cases level with
    | true => simp [hmask, Ne.symm hij]
    | false => simp

/-- A request comes from its one pin and that pin's bit of INTA (R354, R355). -/
theorem pinIrq_enabled_iff (io : Periph) (i : Fin 7) (k : Irq) :
    pinIrq i = some k ∧ pinEnabled io i = true ↔
      (i.val = 1 ∧ io.inta.getLsbD 0 = true ∧ k = .irq2) ∨
      (i.val = 2 ∧ io.inta.getLsbD 1 = true ∧ k = .irq4) ∨
      (i.val = 3 ∧ io.inta.getLsbD 2 = true ∧ k = .irq6) ∨
      (i.val = 4 ∧ io.inta.getLsbD 3 = true ∧ k = .irq7) := by
  fin_cases i <;> simp [pinIrq, pinEnabled, and_comm, eq_comm (b := k)]

/-- Everything a pin change does. -/
theorem pinChange_eq (i : Fin 7) (level : Bool) (s : State) :
    pinChange i level s = { s with
      io := { s.io with pins := setPin s.io.pins i level }, irq := (pinChange i level s).irq } := by
  unfold pinChange
  cases pinIrq i with
  | none => rfl
  | some k => simp only; split <;> rfl

theorem pinChange_irq (i : Fin 7) (level : Bool) (s : State) (k : Irq) :
    (pinChange i level s).irq.get k = true ↔ s.irq.get k = true ∨
      ((s.io.pins.getLsbD i.val = false ∧ level = true ∧ s.io.ddra.getLsbD i.val = false) ∧
        pinIrq i = some k ∧ pinEnabled s.io i = true) := by
  unfold pinChange
  cases pinIrq i with
  | none => simp
  | some j =>
    have hlatches : (!s.io.pins.getLsbD i.val && level && pinEnabled s.io i &&
        !s.io.ddra.getLsbD i.val) = true ↔ (s.io.pins.getLsbD i.val = false ∧ level = true ∧
          s.io.ddra.getLsbD i.val = false) ∧ pinEnabled s.io i = true := by
      simp only [Bool.and_eq_true, Bool.not_eq_true']
      tauto
    simp only
    split
    · next h =>
      obtain ⟨hrises, henabled⟩ := hlatches.1 h
      rw [latchIrq_irq, irq_get_set]
      by_cases hk : k = j
      · subst hk
        exact iff_of_true (if_pos rfl) (.inr ⟨hrises, rfl, henabled⟩)
      · rw [if_neg hk]
        exact ⟨.inl, fun hor => hor.resolve_right fun ⟨_, hj, _⟩ => hk (Option.some.inj hj).symm⟩
    · next h =>
      exact ⟨.inl, fun hor => hor.resolve_right fun ⟨hrises, _, henabled⟩ =>
        h (hlatches.2 ⟨hrises, henabled⟩)⟩

/-! ## The serial ports (R371, R376) -/

theorem spiDone_busy (b : Byte) {s : State} (h : s.io.sbys = true) :
    spiDone b s =
      s.setIo { s.io with spiRx := b, sbys := false, spiDiv := 0, spiBits := 0 } := by
  rw [spiDone, if_pos h]

theorem uartTxDone_busy {s : State} (h : s.io.ubsy = true) :
    uartTxDone s = s.setIo { s.io with ubsy := false, uartTxBits := 0 } := by
  rw [uartTxDone, if_pos h]

/-- Settles O56: each event is a move of the script, and replaces the fields of its transfer. -/
theorem serialEvents : Obligations.SerialEvents := by
  refine fun s rest => ⟨fun b hs hbusy => ?_, fun hs hbusy => ?_, fun b hs => ?_⟩
  · exact (step_of_script_event hs nofun).trans
      (congrArg _ (spiDone_busy (s := { s with script := rest }) b hbusy))
  · exact (step_of_script_event hs nofun).trans
      (congrArg _ (uartTxDone_busy (s := { s with script := rest }) hbusy))
  · exact step_of_script_event hs nofun

end Sys2Proof.Machine

namespace Sys2Proof

open Sys2Proof.Machine

/-- Settles O53: the step is the tick, and each part of `timerTick_eq` is read off. -/
theorem timerTick : Obligations.TimerTick := by
  intro s n rest hs r resets
  have hstep := step_of_script_event hs nofun
  rw [applyEvent, timerTick_eq] at hstep
  have htimer (m : Timer) : (s.io.setTimer n r.ticked).timer m =
      if m = n then r.ticked else s.io.timer m := timer_setTimer s.io n m r.ticked
  refine ⟨_, hstep, ?_, ?_, ?_, fun m hm => ?_, setTimer_io s.io n r.ticked, fun k => ?_, rfl⟩
  · rw [htimer, if_pos rfl]
    exact ticked_count r
  · rw [htimer, if_pos rfl]
    rfl
  · rw [htimer, if_pos rfl]
    rfl
  · rw [htimer, if_neg hm]
  · refine (tickedIrq_get n _ k).trans ?_
    cases n <;> exact Iff.rfl

/-- Settles O55: the level of each pin by its mask, the latches by the pin's request and enable. -/
theorem pinChange : Obligations.PinChange := by
  intro s i level rest hs rises
  have hstep := step_of_script_event hs nofun
  rw [applyEvent, pinChange_eq] at hstep
  refine ⟨_, hstep, fun j hj => setPin_getLsbD s.io.pins i level hj, rfl, fun k => ?_, rfl⟩
  rw [← pinIrq_enabled_iff s.io i k]
  exact pinChange_irq i level { s with script := rest } k

end Sys2Proof
end
